-- ==== Sys2Proof/Word.lean ====
section
/-! DEFINITION. The word types of the block: 32-bit words of the command port and the register bus
(R8, R11, R80), 8-bit per-pin registers (R23), and a pin's offset inside its port (R7). -/

namespace Sys2Proof

/-- A command word, a bus address or a register value on the bus (R8, R80). -/
abbrev Word := BitVec 32

/-- A per-pin register: bit `o` belongs to the pin at offset `o` (R23). -/
abbrev Byte := BitVec 8

/-- A pin's bit position within its port (R7, R13). -/
abbrev Off := Fin 8

end Sys2Proof
end

