-- ==== Sys2Proof/Config.lean ====
section
/-! DEFINITION. What an implementation fixes: ports and lines, the named parameters of R9, and the free
values of the spec's `draw_bit()`. -/

namespace Sys2Proof

/-- The six ports (R7); index 0 = A … 5 = F. -/
inductive Port where
  | A | B | C | D | E | F
  deriving DecidableEq, Repr

/-- The port's index (R7), the bit number of the port in RCGC and READY (R43, R44). -/
def Port.index : Port → Nat
  | .A => 0 | .B => 1 | .C => 2 | .D => 3 | .E => 4 | .F => 5

/-- The ports in index order. -/
def Port.all : List Port := [.A, .B, .C, .D, .E, .F]

/-- One value for each port. -/
structure PerPort (α : Type) where
  a : α
  b : α
  c : α
  d : α
  e : α
  f : α
  deriving DecidableEq, Repr

/-- The value held for port `p`. -/
def PerPort.get {α : Type} (v : PerPort α) : Port → α
  | .A => v.a | .B => v.b | .C => v.c | .D => v.d | .E => v.e | .F => v.f

/-- `v` with the value of port `p` replaced. -/
def PerPort.set {α : Type} (v : PerPort α) (p : Port) (x : α) : PerPort α :=
  match p with
  | .A => { v with a := x } | .B => { v with b := x } | .C => { v with c := x }
  | .D => { v with d := x } | .E => { v with e := x } | .F => { v with f := x }

/-- The table of a function of the port. -/
def PerPort.ofFn {α : Type} (g : Port → α) : PerPort α :=
  ⟨g .A, g .B, g .C, g .D, g .E, g .F⟩

/-- The same value for every port. -/
def PerPort.const {α : Type} (x : α) : PerPort α := PerPort.ofFn fun _ => x

/-- One bit for each input line of the interrupt controller (R14, R305), bit `n` for line `n`; the lines are
those below `N_IRQ`. `N_IRQ` is a parameter (R9), so the bits have no fixed width: a line's bit is
`Nat.testBit`. -/
abbrev LineBits := Nat

/-- `PROFILE` (R9, R10, R12): the target part's values, or the document's alone. -/
inductive Profile where
  | tm4c123 | neutral
  deriving DecidableEq, Repr

/-- `PIN_SCHEME` (R9, R131, R141). -/
inductive PinScheme where
  | zero | legacy10
  deriving DecidableEq, Repr

/-- `CLOCK_READY` (R9, R44). -/
inductive ClockReady where
  | deferred | immediate
  deriving DecidableEq, Repr

/-- `REG_OFFSET[r]` (R9, R86) for the registers other than DATA, whose window R87 fixes. -/
structure RegOffsets where
  dir    : BitVec 12
  is     : BitVec 12
  ibe    : BitVec 12
  iev    : BitVec 12
  im     : BitVec 12
  ris    : BitVec 12
  mis    : BitVec 12
  icr    : BitVec 12
  afsel  : BitVec 12
  dr2r   : BitVec 12
  dr4r   : BitVec 12
  dr8r   : BitVec 12
  odr    : BitVec 12
  pur    : BitVec 12
  pdr    : BitVec 12
  slr    : BitVec 12
  den    : BitVec 12
  lock   : BitVec 12
  cr     : BitVec 12
  amsel  : BitVec 12
  pctl   : BitVec 12
  adcctl : BitVec 12
  dmactl : BitVec 12
  deriving DecidableEq, Repr

/-- The addresses of R9: the aperture bases (R84), the register offsets (R86), the system-control words (R89)
and the base of the interrupt controller's windows (R90). -/
structure AddressMap where
  /-- `APB_BASE[p]`. -/
  apbBase   : PerPort Word
  /-- `AHB_BASE[p]`. -/
  ahbBase   : PerPort Word
  /-- `REG_OFFSET[r]`. -/
  regOffset : RegOffsets
  /-- `RCGC_ADDR`. -/
  rcgcAddr  : Word
  /-- `PR_ADDR`. -/
  prAddr    : Word
  /-- `NVIC_BASE`. -/
  nvicBase  : Word
  deriving DecidableEq, Repr

/-- The parameters of R9. They are held in State as data that no step changes, so that a statement about
every state is a statement about every build. -/
structure Params where
  profile    : Profile
  pinScheme  : PinScheme
  clockReady : ClockReady
  /-- `AHB_ENABLED[p]` (R85). -/
  ahbEnabled : PerPort Bool
  /-- `PIN_PRESENT[p]` (R9, R266). -/
  pinPresent : PerPort Byte
  /-- `IRQ_LINE[p]` (R9, R225). -/
  irqLine    : PerPort Nat
  /-- `APB_BASE`, `AHB_BASE`, `REG_OFFSET`, `RCGC_ADDR`, `PR_ADDR`, `NVIC_BASE`. -/
  map        : AddressMap
  /-- `N_IRQ`, the number of interrupt-controller lines (D22). -/
  nIrq       : Nat
  /-- `PRIO_BITS`, the width of a line's priority (D24). -/
  prioBits   : Nat
  deriving DecidableEq, Repr

/-- Where a step draws a free byte: the DATA read of alternate-function pins (R257), the spurious status
of a sense change (R265), the detector input of a port (R311). -/
inductive DrawSite where
  | dataRead
  | spurious
  | sample (p : Port)
  deriving DecidableEq, Repr

/-- The free values: bit `o` of `freeByte k site` is the `draw_bit()` (R11) made for the pin at offset `o`
at that site of step number `k`. It has no body: nothing is known of it (log entry 8). -/
opaque Config.freeByte : Nat → DrawSite → Byte

end Sys2Proof
end

