-- ==== Sys2Proof/Syntax.lean ====
section
/-! DEFINITION. The commands of GPIOE-CMD version 1 (R3, R121): one constructor for each row of the opcode
table, with the field values of R129 as constructors of their own types. -/

namespace Sys2Proof

/-- `bus` (R129): which of a port's two apertures (R83). -/
inductive Bus where
  | apb | ahb
  deriving DecidableEq, Repr

/-- `dir` (R129). -/
inductive Dir where
  | input | output
  deriving DecidableEq, Repr

/-- `pull` (R129). -/
inductive Pull where
  | none | up | down | openDrain
  deriving DecidableEq, Repr

/-- `drive` (R129); the value 3 is reserved and has no constructor. -/
inductive Drive where
  | ma2 | ma4 | ma8
  deriving DecidableEq, Repr

/-- `sig` (R129). -/
inductive Sig where
  | digital | analog
  deriving DecidableEq, Repr

/-- `trig` (R129); the values 6 and 7 are reserved and have no constructor. -/
inductive Trig where
  | none | rising | falling | both | high | low
  deriving DecidableEq, Repr

/-- `kind` (R129): what RESOLVE's selector is. -/
inductive SelKind where
  | pin | port
  deriving DecidableEq, Repr

/-- The commands. Pin identifiers and port fields keep their raw width, since an invalid one is a legal
encoding with a stated meaning (R130, R131, R137). -/
inductive Instr where
  /-- NOP (R250). -/
  | nop
  /-- CFG, configurePin (R183). -/
  | cfg (pin : BitVec 7) (dir : Dir) (afen : Bool) (afcode : BitVec 4) (pull : Pull) (drive : Drive)
      (sig : Sig) (trig : Trig) (bus : Bus)
  /-- ARM, armInterrupt (R221). -/
  | arm (pin : BitVec 7) (trig : Trig) (bus : Bus)
  /-- DEINIT, disarmInterrupt (R226). -/
  | deinit (port : BitVec 3)
  /-- RESOLVE, resolvePort, pinOffset and portOf (R165). -/
  | resolve (sel : BitVec 7) (bus : Bus) (kind : SelKind)
  /-- CLKEN (R199). -/
  | clken (port : BitVec 3)
  /-- CLKDIS (R200). -/
  | clkdis (port : BitVec 3)
  /-- RDARM (R229). -/
  | rdarm (port : BitVec 3)
  /-- RDR, a port-relative read (R251). -/
  | rdr (port : BitVec 3) (off : BitVec 12) (bus : Bus)
  /-- WRR, a port-relative write (R252). -/
  | wrr (port : BitVec 3) (off : BitVec 12) (bus : Bus) (data : Word)
  /-- RDA, an absolute read (R253). -/
  | rda (addr : Word)
  /-- WRA, an absolute write (R254). -/
  | wra (addr : Word) (data : Word)
  deriving DecidableEq, Repr

end Sys2Proof
end

