-- ==== Sys2Proof/WellFormed.lean ====
section
/-! DEFINITION. Which terms of Instr are commands some words stand for: the constraints of R137 and R126
that the field types do not already carry. -/

namespace Sys2Proof

/-- `afcode` is 0 when no alternate function is requested (R129, R137); a port selector of RESOLVE has its
upper four bits zero (R126). Every other term is well-formed. -/
def Instr.wf : Instr → Bool
  | .cfg _ _ afen afcode _ _ _ _ _ => afen || afcode == 0
  | .resolve sel _ kind => kind == .pin || sel.extractLsb' 3 4 == 0
  | .nop | .arm _ _ _ | .deinit _ | .clken _ | .clkdis _ | .rdarm _
  | .rdr _ _ _ | .wrr _ _ _ _ | .rda _ | .wra _ _ => true

/-- The proposition form of `Instr.wf`. -/
abbrev Instr.WellFormed (i : Instr) : Prop := i.wf = true

end Sys2Proof
end

