-- ==== Sys2Proof/Decode.lean ====
section
/-! DEFINITION. The command encoding (30_encoding.md): the decoder of the command port, total on every
stream of words and rejecting by name, and the encoder, both written from the format tables R122 to R128. -/

namespace Sys2Proof

/-- Why a word 0 is illegal (R139). -/
inductive Reject where
  /-- Opcodes 0xC to 0xF (R135). -/
  | reservedOpcode
  /-- A bit the format marks 0 is set (R136). -/
  | reservedBits
  /-- `drive = 3` (R137). -/
  | reservedDrive
  /-- `trig` is 6 or 7 (R137). -/
  | reservedTrigger
  /-- `afcode ≠ 0` with `afen = 0` (R137). -/
  | codeWithoutFunction
  /-- `kind = 1` with bits 27:24 not zero (R126). -/
  | portSelectorBits
  deriving DecidableEq, Repr

/-- The field of `len` bits from bit `lo` up, as a number (R11, R129). -/
def field (w : Word) (lo len : Nat) : Nat := (w.extractLsb' lo len).toNat

/-- Bits [31:28] of word 0 (R120). -/
def opcode (w : Word) : Nat := field w 28 4

/-- The number of words of a command, a function of its opcode alone (R121). -/
def commandLength (w : Word) : Nat :=
  match opcode w with
  | 9 => 2
  | 10 => 2
  | 11 => 3
  | _ => 1

/-- The field of `len` bits from bit `lo` up is zero. -/
def zeroField (w : Word) (lo len : Nat) : Bool := field w lo len == 0

/-- `bus` in bit 6 (R123, R124, R126, R127). -/
def busField (w : Word) : Bus := if zeroField w 6 1 then .apb else .ahb

/-- `dir` in bit 20 (R123). -/
def dirField (w : Word) : Dir := if zeroField w 20 1 then .input else .output

/-- `pull` in bits 14:13 (R123, R129). -/
def pullField (w : Word) : Pull :=
  match field w 13 2 with
  | 0 => .none
  | 1 => .up
  | 2 => .down
  | _ => .openDrain

/-- `drive` in bits 12:11 (R123, R129); 3 is reserved. -/
def driveField (w : Word) : Option Drive :=
  match field w 11 2 with
  | 0 => some .ma2
  | 1 => some .ma4
  | 2 => some .ma8
  | _ => none

/-- `sig` in bit 10 (R123). -/
def sigField (w : Word) : Sig := if zeroField w 10 1 then .digital else .analog

/-- `trig` in bits 9:7 (R123, R124, R129); 6 and 7 are reserved. -/
def trigField (w : Word) : Option Trig :=
  match field w 7 3 with
  | 0 => some .none
  | 1 => some .rising
  | 2 => some .falling
  | 3 => some .both
  | 4 => some .high
  | 5 => some .low
  | _ => none

/-- `kind` in bit 5 (R126). -/
def kindField (w : Word) : SelKind := if zeroField w 5 1 then .pin else .port

/-- `port` in bits 23:21 (R125, R127). -/
def portField (w : Word) : BitVec 3 := w.extractLsb' 21 3

/-- `pin` or `sel` in bits 27:21 (R123, R124, R126). -/
def pinField (w : Word) : BitVec 7 := w.extractLsb' 21 7

/-- Goes on with `k` if the check holds, else rejects by name. -/
def checked {α : Type} (ok : Bool) (why : Reject) (k : Except Reject α) : Except Reject α :=
  if ok then k else .error why

/-- Format C (R123, R137, R139). -/
def decodeCfg (w : Word) : Except Reject Instr :=
  checked (zeroField w 0 6) .reservedBits <|
  match driveField w with
  | none => .error .reservedDrive
  | some drive =>
    match trigField w with
    | none => .error .reservedTrigger
    | some trig =>
      checked (!zeroField w 19 1 || zeroField w 15 4) .codeWithoutFunction <|
      .ok (.cfg (pinField w) (dirField w) (!zeroField w 19 1) (w.extractLsb' 15 4) (pullField w) drive
        (sigField w) trig (busField w))

/-- Format A (R124, R139). -/
def decodeArm (w : Word) : Except Reject Instr :=
  checked (zeroField w 10 11 && zeroField w 0 6) .reservedBits <|
  match trigField w with
  | none => .error .reservedTrigger
  | some trig => .ok (.arm (pinField w) trig (busField w))

/-- Format P (R125, R139), giving the port field. -/
def decodePort (w : Word) : Except Reject (BitVec 3) :=
  checked (zeroField w 24 4 && zeroField w 0 21) .reservedBits <| .ok (portField w)

/-- Format S (R126, R139). -/
def decodeResolve (w : Word) : Except Reject Instr :=
  checked (zeroField w 7 14 && zeroField w 0 5) .reservedBits <|
  checked (zeroField w 5 1 || zeroField w 24 4) .portSelectorBits <|
  .ok (.resolve (pinField w) (busField w) (kindField w))

/-- Format M (R127, R139), giving the port, offset and bus fields. -/
def decodeAccess (w : Word) : Except Reject (BitVec 3 × BitVec 12 × Bus) :=
  checked (zeroField w 24 4 && zeroField w 20 1 && zeroField w 7 1 && zeroField w 0 6) .reservedBits <|
  .ok (portField w, w.extractLsb' 8 12, busField w)

/-- The command that word 0 `w` with operand words `w1` and `w2` stands for (R133, R139). -/
def decodeCommand (w w1 w2 : Word) : Except Reject Instr :=
  match opcode w with
  | 0 => checked (zeroField w 0 28) .reservedBits (.ok .nop)
  | 1 => decodeCfg w
  | 2 => decodeArm w
  | 3 => (decodePort w).map .deinit
  | 4 => decodeResolve w
  | 5 => (decodePort w).map .clken
  | 6 => (decodePort w).map .clkdis
  | 7 => (decodePort w).map .rdarm
  | 8 => (decodeAccess w).map fun f => .rdr f.1 f.2.1 f.2.2
  | 9 => (decodeAccess w).map fun f => .wrr f.1 f.2.1 f.2.2 w1
  | 10 => checked (zeroField w 0 28) .reservedBits (.ok (.rda w1))
  | 11 => checked (zeroField w 0 28) .reservedBits (.ok (.wra w1 w2))
  | _ => .error .reservedOpcode

/-- What the command port finds at the head of the command stream. -/
inductive Fetch where
  /-- Some word of the next command has not arrived (R140). -/
  | waiting
  /-- Word 0 is illegal; the command's words are consumed (R134). -/
  | illegal (w : Word) (why : Reject) (rest : List Word)
  /-- A legal command and the stream after it. -/
  | command (i : Instr) (rest : List Word)
  deriving DecidableEq, Repr

/-- Reads the next command of the stream (R121, R134, R140). -/
def decodeStream : List Word → Fetch
  | [] => .waiting
  | w :: operands =>
    if operands.length < commandLength w - 1 then .waiting
    else
      match decodeCommand w (operands.getD 0 0) (operands.getD 1 0) with
      | .ok i => .command i (operands.drop (commandLength w - 1))
      | .error why => .illegal w why (operands.drop (commandLength w - 1))

/-- The words of the instruction whose bits are `w` (bit 0 the least significant bit of word 0), every bit
at or above `nbits` zero; as many words as its opcode gives it. -/
def commandWords (nbits w : Nat) : List Word :=
  let bits := w % 2 ^ nbits
  (List.range (commandLength (BitVec.ofNat 32 bits))).map fun k => BitVec.ofNat 32 (bits >>> (32 * k))

/-- What the decoder reads from the instruction whose bits are `w`. -/
def decodeTableWord (nbits w : Nat) : Option Instr :=
  match decodeStream (commandWords nbits w) with
  | .command i _ => some i
  | .illegal _ _ _ => none
  | .waiting => none

/-! ### The encoder -/

/-- The code of `bus` (R129). -/
def Bus.code : Bus → Nat
  | .apb => 0 | .ahb => 1

/-- The code of `dir` (R129). -/
def Dir.code : Dir → Nat
  | .input => 0 | .output => 1

/-- The code of `pull` (R129). -/
def Pull.code : Pull → Nat
  | .none => 0 | .up => 1 | .down => 2 | .openDrain => 3

/-- The code of `drive` (R129). -/
def Drive.code : Drive → Nat
  | .ma2 => 0 | .ma4 => 1 | .ma8 => 2

/-- The code of `sig` (R129). -/
def Sig.code : Sig → Nat
  | .digital => 0 | .analog => 1

/-- The code of `trig` (R129). -/
def Trig.code : Trig → Nat
  | .none => 0 | .rising => 1 | .falling => 2 | .both => 3 | .high => 4 | .low => 5

/-- The code of `kind` (R129). -/
def SelKind.code : SelKind → Nat
  | .pin => 0 | .port => 1

/-- Word 0 of format C (R123). -/
def cfgWord (pin : BitVec 7) (dir : Dir) (afen : Bool) (afcode : BitVec 4) (pull : Pull) (drive : Drive)
    (sig : Sig) (trig : Trig) (bus : Bus) : Word :=
  BitVec.ofNat 32 (0x1 * 2 ^ 28 + pin.toNat * 2 ^ 21 + dir.code * 2 ^ 20 + afen.toNat * 2 ^ 19
    + afcode.toNat * 2 ^ 15 + pull.code * 2 ^ 13 + drive.code * 2 ^ 11 + sig.code * 2 ^ 10
    + trig.code * 2 ^ 7 + bus.code * 2 ^ 6)

/-- Word 0 of format A (R124). -/
def armWord (pin : BitVec 7) (trig : Trig) (bus : Bus) : Word :=
  BitVec.ofNat 32 (0x2 * 2 ^ 28 + pin.toNat * 2 ^ 21 + trig.code * 2 ^ 7 + bus.code * 2 ^ 6)

/-- Word 0 of format P (R125). -/
def portWord (op : Nat) (port : BitVec 3) : Word := BitVec.ofNat 32 (op * 2 ^ 28 + port.toNat * 2 ^ 21)

/-- Word 0 of format S (R126). -/
def resolveWord (sel : BitVec 7) (bus : Bus) (kind : SelKind) : Word :=
  BitVec.ofNat 32 (0x4 * 2 ^ 28 + sel.toNat * 2 ^ 21 + bus.code * 2 ^ 6 + kind.code * 2 ^ 5)

/-- Word 0 of format M (R127). -/
def accessWord (op : Nat) (port : BitVec 3) (off : BitVec 12) (bus : Bus) : Word :=
  BitVec.ofNat 32 (op * 2 ^ 28 + port.toNat * 2 ^ 21 + off.toNat * 2 ^ 8 + bus.code * 2 ^ 6)

/-- The words of a command, from the format tables R122 to R128. -/
def encode : Instr → List Word
  | .nop => [0x00000000]
  | .cfg pin dir afen afcode pull drive sig trig bus =>
    [cfgWord pin dir afen afcode pull drive sig trig bus]
  | .arm pin trig bus => [armWord pin trig bus]
  | .deinit port => [portWord 0x3 port]
  | .resolve sel bus kind => [resolveWord sel bus kind]
  | .clken port => [portWord 0x5 port]
  | .clkdis port => [portWord 0x6 port]
  | .rdarm port => [portWord 0x7 port]
  | .rdr port off bus => [accessWord 0x8 port off bus]
  | .wrr port off bus data => [accessWord 0x9 port off bus, data]
  | .rda addr => [0xA0000000, addr]
  | .wra addr data => [0xB0000000, addr, data]

end Sys2Proof
end

