-- ==== Sys2Proof/Machine/Registers.lean ====
section
/-! DEFINITION. The per-port GPIO register file (R22 to R41), its reset values (R56), and the defaults of the
parameters (R9). -/

namespace Sys2Proof.Machine

/-- The registers of a port's window other than DATA (R22), which is reached through its masked window
(R24) and never by the engine. MIS is computed and ICR stores nothing (R31, R32). -/
inductive Reg where
  | dir | is | ibe | iev | im | ris | mis | icr | afsel
  | dr2r | dr4r | dr8r | odr | pur | pdr | slr | den
  | lock | cr | amsel | pctl | adcctl | dmactl
  deriving DecidableEq, Repr

/-- The registers of `Reg`, in the order of R22's table, which is that of the default offsets (R86). -/
def Reg.all : List Reg :=
  [.dir, .is, .ibe, .iev, .im, .ris, .mis, .icr, .afsel, .dr2r, .dr4r, .dr8r, .odr, .pur, .pdr, .slr,
   .den, .lock, .cr, .amsel, .pctl, .adcctl, .dmactl]

/-- What one port's register block stores: 22 registers (R22). -/
structure PortRegs where
  data   : Byte        -- output latch (R24)
  dir    : Byte        -- 1 = output (R25)
  is     : Byte        -- 1 = level-sensitive (R26)
  ibe    : Byte        -- 1 = both edges (R27)
  iev    : Byte        -- 1 = rising edge or high level (R28)
  im     : Byte        -- 1 = delivered (R29, C1)
  ris    : Byte        -- raw status (R30)
  afsel  : Byte        -- 1 = alternate function (R33)
  dr2r   : Byte        -- 2 mA (R35)
  dr4r   : Byte        -- 4 mA (R35)
  dr8r   : Byte        -- 8 mA (R35)
  odr    : Byte        -- open drain (R36)
  pur    : Byte        -- pull-up (R36)
  pdr    : Byte        -- pull-down (R36)
  slr    : Byte        -- slew rate, storage only (R37)
  den    : Byte        -- digital enable (R38)
  locked : Bool        -- the bit LOCK reads (R39)
  cr     : Byte        -- commit (R40)
  amsel  : Byte        -- analog select (R38)
  pctl   : Word        -- eight 4-bit function codes (R34)
  adcctl : Byte        -- storage only (R41)
  dmactl : Byte        -- storage only (R41)
  deriving DecidableEq, Repr

/-- A port's registers after reset under `NEUTRAL` (R56): all zero, unlocked. -/
def resetNeutral : PortRegs :=
  { data := 0, dir := 0, is := 0, ibe := 0, iev := 0, im := 0, ris := 0, afsel := 0
    dr2r := 0, dr4r := 0, dr8r := 0, odr := 0, pur := 0, pdr := 0, slr := 0, den := 0
    locked := false, cr := 0, amsel := 0, pctl := 0, adcctl := 0, dmactl := 0 }

/-- CR after reset under `TM4C123` (R56): PC0 to PC3, PD7 and PF0 are commit-protected. -/
def resetCommit : Port → Byte
  | .A => 0xFF | .B => 0xFF | .C => 0xF0 | .D => 0x7F | .E => 0xFF | .F => 0xFE

/-- PCTL after reset under `TM4C123` (R56). -/
def resetPctl : Port → Word
  | .A => 0x00222211 | .B => 0x00003300 | .C => 0x00001111 | .D => 0 | .E => 0 | .F => 0

/-- AFSEL, PUR and DEN after reset under `TM4C123` (R56): the debug pins PC0 to PC3. -/
def resetDebugPins : Port → Byte
  | .C => 0x0F
  | .A | .B | .D | .E | .F => 0x00

/-- A port's registers after reset (R56). -/
def resetPort : Profile → Port → PortRegs
  | .neutral, _ => resetNeutral
  | .tm4c123, p =>
    { resetNeutral with
      dr2r := 0xFF, locked := true, cr := resetCommit p, pctl := resetPctl p
      afsel := resetDebugPins p, pur := resetDebugPins p, den := resetDebugPins p }

/-- `PIN_PRESENT[p]` (R9). -/
def defaultPinPresent : Profile → Port → Byte
  | .neutral, _ => 0xFF
  | .tm4c123, .E => 0x3F
  | .tm4c123, .F => 0x1F
  | .tm4c123, _ => 0xFF

/-- `IRQ_LINE[p]` (R9, R225). -/
def defaultIrqLine : Port → Nat
  | .A => 0 | .B => 1 | .C => 2 | .D => 3 | .E => 4 | .F => 30

/-- `REG_OFFSET[r]` (R86). -/
def defaultRegOffsets : RegOffsets :=
  { dir := 0x400, is := 0x404, ibe := 0x408, iev := 0x40C, im := 0x410, ris := 0x414, mis := 0x418
    icr := 0x41C, afsel := 0x420, dr2r := 0x500, dr4r := 0x504, dr8r := 0x508, odr := 0x50C, pur := 0x510
    pdr := 0x514, slr := 0x518, den := 0x51C, lock := 0x520, cr := 0x524, amsel := 0x528, pctl := 0x52C
    adcctl := 0x530, dmactl := 0x534 }

/-- The default addresses of R84, R86, R89 and R90. -/
def defaultMap : AddressMap :=
  { apbBase := ⟨0x40004000, 0x40005000, 0x40006000, 0x40007000, 0x40024000, 0x40025000⟩
    ahbBase := ⟨0x40058000, 0x40059000, 0x4005A000, 0x4005B000, 0x4005C000, 0x4005D000⟩
    regOffset := defaultRegOffsets
    rcgcAddr := 0x400FE608, prAddr := 0x400FEA08, nvicBase := 0xE000E000 }

/-- The parameters with the defaults of R9 for a profile. -/
def defaultParams (prof : Profile) : Params :=
  { profile := prof, pinScheme := .zero, clockReady := .deferred
    ahbEnabled := .const true
    pinPresent := .ofFn (defaultPinPresent prof)
    irqLine := .ofFn defaultIrqLine
    map := defaultMap, nIrq := 160, prioBits := 3 }

end Sys2Proof.Machine
end

