-- ==== Sys2Proof/Machine/State.lean ====
section
/-! DEFINITION. The state of the block (R20), the inputs the model holds beside it as plain data, the
reasons a step can stop, and the state after reset (R56, R57, R360). -/

namespace Sys2Proof.Machine

/-- One indivisible register effect of the sequencer (R181). -/
inductive MicroOp where
  | clkSet (p : Port)
  | clkClr (p : Port)
  | waitRdy (p : Port)
  | bset (p : Port) (b : Bus) (x : Reg) (o : Off)
  | bclr (p : Port) (b : Bus) (x : Reg) (o : Off)
  | nib (p : Port) (b : Bus) (o : Off) (c : BitVec 4)
  | w1c (p : Port) (b : Bus) (o : Off)
  | armSet (p : Port) (o : Off)
  | armClr (p : Port)
  | irqEn (n : Nat)
  deriving DecidableEq, Repr

/-- The sequencer (R51): idle, or running the list `ops` of command `cmd` with `ops[i]` next. -/
inductive Seq where
  | idle
  | busy (cmd : Instr) (ops : List MicroOp) (i : Nat)
  deriving DecidableEq, Repr

/-- The status codes of R300; the codes 7 to 15 are never produced and have no constructor. -/
inductive Status where
  | ok | illegal | align | unmapped | ahbOff | gated | notReady
  deriving DecidableEq, Repr

/-- The response record (R52). -/
structure Resp where
  status : Status
  addr   : Word
  data   : Word
  aux    : Word
  deriving DecidableEq, Repr

/-- The events of the observation trace (R54). -/
inductive Event where
  | write (addr value : Word)
  | read (addr value : Word)
  | fault (code : Status) (addr : Word)
  | ack (n : Nat)
  | eoi (n : Nat)
  deriving DecidableEq, Repr

/-- Which agent takes a step (R15), with what an input brings; `host` supplies command words (R140) and
`reset` is the block's one reset (R360). -/
inductive Turn where
  | port
  | sequencer
  | environment (level : PerPort Byte) (xline : LineBits)
  | clockReady (p : Port)
  | ack
  | eoi
  | host (words : List Word)
  | reset
  deriving DecidableEq, Repr

/-- The state: the components of R20, the active stack of R320, the trace of R54; then the model's own
fields, the inputs R20 keeps out of the block's state and the counter of the free values. -/
structure State where
  /-- `R[p]` (R22). -/
  regs    : PerPort PortRegs
  /-- `S[p]`, the sampled inputs (R42). -/
  sampled : PerPort Byte
  /-- The clock gates (R43); bit `p.index` belongs to port `p`. -/
  rcgc    : BitVec 6
  /-- The ready bits (R44). -/
  ready   : BitVec 6
  /-- The Interrupt Arming Table (R45). -/
  armt    : PerPort (Option Off)
  /-- `EN[n]` (R46). -/
  en      : LineBits
  /-- `PEND[n]` (R47). -/
  pend    : LineBits
  /-- `ACT[n]` (R48). -/
  act     : LineBits
  /-- `PRI[n]` (R49), line 0 first: a value of `PRIO_BITS` bits, of which R9 allows at most eight. -/
  pri     : List Byte
  /-- The active stack, line numbers, the most recently acknowledged line first (R320, R321). -/
  stack   : List Nat
  /-- The sequencer (R51). -/
  seq     : Seq
  /-- The response of the last completed command (R52). -/
  resp    : Resp
  /-- The observation trace, oldest event first (R54). -/
  trace   : List Event
  /-- The parameters (R9); no step changes them. -/
  par     : Params
  /-- Command words supplied and not yet consumed (R51, R140). -/
  stream  : List Word
  /-- Whose turn it is, next first; when empty, `defaultTurn` decides (log entry 2). -/
  turns   : List Turn
  /-- `LEVEL[p][o]` (R53). -/
  level   : PerPort Byte
  /-- `XLINE[n]` (R50); the bits of lines a port drives are not read. -/
  xline   : LineBits
  /-- The ports whose clock was already awaited when the last step began (log entry 2). -/
  waited  : BitVec 6
  /-- The number of steps taken, the index of the free values (log entry 8). -/
  tick    : Nat
  deriving DecidableEq, Repr

/-- What stops the machine. The spec's own faults do not: they are reported in RESP and the machine goes
on (R301, R302). -/
inductive Fault where
  /-- Raised by every meaning when `exec` is asked to accept a command while the sequencer is busy, which
  R104 excludes and `step` never does. Safe: no behaviour is invented for a case that cannot arise. -/
  | commandPortBusy
  deriving DecidableEq, Repr

/-- Why a step has no meaning. -/
inductive Refusal where
  /-- Raised by an arm of `exec` whose instruction has no meaning yet; no arm raises it. Safe. -/
  | notModelled (mnemonic : String)
  deriving DecidableEq, Repr

/-- The state right after reset for given parameters (R56, R57, R360). RESP, which R57 leaves undefined, and
the inputs hold the values of log entries 2, 4, 5, 6, 7 and 8. -/
def State.resetWith (par : Params) : State :=
  { regs := .ofFn (resetPort par.profile)
    sampled := .const 0, rcgc := 0, ready := 0, armt := .const none
    en := 0, pend := 0, act := 0, pri := List.replicate par.nIrq 0, stack := []
    seq := .idle, resp := ⟨.ok, 0, 0, 0⟩, trace := []
    par := par, stream := [], turns := [], level := .const 0, xline := 0, waited := 0, tick := 0 }

/-- The machine right after reset, with the spec's default parameters (R9). -/
def State.reset : State := State.resetWith (defaultParams .tm4c123)

end Sys2Proof.Machine
end

