-- ==== Sys2Proof/Machine/AddressMap.lean ====
section
/-! DEFINITION. The address map of the register bus (20_memory.md) for the addresses the build chooses:
aperture bases, register offsets, and `Decode(a)`. -/

namespace Sys2Proof.Machine

/-- `base(p, b)`: the aperture the bus selector chooses (R83, R132). -/
def apertureBase (m : AddressMap) (p : Port) : Bus → Word
  | .apb => m.apbBase.get p
  | .ahb => m.ahbBase.get p

/-- `REG_OFFSET[r]` (R86). -/
def regOffset (m : AddressMap) (x : Reg) : BitVec 12 :=
  let t := m.regOffset
  match x with
  | .dir => t.dir | .is => t.is | .ibe => t.ibe | .iev => t.iev | .im => t.im | .ris => t.ris
  | .mis => t.mis | .icr => t.icr | .afsel => t.afsel | .dr2r => t.dr2r | .dr4r => t.dr4r
  | .dr8r => t.dr8r | .odr => t.odr | .pur => t.pur | .pdr => t.pdr | .slr => t.slr | .den => t.den
  | .lock => t.lock | .cr => t.cr | .amsel => t.amsel | .pctl => t.pctl | .adcctl => t.adcctl
  | .dmactl => t.dmactl

/-- `addr(p, b, X)` (R181). -/
def regAddr (m : AddressMap) (p : Port) (b : Bus) (x : Reg) : Word :=
  apertureBase m p b + (regOffset m x).setWidth 32

/-- The interrupt-controller windows (R90). -/
inductive NvKind where
  | setEna | clrEna | setPend | clrPend | active | pri
  deriving DecidableEq, Repr

/-- The offset of a window from `NVIC_BASE` (R87, R90). -/
def NvKind.offset : NvKind → Nat
  | .setEna => 0x100 | .clrEna => 0x180 | .setPend => 0x200 | .clrPend => 0x280 | .active => 0x300
  | .pri => 0x400

/-- The length of a window in bytes (R87): one word for 32 lines, one byte a line for the priorities. -/
def NvKind.length (nIrq : Nat) : NvKind → Nat
  | .setEna | .clrEna | .setPend | .clrPend | .active => 4 * (nIrq / 32)
  | .pri => nIrq

/-- The address of word `k` of a window (R87, R90). -/
def nvAddr (m : AddressMap) (kind : NvKind) (k : Nat) : Word :=
  m.nvicBase + BitVec.ofNat 32 (kind.offset + 4 * k)

/-- The windows in the order `Decode` tries them. -/
def NvKind.all : List NvKind := [.setEna, .clrEna, .setPend, .clrPend, .active, .pri]

/-- What an address names (R87). -/
inductive Target where
  | fault (code : Status)
  | data (p : Port) (b : Bus) (mask : Byte)
  | reg (p : Port) (b : Bus) (x : Reg)
  | sysRcgc
  | sysReady
  | nv (kind : NvKind) (k : Nat)
  deriving DecidableEq, Repr

/-- `base ≤ a < base + len`. -/
def inWindow (base : Nat) (a : Word) (len : Nat) : Bool := base ≤ a.toNat && a.toNat < base + len

/-- The register at an offset of a port window (R86, R87). DESIGN CHOICE: R87 says "for some register r";
where a build gives several registers one offset, an access reaches the first in the order of R22's
table, which is `Reg.all`'s (log entry 26). -/
def regAt (m : AddressMap) (off : Nat) : Option Reg := Reg.all.find? fun x => (regOffset m x).toNat == off

/-- `PortTarget(p, bus, off)` (R87, R88). -/
def portTarget (m : AddressMap) (p : Port) (b : Bus) (off : Nat) : Target :=
  if off ≤ 0x3FC then .data p b (BitVec.ofNat 8 (off / 4))
  else
    match regAt m off with
    | some x => .reg p b x
    | none => .fault .unmapped

/-- The port window an address lies in (R84, R87). -/
def portWindow (m : AddressMap) (a : Word) : Option (Port × Bus) :=
  Port.all.findSome? fun p =>
    if inWindow (m.apbBase.get p).toNat a 0x1000 then some (p, .apb)
    else if inWindow (m.ahbBase.get p).toNat a 0x1000 then some (p, .ahb)
    else none

/-- The interrupt-controller window an address lies in (R87, R90). -/
def nvWindow (par : Params) (a : Word) : Option NvKind :=
  NvKind.all.find? fun k => inWindow (par.map.nvicBase.toNat + k.offset) a (k.length par.nIrq)

/-- `Decode(a)` (R87), total. -/
def decodeAddr (par : Params) (a : Word) : Target :=
  if a.extractLsb' 0 2 != 0 then .fault .align
  else
    match portWindow par.map a with
    | some (p, b) => portTarget par.map p b (a.toNat - (apertureBase par.map p b).toNat)
    | none =>
      if a == par.map.rcgcAddr then .sysRcgc
      else if a == par.map.prAddr then .sysReady
      else
        match nvWindow par a with
        | some k => .nv k ((a.toNat - par.map.nvicBase.toNat - k.offset) / 4)
        | none => .fault .unmapped

end Sys2Proof.Machine
end

