-- ==== Sys2Proof/Machine/Ops.lean ====
section
/-! DEFINITION. The named operations on the state that every meaning shares: bit helpers, accessors, free
values, events, completing a command, and raising a fault (R301, R302), the block's one kind of exception. -/

namespace Sys2Proof.Machine

/-! ### Bits -/

/-- `v | bit(i)` (R11). -/
def setBit {w : Nat} (v : BitVec w) (i : Nat) : BitVec w := v ||| (1#w <<< i)

/-- `v & ~bit(i)` (R11). -/
def clearBit {w : Nat} (v : BitVec w) (i : Nat) : BitVec w := v &&& ~~~(1#w <<< i)

/-- `bit(i)` (R11). -/
def bitWord (i : Nat) : Word := 1#32 <<< i

/-- The byte whose bit `o` is `g o`. -/
def byteOf (g : Off → Bool) : Byte :=
  (((((((BitVec.nil.concat (g 7)).concat (g 6)).concat (g 5)).concat (g 4)).concat (g 3)).concat
    (g 2)).concat (g 1)).concat (g 0)

/-- `v` with line `n` added. -/
def addLine (v : LineBits) (n : Nat) : LineBits := v ||| (1 <<< n)

/-- `v` without the lines of `m`. -/
def removeLines (v m : LineBits) : LineBits := v ^^^ (v &&& m)

/-- The lines of `v` below `N_IRQ`. -/
def existingLines (par : Params) (v : LineBits) : LineBits := v % 2 ^ par.nIrq

/-- `zext_32` (R11). -/
def zext {w : Nat} (v : BitVec w) : Word := v.setWidth 32

/-! ### Accessors -/

/-- `R[p]`. -/
def State.port (s : State) (p : Port) : PortRegs := s.regs.get p

/-- `s` with `R[p]` replaced. -/
def State.setPort (s : State) (p : Port) (r : PortRegs) : State := { s with regs := s.regs.set p r }

/-- `RCGC[p]` (R43). -/
def State.gateOn (s : State) (p : Port) : Bool := s.rcgc.getLsbD p.index

/-- `READY[p]` (R44). -/
def State.isReady (s : State) (p : Port) : Bool := s.ready.getLsbD p.index

/-- `LEVEL[p][o]` (R53). -/
def State.levelAt (s : State) (p : Port) (o : Off) : Bool := (s.level.get p).getLsbD o

/-- `PRI[n]` (R49). -/
def State.priAt (s : State) (n : Nat) : Byte := s.pri.getD n 0

/-- `PRI[n]` as a number. -/
def State.priority (s : State) (n : Nat) : Nat := (s.priAt n).toNat

/-- The free byte of this step at a site (R11, log entry 8). -/
def State.draw (s : State) (site : DrawSite) : Byte := Config.freeByte s.tick site

/-! ### Status codes -/

/-- The 4-bit code of a status (R52, R300). -/
def Status.code : Status → BitVec 4
  | .ok => 0x0
  | .illegal => 0x1
  | .align => 0x2
  | .unmapped => 0x3
  | .ahbOff => 0x4
  | .gated => 0x5
  | .notReady => 0x6

/-- The status a code stands for; the codes 0x7 to 0xF are never produced (R300). -/
def Status.ofCode (c : BitVec 4) : Option Status :=
  match c.toNat with
  | 0 => some .ok
  | 1 => some .illegal
  | 2 => some .align
  | 3 => some .unmapped
  | 4 => some .ahbOff
  | 5 => some .gated
  | 6 => some .notReady
  | _ => none

/-- `RESP.status` as the 4 bits the host is given (R52). -/
def Resp.statusBits (r : Resp) : BitVec 4 := r.status.code

/-! ### Events, completion, faults -/

/-- `emit(e)` (R11, R54). -/
def emit (e : Event) (s : State) : State := { s with trace := s.trace ++ [e] }

/-- Completing a command (R51, R52, R182): RESP is written and the sequencer is idle. -/
def complete (data aux : Word) (s : State) : State :=
  { s with seq := .idle, resp := ⟨.ok, 0, data, aux⟩ }

/-- `raise Fault(code, a)` (R301): the command ends, what it did before stays. -/
def raiseFault (code : Status) (a : Word) (s : State) : State :=
  emit (.fault code a) { s with seq := .idle, resp := ⟨code, a, 0, 0⟩ }

/-- An illegal command (R134, R302). -/
def raiseIllegal (w : Word) (s : State) : State :=
  emit (.fault .illegal 0) { s with resp := ⟨.illegal, 0, w, 0⟩ }

/-- The command port accepts a command only when the sequencer is idle (R104); `s'` is the state the
acceptance step leaves. -/
def accept (s s' : State) : Host.Outcome State Fault Refusal :=
  match s.seq with
  | .idle => .next s'
  | .busy _ _ _ => .fault .commandPortBusy

/-! ### The clock gate -/

/-- Sets `RCGC[p]`, and `READY[p]` when the clock is ready at once (R44, R181). -/
def gateSet (p : Port) (s : State) : State :=
  { s with
    rcgc := setBit s.rcgc p.index
    ready := if s.par.clockReady = .immediate then setBit s.ready p.index else s.ready }

/-- Clears `RCGC[p]` and `READY[p]` (R44, R181). -/
def gateClear (p : Port) (s : State) : State :=
  { s with rcgc := clearBit s.rcgc p.index, ready := clearBit s.ready p.index }

/-- `RcgcWrite(d)` (R268): bits 31:6 are ignored. -/
def rcgcWrite (d : Word) (s : State) : State :=
  let new : BitVec 6 := d.setWidth 6
  { s with
    rcgc := new
    ready := (s.ready &&& new) |||
      (if s.par.clockReady = .immediate then new &&& ~~~s.rcgc else 0) }

end Sys2Proof.Machine
end

