-- ==== Sys2Proof/Machine/Operands.lean ====
section
/-! DEFINITION. Operand forms: the pin-to-port resolver (40_resolver.md), port-relative addresses (R132), and
what the fields of CFG select (R183, R191). -/

namespace Sys2Proof.Machine

/-- A port from its number, for numbers below 6 (R130). -/
def portOfNumber (k : Nat) : Option Port := Port.all[k]?

/-- The low three bits of a pin number as an offset. -/
def offOfNumber (k : Nat) : Off := ⟨k % 8, Nat.mod_lt _ (by decide)⟩

/-- `DecodePin(id)` (R131): the port and offset of a valid pin identifier. -/
def decodePin (scheme : PinScheme) (id : BitVec 7) : Option (Port × Off) :=
  match scheme with
  | .zero =>
    (portOfNumber (id.toNat / 8)).map fun p => (p, offOfNumber (id.toNat % 8))
  | .legacy10 =>
    if 1 ≤ id.toNat / 10 ∧ id.toNat % 10 ≤ 7 then
      (portOfNumber (id.toNat / 10 - 1)).map fun p => (p, offOfNumber (id.toNat % 10))
    else none

/-- `Encode(p, o)` (R167): the identifier of a pin. -/
def encodePin (scheme : PinScheme) (p : Port) (o : Off) : BitVec 7 :=
  match scheme with
  | .zero => BitVec.ofNat 7 (8 * p.index + o)
  | .legacy10 => BitVec.ofNat 7 (10 * (p.index + 1) + o)

/-- What the resolver answers (R160, R164). -/
structure Resolved where
  valid  : Bool
  port   : Port
  off    : Off
  handle : Word
  deriving DecidableEq, Repr

/-- `ResolvePin(id, bus)` (R164): an invalid identifier resolves to port A, offset 0. -/
def resolvePin (par : Params) (id : BitVec 7) (bus : Bus) : Resolved :=
  match decodePin par.pinScheme id with
  | some (p, o) => ⟨true, p, o, apertureBase par.map p bus⟩
  | none => ⟨false, .A, 0, apertureBase par.map .A bus⟩

/-- `ResolvePort(q, bus)` (R164): an invalid port field resolves to port A; a port has offset 0 (R165). -/
def resolvePort (par : Params) (q : BitVec 3) (bus : Bus) : Resolved :=
  match portOfNumber q.toNat with
  | some p => ⟨true, p, 0, apertureBase par.map p bus⟩
  | none => ⟨false, .A, 0, apertureBase par.map .A bus⟩

/-- The selector of RESOLVE (R126, R165). -/
def resolveSelector (par : Params) (kind : SelKind) (sel : BitVec 7) (bus : Bus) : Resolved :=
  match kind with
  | .pin => resolvePin par sel bus
  | .port => resolvePort par (sel.setWidth 3) bus

/-- RESOLVE's `aux` (R165): bit 7 valid, bit 6 bus, bits 5:3 port, bits 2:0 offset. -/
def resolveAux (bus : Bus) (r : Resolved) : Word :=
  BitVec.ofNat 32 (r.valid.toNat * 2 ^ 7 + bus.code * 2 ^ 6 + r.port.index * 2 ^ 3 + r.off.val)

/-- The address of a port-relative access (R132, R251, R252). -/
def portRelative (par : Params) (port : BitVec 3) (off : BitVec 12) (bus : Bus) : Word :=
  (resolvePort par port bus).handle + zext off

/-- `DRV(drive)` (R183). -/
def driveReg : Drive → Reg
  | .ma2 => .dr2r | .ma4 => .dr4r | .ma8 => .dr8r

/-- The pull register of step 5, none for `pull = 0` (R183, R188). -/
def pullReg : Pull → Option Reg
  | .none => none | .up => some .pur | .down => some .pdr | .openDrain => some .odr

/-- The register of step 6 (R183, R189). -/
def sigReg : Sig → Reg
  | .digital => .den | .analog => .amsel

/-- What step 7 programs for a trigger: IS, IBE, IEV (none: not written), and whether step 7c writes ICR. -/
structure TrigSetting where
  is  : Bool
  ibe : Bool
  iev : Option Bool
  icr : Bool
  deriving DecidableEq, Repr

/-- `TrigBits(trig)` (R191); none for trigger "none", for which step 7 is skipped. -/
def trigBits : Trig → Option TrigSetting
  | .none => none
  | .rising => some ⟨false, false, some true, true⟩
  | .falling => some ⟨false, false, some false, true⟩
  | .both => some ⟨false, true, none, true⟩
  | .high => some ⟨true, false, some true, false⟩
  | .low => some ⟨true, false, some false, false⟩

end Sys2Proof.Machine
end

