-- ==== Sys2Proof/Machine/Flags.lean ====
section
/-! DEFINITION. The status flags (R55) and how they are computed: MIS (R31), the pad constraints and the
detector input (R310, R311), edge and level detection (R312, R313), the interrupt lines and the pending
latch (R305 to R307), and the arbiter (R317, R318). -/

namespace Sys2Proof.Machine

/-- MIS, a view of RIS and IM (R31). -/
def PortRegs.mis (r : PortRegs) : Byte := r.ris &&& r.im

/-- The pad level of one pin at a step boundary (R310): a push-pull output shows its latch, an open-drain
output driving 0 is 0, every other pin keeps the level the environment gave it. -/
def padBit (present dir den afsel odr data level : Bool) : Bool :=
  if present && dir && den && !afsel then
    if odr then (if data then level else false) else data
  else level

/-- The pad levels of a port (R310). -/
def padLevel (present : Byte) (r : PortRegs) (level : Byte) : Byte :=
  byteOf fun o => padBit (present.getLsbD o) (r.dir.getLsbD o) (r.den.getLsbD o) (r.afsel.getLsbD o)
    (r.odr.getLsbD o) (r.data.getLsbD o) (level.getLsbD o)

/-- The detector input of a port (R311): the level of a present, digitally enabled pin, else a free bit. -/
def detectorInput (present den level noise : Byte) : Byte :=
  byteOf fun o =>
    if den.getLsbD o && present.getLsbD o then level.getLsbD o else noise.getLsbD o

/-- RIS of one pin after a sample (R312, R313): `s` the previous sample, `d` the new one. -/
def detectBit (is ibe iev ris s d : Bool) : Bool :=
  if is then d == iev
  else
    let rise := !s && d
    let fall := s && !d
    ris || (if ibe then rise || fall else if iev then rise else fall)

/-- RIS of a port after a sample (R312, R313). -/
def detect (r : PortRegs) (s d : Byte) : Byte :=
  byteOf fun o => detectBit (r.is.getLsbD o) (r.ibe.getLsbD o) (r.iev.getLsbD o) (r.ris.getLsbD o)
    (s.getLsbD o) (d.getLsbD o)

/-- The lines the ports drive (R305, R306). -/
def portLineMask (par : Params) : LineBits :=
  Port.all.foldl (fun m p => addLine m (par.irqLine.get p)) 0

/-- The port lines that are asserted: those of a port with MIS not zero (R305). DESIGN CHOICE: R9 lets two ports
have the same `IRQ_LINE`, and R305 gives one equation for each port; a shared line is asserted when any of its
ports asserts it (log entry 25). -/
def portLinesAsserted (s : State) : LineBits :=
  Port.all.foldl (fun m p => if (s.port p).mis != 0 then addLine m (s.par.irqLine.get p) else m) 0

/-- The level of every line: the ports' own, and the external lines for the rest (R305, R306). -/
def lineLevels (s : State) : LineBits :=
  existingLines s.par (portLinesAsserted s ||| removeLines s.xline (portLineMask s.par))

/-- `RP`, the running priority (R317), from the priorities the active lines have now. DESIGN CHOICE: R317 is taken
at its word also where a priority write (R271) changes an active line's priority after its acknowledgement. The
model neither keeps the priority a line was acknowledged at nor limits the active stack, so R319's bound of
`2^PRIO_BITS` levels holds only while no active line's priority is written (log entry 24). -/
def runningPriority (s : State) : Nat :=
  (List.range s.par.nIrq).foldl
    (fun m n => if s.act.testBit n then min m (s.priority n) else m) (2 ^ s.par.prioBits)

/-- Line `n` is deliverable (R317). -/
def deliverable (s : State) (n : Nat) : Bool :=
  s.en.testBit n && s.pend.testBit n && decide (s.priority n < runningPriority s)

/-- The arbiter (R318): the smallest priority value, then the smallest line number. -/
def arbiter (s : State) : Option Nat :=
  (List.range (runningPriority s)).findSome? fun k =>
    (List.range s.par.nIrq).find? fun n => s.en.testBit n && s.pend.testBit n && s.priority n == k

/-- The core's vector slot of a line (R322). -/
def vectorSlot (n : Nat) : Nat := 16 + n

/-- The slot name of a port's line (R322). -/
def slotName : Port → String
  | .A => "GPIOA" | .B => "GPIOB" | .C => "GPIOC" | .D => "GPIOD" | .E => "GPIOE" | .F => "GPIOF"

/-- The ports that wait for their clock: gate on, not ready (R44). -/
def clockWaiting (s : State) : BitVec 6 := s.rcgc &&& ~~~s.ready

/-- The drive tier of a pin (R35, R267): none where not exactly one of the three bits is set, since the drive
strength of such a pin is unspecified (U4, U5). -/
def driveTier (r : PortRegs) (o : Off) : Option Drive :=
  match r.dr2r.getLsbD o, r.dr4r.getLsbD o, r.dr8r.getLsbD o with
  | true, false, false => some .ma2
  | false, true, false => some .ma4
  | false, false, true => some .ma8
  | _, _, _ => none

end Sys2Proof.Machine
end

