-- ==== Sys2Proof/Machine/Bus.lean ====
section
/-! DEFINITION. The register bus: the access check of a port window, the read and write function of every
register (R255 to R266), the system-control and interrupt-controller words (R268 to R271), and the bus read
and write every register-access command uses (R253, R254). -/

namespace Sys2Proof.Machine

/-- `Check(p, b, a)` (R255): the fault an access to port `p` through aperture `b` meets, none when it may
go on. -/
def accessFault (p : Port) (b : Bus) (s : State) : Option Status :=
  if b = .ahb ∧ s.par.ahbEnabled.get p = false then some .ahbOff
  else if s.gateOn p = false then some .gated
  else if s.isReady p = false then some .notReady
  else none

/-- `DataBit(p, i)` (R257); `noise` is the free bit of an alternate-function pin. -/
def dataBit (r : PortRegs) (level noise : Byte) (i : Off) : Bool :=
  if r.den.getLsbD i then
    if r.afsel.getLsbD i then noise.getLsbD i
    else if r.dir.getLsbD i then r.data.getLsbD i
    else level.getLsbD i
  else false

/-- `DataRead(p, m)` (R257). -/
def dataRead (p : Port) (m : Byte) (s : State) : Byte :=
  byteOf fun i => m.getLsbD i && dataBit (s.port p) (s.level.get p) (s.draw .dataRead) i

/-- The masked write of the output latch (R256, R257). -/
def dataWrite (p : Port) (m : Byte) (v : Word) (s : State) : State :=
  let r := s.port p
  s.setPort p { r with data := (r.data &&& ~~~m) ||| (v.setWidth 8 &&& m) }

/-- `RegRead(p, X)` of a register other than DATA (R255). -/
def readReg (r : PortRegs) : Reg → Word
  | .dir => zext r.dir
  | .is => zext r.is
  | .ibe => zext r.ibe
  | .iev => zext r.iev
  | .im => zext r.im
  | .ris => zext r.ris
  | .mis => zext r.mis
  | .icr => 0
  | .afsel => zext r.afsel
  | .dr2r => zext r.dr2r
  | .dr4r => zext r.dr4r
  | .dr8r => zext r.dr8r
  | .odr => zext r.odr
  | .pur => zext r.pur
  | .pdr => zext r.pdr
  | .slr => zext r.slr
  | .den => zext r.den
  | .lock => zext (BitVec.ofBool r.locked)
  | .cr => zext r.cr
  | .amsel => zext r.amsel
  | .pctl => r.pctl
  | .adcctl => zext r.adcctl
  | .dmactl => zext r.dmactl

/-- `CM(p)`, the commit mask (R262). -/
def commitMask : Profile → PortRegs → Byte
  | .tm4c123, r => r.cr
  | .neutral, _ => 0xFF

/-- `old` with the bits of `mask` taken from `v`. -/
def merge (mask old v : Byte) : Byte := (old &&& ~~~mask) ||| (v &&& mask)

/-- The bits a write clears in the sibling registers: those of `v` under `TM4C123`, none under `NEUTRAL`
(R260, R261). -/
def siblingClear : Profile → Byte → Byte
  | .tm4c123, v => v
  | .neutral, _ => 0

/-- The unlock key (R263). -/
def unlockKey : Word := 0x4C4F434B

/-- `LockWrite` (R263). -/
def lockWrite : Profile → Word → Bool → Bool
  | .neutral, _, locked => locked
  | .tm4c123, v, _ => v != unlockKey

/-- `Spurious(p, changed)` (R265): a changed sense bit may set the pin's status; `noise` is the draw. -/
def spurious (changed noise ris : Byte) : Byte := ris ||| (changed &&& noise)

/-- `RegWrite(p, X, v)` of a register other than DATA (R256), on one port's registers; `noise` is the free
byte of R265. -/
def writeReg (prof : Profile) (noise : Byte) (x : Reg) (v : Word) (r : PortRegs) : PortRegs :=
  let v8 : Byte := v.setWidth 8
  let cm := commitMask prof r
  match x with
  | .dir => { r with dir := v8 }
  | .im => { r with im := v8 }
  | .odr => { r with odr := v8 }
  | .slr => { r with slr := v8 }
  | .amsel => { r with amsel := v8 }
  | .adcctl => { r with adcctl := v8 }
  | .dmactl => { r with dmactl := v8 }
  | .is => { r with is := v8, ris := spurious (r.is ^^^ v8) noise r.ris }
  | .ibe => { r with ibe := v8, ris := spurious (r.ibe ^^^ v8) noise r.ris }
  | .iev => { r with iev := v8, ris := spurious (r.iev ^^^ v8) noise r.ris }
  | .afsel => { r with afsel := merge cm r.afsel v8 }
  | .den => { r with den := merge cm r.den v8 }
  | .pur => { r with pur := merge cm r.pur v8, pdr := r.pdr &&& ~~~siblingClear prof (v8 &&& cm) }
  | .pdr => { r with pdr := merge cm r.pdr v8, pur := r.pur &&& ~~~siblingClear prof (v8 &&& cm) }
  | .dr2r =>
    { r with
      dr2r := v8
      dr4r := r.dr4r &&& ~~~siblingClear prof v8
      dr8r := r.dr8r &&& ~~~siblingClear prof v8 }
  | .dr4r =>
    { r with
      dr4r := v8
      dr2r := r.dr2r &&& ~~~siblingClear prof v8
      dr8r := r.dr8r &&& ~~~siblingClear prof v8 }
  | .dr8r =>
    { r with
      dr8r := v8
      dr2r := r.dr2r &&& ~~~siblingClear prof v8
      dr4r := r.dr4r &&& ~~~siblingClear prof v8 }
  | .icr => { r with ris := r.ris &&& ~~~v8 }
  | .ris => r
  | .mis => r
  | .lock => { r with locked := lockWrite prof v r.locked }
  | .cr =>
    match prof, r.locked with
    | .tm4c123, true => r
    | _, _ => { r with cr := v8 }
  | .pctl => { r with pctl := v }

/-- `RegRead(p, X)` (R255). -/
def regRead (p : Port) (x : Reg) (s : State) : Word := readReg (s.port p) x

/-- `RegWrite(p, X, v)` (R256). -/
def regWrite (p : Port) (x : Reg) (v : Word) (s : State) : State :=
  s.setPort p (writeReg s.par.profile (s.draw .spurious) x v (s.port p))

/-! ### Interrupt-controller words -/

/-- Word `k` of a set of line bits (R269). -/
def lineWord (v : LineBits) (k : Nat) : Word := BitVec.ofNat 32 (v >>> (32 * k))

/-- The lines word `k` with value `d` names (R270). -/
def lineMask (par : Params) (k : Nat) (d : Word) : LineBits := existingLines par (d.toNat <<< (32 * k))

/-- One byte of a priority word: the priority in the top `PRIO_BITS` bits (R269, R271). -/
def priByte (par : Params) (v : Byte) : Word := zext (v <<< (8 - par.prioBits))

/-- The priority in byte `c` of a word written: the top `PRIO_BITS` bits of the byte (R271). -/
def priOfByte (par : Params) (d : Word) (c : Nat) : Byte := d.extractLsb' (8 * c) 8 >>> (8 - par.prioBits)

/-- The priorities after a write of `d` to priority word `k` (R271). -/
def priWrite (k : Nat) (d : Word) (s : State) : List Byte :=
  (List.range s.par.nIrq).map fun n => if n / 4 = k then priOfByte s.par d (n % 4) else s.priAt n

/-- `NvRead(kind, k)` (R269). -/
def nvRead (kind : NvKind) (k : Nat) (s : State) : Word :=
  match kind with
  | .setEna => lineWord s.en k
  | .clrEna => lineWord s.en k
  | .setPend => lineWord s.pend k
  | .clrPend => lineWord s.pend k
  | .active => lineWord s.act k
  | .pri =>
    priByte s.par (s.priAt (4 * k)) ||| (priByte s.par (s.priAt (4 * k + 1)) <<< 8)
      ||| (priByte s.par (s.priAt (4 * k + 2)) <<< 16) ||| (priByte s.par (s.priAt (4 * k + 3)) <<< 24)

/-- `NvWrite(kind, k, d)` (R270, R271). -/
def nvWrite (kind : NvKind) (k : Nat) (d : Word) (s : State) : State :=
  match kind with
  | .setEna => { s with en := s.en ||| lineMask s.par k d }
  | .clrEna => { s with en := removeLines s.en (lineMask s.par k d) }
  | .setPend => { s with pend := s.pend ||| lineMask s.par k d }
  | .clrPend => { s with pend := removeLines s.pend (lineMask s.par k d) }
  | .active => s
  | .pri => { s with pri := priWrite k d s }

/-! ### The bus read and write -/

/-- The value `MemRead` gives for a decoded address, or the fault it raises (R253). -/
def busRead (t : Target) (s : State) : Except Status Word :=
  match t with
  | .fault c => .error c
  | .data p b m =>
    match accessFault p b s with
    | some c => .error c
    | none => .ok (zext (dataRead p m s))
  | .reg p b x =>
    match accessFault p b s with
    | some c => .error c
    | none => .ok (regRead p x s)
  | .sysRcgc => .ok (zext s.rcgc)
  | .sysReady => .ok (zext s.ready)
  | .nv kind k => .ok (nvRead kind k s)

/-- The state `MemWrite` leaves for a decoded address, before its event, or the fault it raises (R254). -/
def busWrite (t : Target) (d : Word) (s : State) : Except Status State :=
  match t with
  | .fault c => .error c
  | .data p b m =>
    match accessFault p b s with
    | some c => .error c
    | none => .ok (dataWrite p m d s)
  | .reg p b x =>
    match accessFault p b s with
    | some c => .error c
    | none => .ok (regWrite p x d s)
  | .sysRcgc => .ok (rcgcWrite d s)
  | .sysReady => .ok s
  | .nv kind k => .ok (nvWrite kind k d s)

/-- A read command (R251, R253): the value goes to RESP, or the fault is raised. -/
def readCommand (a : Word) (s : State) : State :=
  match busRead (decodeAddr s.par a) s with
  | .ok v => complete v 0 (emit (.read a v) s)
  | .error c => raiseFault c a s

/-- A write command (R252, R254): the write takes effect, or the fault is raised. -/
def writeCommand (a d : Word) (s : State) : State :=
  match busWrite (decodeAddr s.par a) d s with
  | .ok s' => complete 0 0 (emit (.write a d) s')
  | .error c => raiseFault c a s

end Sys2Proof.Machine
end

