-- ==== Sys2Proof/Machine/Engine.lean ====
section
/-! DEFINITION. The sequencer (41_config_engine.md): the micro-operations, the list each engine command
expands to, loading the sequencer, and one sequencer step. -/

namespace Sys2Proof.Machine

/-- What a micro-operation does: it takes effect, holds the sequencer, or raises a fault. -/
inductive OpResult where
  | done (s : State)
  | hold
  | fault (code : Status) (a : Word)
  deriving DecidableEq, Repr

/-- A register micro-operation: the access check, then the write of `v` to register `x` (R181). -/
def opWrite (p : Port) (b : Bus) (x : Reg) (v : Word) (s : State) : OpResult :=
  match accessFault p b s with
  | some c => .fault c (regAddr s.par.map p b x)
  | none => .done (emit (.write (regAddr s.par.map p b x) v) (regWrite p x v s))

/-- The value `NIB` writes to PCTL (R181). -/
def nibValue (v : Word) (o : Off) (c : BitVec 4) : Word :=
  (v &&& ~~~(0xF#32 <<< (4 * o.val))) ||| (zext c <<< (4 * o.val))

/-- The SETENA word of line `n` (R181). -/
def setEnaAddr (m : AddressMap) (n : Nat) : Word := nvAddr m .setEna (n / 32)

/-- One micro-operation (R181). -/
def runOp (op : MicroOp) (s : State) : OpResult :=
  match op with
  | .clkSet p =>
    let s' := gateSet p s
    .done (emit (.write s.par.map.rcgcAddr (zext s'.rcgc)) s')
  | .clkClr p =>
    let s' := gateClear p s
    .done (emit (.write s.par.map.rcgcAddr (zext s'.rcgc)) s')
  | .waitRdy p => if s.isReady p then .done s else .hold
  | .bset p b x o => opWrite p b x (regRead p x s ||| bitWord o) s
  | .bclr p b x o => opWrite p b x (regRead p x s &&& ~~~bitWord o) s
  | .nib p b o c => opWrite p b .pctl (nibValue (regRead p .pctl s) o c) s
  | .w1c p b o => opWrite p b .icr (bitWord o) s
  | .armSet p o => .done { s with armt := s.armt.set p (some o) }
  | .armClr p => .done { s with armt := s.armt.set p none }
  | .irqEn n =>
    .done (emit (.write (setEnaAddr s.par.map n) (bitWord (n % 32))) { s with en := addLine s.en n })

/-- Sets or clears a pin's bit of a register. -/
def bitOp (v : Bool) (p : Port) (b : Bus) (x : Reg) (o : Off) : MicroOp :=
  if v then .bset p b x o else .bclr p b x o

/-- Step 7, the masked reconfiguration sequence (R183, R190). -/
def trigOps (p : Port) (b : Bus) (o : Off) (trig : Trig) : List MicroOp :=
  match trigBits trig with
  | none => []
  | some t =>
    [.bclr p b .im o, bitOp t.is p b .is o, bitOp t.ibe p b .ibe o]
      ++ (match t.iev with | some v => [bitOp v p b .iev o] | none => [])
      ++ (if t.icr then [.w1c p b o] else [])
      ++ [.bset p b .im o]

/-- `ExpandCFG` for a resolved pin (R183). -/
def cfgOps (p : Port) (o : Off) (dir : Dir) (afen : Bool) (afcode : BitVec 4) (pull : Pull)
    (drive : Drive) (sig : Sig) (trig : Trig) (b : Bus) : List MicroOp :=
  [.clkSet p, .waitRdy p, bitOp (dir == .output) p b .dir o]
    ++ (if afen then [.bset p b .afsel o, .nib p b o afcode] else [])
    ++ [.bset p b (driveReg drive) o]
    ++ (match pullReg pull with | some x => [.bset p b x o] | none => [])
    ++ [.bset p b (sigReg sig) o]
    ++ trigOps p b o trig

/-- The list of ARM for a resolved pin (R222). -/
def armOps (par : Params) (p : Port) (o : Off) (trig : Trig) (b : Bus) : List MicroOp :=
  cfgOps p o .input false 0 .up .ma8 .digital trig b ++ [.armSet p o, .irqEn (par.irqLine.get p)]

/-- `Expand(cmd)` (R182): the list of an engine command, empty for a command that executes in one step. -/
def expand (par : Params) : Instr → List MicroOp
  | .cfg pin dir afen afcode pull drive sig trig bus =>
    let r := resolvePin par pin bus
    cfgOps r.port r.off dir afen afcode pull drive sig trig bus
  | .arm pin trig bus =>
    let r := resolvePin par pin bus
    if r.valid then armOps par r.port r.off trig bus else []
  | .deinit port =>
    let r := resolvePort par port .apb
    if r.valid then [.armClr r.port, .clkClr r.port] else []
  | .clken port => [.clkSet (resolvePort par port .apb).port]
  | .clkdis port => [.clkClr (resolvePort par port .apb).port]
  | .nop | .resolve _ _ _ | .rdarm _ | .rdr _ _ _ | .wrr _ _ _ _ | .rda _ | .wra _ _ => []

/-- `RESP.aux` at the completion of an engine command (R182): the valid bit for ARM and DEINIT. -/
def completionAux (par : Params) : Instr → Word
  | .arm pin _ bus => zext (BitVec.ofBool (resolvePin par pin bus).valid)
  | .deinit port => zext (BitVec.ofBool (resolvePort par port .apb).valid)
  | .cfg _ _ _ _ _ _ _ _ _ | .clken _ | .clkdis _ => 0
  | .nop | .resolve _ _ _ | .rdarm _ | .rdr _ _ _ | .wrr _ _ _ _ | .rda _ | .wra _ _ => 0

/-- Accepting an engine command (R182): the sequencer is loaded, or an empty list completes at once. -/
def loadCommand (cmd : Instr) (s : State) : State :=
  match expand s.par cmd with
  | [] => complete 0 (completionAux s.par cmd) s
  | op :: ops => { s with seq := .busy cmd (op :: ops) 0 }

/-- After micro-operation `i` took effect: the next one, or the command's completion (R51, R182). -/
def advance (cmd : Instr) (ops : List MicroOp) (i : Nat) (s : State) : State :=
  if i + 1 < ops.length then { s with seq := .busy cmd ops (i + 1) }
  else complete 0 (completionAux s.par cmd) s

/-- One step of the sequencer (R51): `ops[i]` is performed, or holds, or ends the command with a fault. -/
def sequencerStep (s : State) : State :=
  match s.seq with
  | .idle => s
  | .busy cmd ops i =>
    match ops[i]? with
    | none => complete 0 (completionAux s.par cmd) s
    | some op =>
      match runOp op s with
      | .done s' => advance cmd ops i s'
      | .hold => s
      | .fault c a => raiseFault c a s

end Sys2Proof.Machine
end

