-- ==== Sys2Proof/Machine/Interrupts.lean ====
section
/-! DEFINITION. What ends every step (R99, R315): the pad constraints, sampling and detection, the pending
update; and the core's acknowledge and end of interrupt (R320, R321). -/

namespace Sys2Proof.Machine

/-- The pad constraints of R310 at the step boundary. -/
def settle (s : State) : State :=
  { s with level := .ofFn fun p => padLevel (s.par.pinPresent.get p) (s.port p) (s.level.get p) }

/-- The detector input of port `p` (R311). -/
def portInput (s : State) (p : Port) : Byte :=
  detectorInput (s.par.pinPresent.get p) (s.port p).den (s.level.get p) (s.draw (.sample p))

/-- Sampling and detection of every ready port; an unready port keeps RIS and `S[p]` (R311, R340). -/
def sample (s : State) : State :=
  { s with
    regs := .ofFn fun p =>
      if s.isReady p then
        { s.port p with ris := detect (s.port p) (s.sampled.get p) (portInput s p) }
      else s.port p
    sampled := .ofFn fun p => if s.isReady p then portInput s p else s.sampled.get p }

/-- The pending update (R307): an asserted line that is not active becomes pending. -/
def pendUpdate (s : State) : State := { s with pend := s.pend ||| removeLines (lineLevels s) s.act }

/-- The end of a step (R99, R315, R324), in the order the spec gives. -/
def endOfStep (s : State) : State := pendUpdate (sample (settle s))

/-- ACK (R320): the arbiter's line becomes active; nothing when the sequencer is busy or no line is
deliverable. -/
def acknowledge (s : State) : State :=
  match s.seq with
  | .busy _ _ _ => s
  | .idle =>
    match arbiter s with
    | none => s
    | some n =>
      emit (.ack n)
        { s with pend := removeLines s.pend (addLine 0 n), act := addLine s.act n, stack := n :: s.stack }

/-- EOI (R321): the most recently acknowledged line stops being active; nothing when the sequencer is busy
or no line is active. -/
def endOfInterrupt (s : State) : State :=
  match s.seq with
  | .busy _ _ _ => s
  | .idle =>
    match s.stack with
    | [] => s
    | n :: rest => emit (.eoi n) { s with act := removeLines s.act (addLine 0 n), stack := rest }

/-- The clock-ready agent for port `p` (R15, R44): `READY[p]` is set if the clock gate is. -/
def clockBecomesReady (p : Port) (s : State) : State :=
  if s.gateOn p then { s with ready := setBit s.ready p.index } else s

/-- The block's reset (R360): every piece of the block's state takes its reset value; the parameters, the
inputs and the count of steps are not the block's and stay. -/
def resetBlock (s : State) : State :=
  { State.resetWith s.par with
    stream := s.stream, turns := s.turns, level := s.level, xline := s.xline, tick := s.tick }

end Sys2Proof.Machine
end

