-- ==== Sys2Proof/Machine/Access.lean ====
section
/-! DEFINITION. The commands that reach the register bus directly (43_register_access.md): NOP, RDR, WRR,
RDA, WRA. Each executes entirely in the step that accepts it (R250). -/

namespace Sys2Proof.Machine

/-- NOP (R250). -/
def execNop (s : State) : Host.Outcome State Fault Refusal := accept s (complete 0 0 s)

/-- RDR (R251). -/
def execRdr (port : BitVec 3) (off : BitVec 12) (bus : Bus) (s : State) :
    Host.Outcome State Fault Refusal :=
  accept s (readCommand (portRelative s.par port off bus) s)

/-- WRR (R252). -/
def execWrr (port : BitVec 3) (off : BitVec 12) (bus : Bus) (data : Word) (s : State) :
    Host.Outcome State Fault Refusal :=
  accept s (writeCommand (portRelative s.par port off bus) data s)

/-- RDA (R253). -/
def execRda (addr : Word) (s : State) : Host.Outcome State Fault Refusal :=
  accept s (readCommand addr s)

/-- WRA (R254). -/
def execWra (addr data : Word) (s : State) : Host.Outcome State Fault Refusal :=
  accept s (writeCommand addr data s)

end Sys2Proof.Machine
end

