-- ==== Sys2Proof/Machine/Configuration.lean ====
section
/-! DEFINITION. The configuration engine's commands (41_config_engine.md): CFG, CLKEN, CLKDIS. Accepting one
loads the sequencer; its micro-operations are later steps (R182). -/

namespace Sys2Proof.Machine

/-- CFG (R183). -/
def execCfg (pin : BitVec 7) (dir : Dir) (afen : Bool) (afcode : BitVec 4) (pull : Pull) (drive : Drive)
    (sig : Sig) (trig : Trig) (bus : Bus) (s : State) : Host.Outcome State Fault Refusal :=
  accept s (loadCommand (.cfg pin dir afen afcode pull drive sig trig bus) s)

/-- CLKEN (R199). -/
def execClken (port : BitVec 3) (s : State) : Host.Outcome State Fault Refusal :=
  accept s (loadCommand (.clken port) s)

/-- CLKDIS (R200). -/
def execClkdis (port : BitVec 3) (s : State) : Host.Outcome State Fault Refusal :=
  accept s (loadCommand (.clkdis port) s)

end Sys2Proof.Machine
end

