-- ==== Sys2Proof/Machine/Resolver.lean ====
section
/-! DEFINITION. The resolver's command (40_resolver.md): RESOLVE. -/

namespace Sys2Proof.Machine

/-- RESOLVE (R165): the handle in `data`, the valid bit, bus, port and offset in `aux`. -/
def execResolve (sel : BitVec 7) (bus : Bus) (kind : SelKind) (s : State) :
    Host.Outcome State Fault Refusal :=
  let r := resolveSelector s.par kind sel bus
  accept s (complete r.handle (resolveAux bus r) s)

end Sys2Proof.Machine
end

