-- ==== Sys2Proof/Machine/Routing.lean ====
section
/-! DEFINITION. The interrupt-routing commands (42_interrupt_routing.md): ARM, DEINIT, RDARM. -/

namespace Sys2Proof.Machine

/-- ARM (R221, R222); an invalid pin completes at once with `aux = 0` (R225). -/
def execArm (pin : BitVec 7) (trig : Trig) (bus : Bus) (s : State) : Host.Outcome State Fault Refusal :=
  accept s (loadCommand (.arm pin trig bus) s)

/-- DEINIT (R226); an invalid port completes at once with `aux = 0`. -/
def execDeinit (port : BitVec 3) (s : State) : Host.Outcome State Fault Refusal :=
  accept s (loadCommand (.deinit port) s)

/-- The slot RDARM reads (R229): bit 3 armed, bits 2:0 the offset; 0 for "none" and for an invalid port. -/
def armedSlot (r : Resolved) (s : State) : Word :=
  match r.valid, s.armt.get r.port with
  | true, some o => 0x8 ||| BitVec.ofNat 32 o.val
  | true, none => 0
  | false, _ => 0

/-- RDARM (R229). -/
def execRdarm (port : BitVec 3) (s : State) : Host.Outcome State Fault Refusal :=
  let r := resolvePort s.par port .apb
  accept s (complete (armedSlot r s) (zext (BitVec.ofBool r.valid)) s)

end Sys2Proof.Machine
end

