-- ==== Sys2Proof/Machine/Dispatch.lean ====
section
/-! DEFINITION. What the command port does with a legal command: one arm for each constructor of Instr. -/

namespace Sys2Proof.Machine

def exec (i : Instr) (s : State) : Host.Outcome State Fault Refusal :=
  match i with
  | .nop => Sys2Proof.Machine.execNop s
  | .cfg pin dir afen afcode pull drive sig trig bus => Sys2Proof.Machine.execCfg pin dir afen afcode pull drive sig trig bus s
  | .arm pin trig bus => Sys2Proof.Machine.execArm pin trig bus s
  | .deinit port => Sys2Proof.Machine.execDeinit port s
  | .resolve sel bus kind => Sys2Proof.Machine.execResolve sel bus kind s
  | .clken port => Sys2Proof.Machine.execClken port s
  | .clkdis port => Sys2Proof.Machine.execClkdis port s
  | .rdarm port => Sys2Proof.Machine.execRdarm port s
  | .rdr port off bus => Sys2Proof.Machine.execRdr port off bus s
  | .wrr port off bus data => Sys2Proof.Machine.execWrr port off bus data s
  | .rda addr => Sys2Proof.Machine.execRda addr s
  | .wra addr data => Sys2Proof.Machine.execWra addr data s

end Sys2Proof.Machine
end

