-- ==== Sys2Proof/Machine/Agents.lean ====
section
/-! DEFINITION. One step of each agent (R15): the command port's fetch and acceptance, the sequencer, the pin
environment, the clock-ready agent, the core, and the outside world's supply of words and reset. -/

namespace Sys2Proof.Machine

/-- What ends the step of an agent: the end-of-step updates, when the agent's effect is a next state. -/
def finish (o : Host.Outcome State Fault Refusal) : Host.Outcome State Fault Refusal :=
  match o with
  | .next s => .next (endOfStep s)
  | .fault r => .fault r
  | .refused r => .refused r

/-- The command port's step, before the end of the step: nothing while the sequencer is busy (R104) or a
word is missing (R140); an illegal word is reported (R302); a legal command is accepted and executed. -/
def portStep (s : State) : Host.Outcome State Fault Refusal :=
  match s.seq with
  | .busy _ _ _ => .next s
  | .idle =>
    match decodeStream s.stream with
    | .waiting => .next s
    | .illegal w _ rest => .next (raiseIllegal w { s with stream := rest })
    | .command i rest => exec i { s with stream := rest }

/-- One agent's step (R15, R315). A turn whose agent is not enabled changes nothing of its own. -/
def runTurn (t : Turn) (s : State) : Host.Outcome State Fault Refusal :=
  match t with
  | .port => finish (portStep s)
  | .sequencer => finish (.next (sequencerStep s))
  | .environment level xline => finish (.next { s with level := level, xline := xline })
  | .clockReady p => finish (.next (clockBecomesReady p s))
  | .ack => finish (.next (acknowledge s))
  | .eoi => finish (.next (endOfInterrupt s))
  | .host words => finish (.next { s with stream := s.stream ++ words })
  | .reset => .next (resetBlock s)

/-- Whose turn it is when `turns` names none: a port that has waited for its clock becomes ready (weak
fairness, R304); otherwise the sequencer goes on, or the command port accepts (log entry 2). -/
def defaultTurn (s : State) : Turn :=
  match Port.all.find? fun p => (s.waited &&& clockWaiting s).getLsbD p.index with
  | some p => .clockReady p
  | none =>
    match s.seq with
    | .busy _ _ _ => .sequencer
    | .idle => .port

/-- The next turn. -/
def nextTurn (s : State) : Turn :=
  match s.turns with
  | [] => defaultTurn s
  | t :: _ => t

/-- The state the next turn starts from: the turn is taken, the step is counted, and the ports that wait for
their clock are noted. -/
def beginStep (s : State) : State :=
  { s with turns := s.turns.tail, tick := s.tick + 1, waited := clockWaiting s }

/-- Places the instruction whose bits are `w` at the head of the command stream and gives the command port
the next turn (log entry 19). -/
def placeCommand (nbits w : Nat) (s : State) : State :=
  { s with seq := .idle, stream := commandWords nbits w ++ s.stream, turns := .port :: s.turns }

end Sys2Proof.Machine
end

