-- ==== Sys2Proof/Machine/Step.lean ====
section
/-! DEFINITION. One step of the machine: the next turn's agent takes its step. -/

namespace Sys2Proof.Machine

/-- One step (R15): total, and deterministic given the turns the state holds. -/
def step (s : State) : Host.Outcome State Fault Refusal := runTurn (nextTurn s) (beginStep s)

/-- `s` with the instruction whose bits are `w` as the next one the command port accepts. -/
def State.withFetchWord (s : State) (nbits w : Nat) : State := placeCommand nbits w s

end Sys2Proof.Machine
end

