-- ==== Sys2Proof/Safety.lean ====
section
/-! DEFINITION. What counts as a safe state of the block, and the terms the statements are written in: the
legality of word 0 as R139 lists it, the invariants of the state, runs of the sequencer, and what a CFG
leaves in its port's registers. -/

namespace Sys2Proof

open Machine

/-- `Legal(w)`, case by case as R139 gives it. -/
def legalWord (w : Word) : Bool :=
  match field w 28 4 with
  | 0x0 => field w 0 28 == 0
  | 0x1 =>
    field w 0 6 == 0 && field w 11 2 != 3 && decide (field w 7 3 ≤ 5)
      && (field w 19 1 == 1 || field w 15 4 == 0)
  | 0x2 => field w 10 11 == 0 && field w 0 6 == 0 && decide (field w 7 3 ≤ 5)
  | 0x3 | 0x5 | 0x6 | 0x7 => field w 24 4 == 0 && field w 0 21 == 0
  | 0x4 => field w 7 14 == 0 && field w 0 5 == 0 && (field w 5 1 == 0 || field w 24 4 == 0)
  | 0x8 | 0x9 => field w 24 4 == 0 && field w 20 1 == 0 && field w 7 1 == 0 && field w 0 6 == 0
  | 0xA | 0xB => field w 0 28 == 0
  | _ => false

/-! ### Parameters -/

/-- The value ranges of R9: `N_IRQ` a multiple of 32, `PRIO_BITS` from 1 to 8, every `IRQ_LINE` below
`N_IRQ`. -/
structure ParamsInRange (par : Params) : Prop where
  nIrq : par.nIrq % 32 = 0
  prioBits : 1 ≤ par.prioBits ∧ par.prioBits ≤ 8
  irqLine : ∀ p, par.irqLine.get p < par.nIrq

/-- An address lies in a port's window (R84). -/
def InPortWindow (m : AddressMap) (a : Nat) : Prop :=
  ∃ p b, (apertureBase m p b).toNat ≤ a ∧ a < (apertureBase m p b).toNat + 0x1000

/-- An address lies in an interrupt-controller window (R87, R90). -/
def InNvWindow (par : Params) (a : Nat) : Prop :=
  ∃ kind : NvKind, par.map.nvicBase.toNat + kind.offset ≤ a ∧
    a < par.map.nvicBase.toNat + kind.offset + kind.length par.nIrq

/-- The windows and words of the address map do not overlap, so that each address the build names for a
register reaches it (R84, R86, R89, R90). The spec's default map is sound. -/
structure MapSound (par : Params) : Prop where
  aligned : ∀ p b, (apertureBase par.map p b).toNat % 0x1000 = 0
  distinct : ∀ p b p' b', apertureBase par.map p b = apertureBase par.map p' b' → p = p' ∧ b = b'
  regAligned : ∀ x, (regOffset par.map x).toNat % 4 = 0
  regAbove : ∀ x, 0x3FC < (regOffset par.map x).toNat
  regDistinct : ∀ x y, regOffset par.map x = regOffset par.map y → x = y
  rcgc : par.map.rcgcAddr.toNat % 4 = 0 ∧ ¬InPortWindow par.map par.map.rcgcAddr.toNat
  pr : par.map.prAddr.toNat % 4 = 0 ∧ ¬InPortWindow par.map par.map.prAddr.toNat ∧
    par.map.prAddr ≠ par.map.rcgcAddr
  nvic : par.map.nvicBase.toNat % 4 = 0 ∧ par.map.nvicBase.toNat + 0x400 + par.nIrq ≤ 2 ^ 32 ∧
    par.nIrq ≤ 1024
  nvicApart : ∀ a, InNvWindow par a →
    ¬InPortWindow par.map a ∧ a ≠ par.map.rcgcAddr.toNat ∧ a ≠ par.map.prAddr.toNat

/-! ### Invariants -/

/-- A ready port's clock gate is on (R44); with `CLOCK_READY = IMMEDIATE` the two agree. -/
def ClockInv (s : State) : Prop :=
  (∀ p, s.isReady p = true → s.gateOn p = true) ∧
    (s.par.clockReady = .immediate → s.ready = s.rcgc)

/-- Under `NEUTRAL` no port is ever locked (R39, U26). -/
def LockInv (s : State) : Prop := s.par.profile = .neutral → ∀ p, (s.port p).locked = false

/-- The sequencer runs the list its command expands to, which is not used up and holds at most 14
micro-operations (R51, R102, R182). -/
def SeqInv (s : State) : Prop :=
  match s.seq with
  | .idle => True
  | .busy cmd ops i => ops = expand s.par cmd ∧ i < ops.length ∧ ops.length ≤ 14

/-- The active stack names each active line once, and no other line (R320, R321). -/
def StackInv (s : State) : Prop := s.stack.Nodup ∧ ∀ n : Nat, s.act.testBit n = decide (n ∈ s.stack)

/-- Only the lines below `N_IRQ` have enable, pending, active and priority values, and a priority has
`PRIO_BITS` bits (R46 to R49). -/
def LineInv (s : State) : Prop :=
  ((∀ p, s.par.irqLine.get p < s.par.nIrq) → s.en < 2 ^ s.par.nIrq) ∧
    s.pend < 2 ^ s.par.nIrq ∧ s.act < 2 ^ s.par.nIrq ∧ s.pri.length = s.par.nIrq ∧
    ∀ v ∈ s.pri, v.toNat < 2 ^ s.par.prioBits

/-- Under `TM4C123` no pin holds two drive tiers (U4), nor both pulls (R260, R261). -/
def SiblingInv (s : State) : Prop :=
  s.par.profile = .tm4c123 → ∀ p,
    (s.port p).dr2r &&& (s.port p).dr4r = 0 ∧ (s.port p).dr2r &&& (s.port p).dr8r = 0 ∧
      (s.port p).dr4r &&& (s.port p).dr8r = 0 ∧ (s.port p).pur &&& (s.port p).pdr = 0

/-- The invariant of the block. -/
def Inv (s : State) : Prop :=
  ClockInv s ∧ LockInv s ∧ SeqInv s ∧ StackInv s ∧ LineInv s ∧ SiblingInv s

/-! ### Terms of the statements -/

/-- An access to port `p` through aperture `b` meets no fault: the aperture is enabled, the clock is on and
ready (R85, R96). -/
def Accessible (p : Port) (b : Bus) (s : State) : Prop :=
  (b = .ahb → s.par.ahbEnabled.get p = true) ∧ s.gateOn p = true ∧ s.isReady p = true

/-- `k` steps of the sequencer, each with its end of step, no other agent between (R51, R99). -/
def seqRun : Nat → State → State
  | 0, s => s
  | k + 1, s => seqRun k (endOfStep (sequencerStep (beginStep s)))

/-- `cmd` configures the pin at offset `o` of port `p` through aperture `bus`, with trigger `trig`: a CFG, whose
pin may fall back to PA0 (R183, R198), or an ARM of a valid pin (R222). -/
def Configures (par : Params) (cmd : Instr) (p : Port) (o : Off) (trig : Trig) (bus : Bus) : Prop :=
  ∃ pin, (resolvePin par pin bus).port = p ∧ (resolvePin par pin bus).off = o ∧
    ((∃ dir afen afcode pull drive sig, cmd = .cfg pin dir afen afcode pull drive sig trig bus) ∨
      ((resolvePin par pin bus).valid = true ∧ cmd = .arm pin trig bus))

/-- The sequencer stands at step 1 of the list of `cmd`, which configures a pin of port `p`, and meets no wait
there: at the clock gate, with the clock ready already or becoming ready at once; or at the wait, after the
clock-ready agent has lifted it (R184, R304). -/
def Underway (cmd : Instr) (p : Port) (i : Nat) (s : State) : Prop :=
  s.seq = .busy cmd (expand s.par cmd) i ∧
    ((i = 0 ∧ (s.isReady p = true ∨ s.par.clockReady = .immediate)) ∨
      (i = 1 ∧ s.gateOn p = true ∧ s.isReady p = true))

/-- An edge of the kind an edge trigger asks for (R191, R312), from one sample of the pin to the next. -/
def edgeOf (trig : Trig) (before now : Bool) : Bool :=
  match trig with
  | .rising => !before && now
  | .falling => before && !now
  | .both => before != now
  | .none | .high | .low => false

/-- `new` is `old` with bit `o` replaced by `v`: the other pins' bits are untouched (R195). -/
def OnlyBit (o : Off) (v : Bool) (old new : Byte) : Prop :=
  ∀ k : Off, new.getLsbD k = if k = o then v else old.getLsbD k

/-- PCTL field `o` (R34). -/
def pctlField (v : Word) (o : Off) : BitVec 4 := v.extractLsb' (4 * o.val) 4

/-- Writes to AFSEL, PUR, PDR and DEN reach bit `o` (R262): always under `NEUTRAL`, where CR is 1 under
`TM4C123`. -/
def committed (prof : Profile) (r : PortRegs) (o : Off) : Bool :=
  match prof with
  | .neutral => true
  | .tm4c123 => r.cr.getLsbD o

/-- What a completed CFG of the pin at offset `o` leaves in its port, from what the port held (R183 to R191,
R194, R195). RIS is left out: detection may change it at every step. -/
structure CfgResult (prof : Profile) (o : Off) (dir : Dir) (afen : Bool) (afcode : BitVec 4)
    (pull : Pull) (drive : Drive) (sig : Sig) (trig : Trig) (r r' : PortRegs) : Prop where
  dir : OnlyBit o (dir == .output) r.dir r'.dir
  afsel : OnlyBit o (r.afsel.getLsbD o || (afen && committed prof r o)) r.afsel r'.afsel
  pctl : ∀ k : Off, pctlField r'.pctl k = if k = o ∧ afen = true then afcode else pctlField r.pctl k
  dr2r : OnlyBit o (drive == .ma2 || (r.dr2r.getLsbD o && prof == .neutral)) r.dr2r r'.dr2r
  dr4r : OnlyBit o (drive == .ma4 || (r.dr4r.getLsbD o && prof == .neutral)) r.dr4r r'.dr4r
  dr8r : OnlyBit o (drive == .ma8 || (r.dr8r.getLsbD o && prof == .neutral)) r.dr8r r'.dr8r
  odr : OnlyBit o (r.odr.getLsbD o || pull == .openDrain) r.odr r'.odr
  pur : OnlyBit o
    (match pull with
     | .up => r.pur.getLsbD o || committed prof r o
     | .down => r.pur.getLsbD o && !(prof == .tm4c123 && committed prof r o)
     | .none | .openDrain => r.pur.getLsbD o) r.pur r'.pur
  pdr : OnlyBit o
    (match pull with
     | .down => r.pdr.getLsbD o || committed prof r o
     | .up => r.pdr.getLsbD o && !(prof == .tm4c123 && committed prof r o)
     | .none | .openDrain => r.pdr.getLsbD o) r.pdr r'.pdr
  den : OnlyBit o (r.den.getLsbD o || (sig == .digital && committed prof r o)) r.den r'.den
  amsel : OnlyBit o (r.amsel.getLsbD o || sig == .analog) r.amsel r'.amsel
  im : OnlyBit o (r.im.getLsbD o || trig != .none) r.im r'.im
  is : OnlyBit o (match trig with
     | .none => r.is.getLsbD o | .high | .low => true | .rising | .falling | .both => false) r.is r'.is
  ibe : OnlyBit o (match trig with
     | .none => r.ibe.getLsbD o | .both => true | .rising | .falling | .high | .low => false) r.ibe r'.ibe
  iev : OnlyBit o (match trig with
     | .none | .both => r.iev.getLsbD o | .rising | .high => true | .falling | .low => false) r.iev r'.iev
  kept : r'.data = r.data ∧ r'.slr = r.slr ∧ r'.locked = r.locked ∧ r'.cr = r.cr ∧
    r'.adcctl = r.adcctl ∧ r'.dmactl = r.dmactl

/-- Everything but the registers, the clock gates, the sequencer's own progress and what ends every step is
as before: the frame of a run of the sequencer. -/
structure RunFrame (s t : State) : Prop where
  act : t.act = s.act
  pri : t.pri = s.pri
  stack : t.stack = s.stack
  par : t.par = s.par
  stream : t.stream = s.stream
  xline : t.xline = s.xline

/-- The ports other than `p` keep their registers, but for RIS, which detection may change. -/
def OthersKept (p : Port) (s t : State) : Prop :=
  ∀ q, q ≠ p → t.port q = { s.port q with ris := (t.port q).ris }

end Sys2Proof
end

