-- ==== Sys2Proof/Certificates/Slice0/Obligations.lean ====
section
/-! DEFINITION. The statements for the provers, from the numbered rules of spec/. There is no data memory on
this hardware (R80): a frame is stated over the fields of State, registers and interrupt controller. -/

section

open Sys2Proof Sys2Proof.Machine

/-! ### Encoding and acceptance -/

/-- R145's six examples, and one word of each remaining command, decode to the command they stand for. -/
def Obligations.SpecWordsDecode : Prop :=
  decodeStream [0x15304000] =
      .command (.cfg 41 .output false 0 .down .ma2 .digital .none .apb) [] ∧
    decodeStream [0x25800080] = .command (.arm 44 .rising .apb) [] ∧
    decodeStream [0x46000000] = .command (.resolve 48 .apb .pin) [] ∧
    decodeStream [0x30A00000] = .command (.deinit 5) [] ∧
    decodeStream [0x80A41800] = .command (.rdr 5 0x418 .apb) [] ∧
    decodeStream [0x90A41C00, 0x00000010] = .command (.wrr 5 0x41C .apb 0x10) [] ∧
    decodeStream [0x00000000] = .command .nop [] ∧
    decodeStream [0x50A00000] = .command (.clken 5) [] ∧
    decodeStream [0x60A00000] = .command (.clkdis 5) [] ∧
    decodeStream [0x70A00000] = .command (.rdarm 5) [] ∧
    decodeStream [0xA0000000, 0x400FE608] = .command (.rda 0x400FE608) [] ∧
    decodeStream [0xB0000000, 0xE000E100, 0x40000000] = .command (.wra 0xE000E100 0x40000000) []

/-- R122 to R128: the decoder reads back every well-formed command from its encoding, and leaves the rest
of the stream. -/
def Obligations.DecodeOfEncode : Prop :=
  ∀ (i : Instr) (rest : List Word), i.WellFormed → decodeStream (encode i ++ rest) = .command i rest

/-- R122 to R128: a command is read only from its own encoding, and is well-formed; so no two streams of
words stand for one command and what follows it. -/
def Obligations.EncodeOfDecode : Prop :=
  ∀ (ws : List Word) (i : Instr) (rest : List Word),
    decodeStream ws = .command i rest → ws = encode i ++ rest ∧ i.WellFormed

/-- R139: the decoder accepts exactly the words `Legal` accepts, whatever words 1 and 2 are. -/
def Obligations.DecoderAcceptsLegalWords : Prop :=
  ∀ w w1 w2 : Word, (∃ i, decodeCommand w w1 w2 = .ok i) ↔ legalWord w = true

/-- R51, R140, R250, R315: when the command port has the turn, is idle, and the stream starts with a legal
command, the step is that command's meaning on the state with its words consumed, followed by the end of
the step. -/
def Obligations.StepRunsCommand : Prop :=
  ∀ (s : State) (i : Instr) (rest : List Word),
    s.seq = .idle → nextTurn s = .port → decodeStream s.stream = .command i rest →
    step s = finish (exec i { beginStep s with stream := rest }) ∧
      ∀ t, exec i { beginStep s with stream := rest } = .next t → step s = .next (endOfStep t)

/-- R134, R302: an illegal word 0 is reported in RESP and in the trace, its command's words are consumed,
and nothing else of the block changes before the end of the step. -/
def Obligations.IllegalCommandReported : Prop :=
  ∀ (s : State) (w : Word) (operands : List Word),
    s.seq = .idle → nextTurn s = .port → s.stream = w :: operands →
    commandLength w - 1 ≤ operands.length → legalWord w = false →
    step s = .next (endOfStep
      { beginStep s with
        stream := operands.drop (commandLength w - 1)
        resp := ⟨.illegal, 0, w, 0⟩
        trace := s.trace ++ [.fault .illegal 0] })

/-- R104, R140, R376: the command port accepts nothing while the sequencer is busy, and waits while a word
of the next command is missing. That an illegal word 0, too, is reported only when all its words have arrived
is log entry 11, and that a turn of the command port that accepts nothing is a step of its own, with the
updates that end every step, is log entry 3: both are the model's readings. -/
def Obligations.CommandPortWaits : Prop :=
  ∀ s : State, nextTurn s = .port →
    ((∃ cmd ops i, s.seq = .busy cmd ops i) ∨
      (s.seq = .idle ∧ (s.stream = [] ∨
        ∃ w operands, s.stream = w :: operands ∧ operands.length < commandLength w - 1))) →
    step s = .next (endOfStep (beginStep s))

/-- R15, R99, R360: the step of every other agent is its own effect and then the end of the step; a reset turn
sets every piece of the block's state, whatever the block was doing, to its reset value (R56, R57; the
registers of each port are pinned by ResetValues), with an empty trace. That a turn sets every level at once,
that a clock-ready turn of a gated port changes nothing of its own, that a reset turn keeps the parameters, the
stream, the levels and the external lines and that no end of step follows it, and the host's turn, which
appends words to the stream and which R15 does not list, are the model's choices (log entries 20, 3, 21 and 4);
so are RESP, the active stack and the model's own fields after a reset (log entries 5, 13, 2 and 8). -/
def Obligations.OtherAgentsStep : Prop :=
  ∀ s : State,
    (nextTurn s = .sequencer → step s = .next (endOfStep (sequencerStep (beginStep s)))) ∧
    (∀ l x, nextTurn s = .environment l x →
      step s = .next (endOfStep { beginStep s with level := l, xline := x })) ∧
    (∀ p, nextTurn s = .clockReady p →
      step s = .next (endOfStep (if s.gateOn p then
        { beginStep s with ready := setBit s.ready p.index } else beginStep s))) ∧
    (nextTurn s = .ack → step s = .next (endOfStep (acknowledge (beginStep s)))) ∧
    (nextTurn s = .eoi → step s = .next (endOfStep (endOfInterrupt (beginStep s)))) ∧
    (∀ ws, nextTurn s = .host ws →
      step s = .next (endOfStep { beginStep s with stream := s.stream ++ ws })) ∧
    (nextTurn s = .reset → step s = .next
      { s with
        regs := (State.resetWith s.par).regs
        sampled := .const 0, rcgc := 0, ready := 0, armt := .const none
        en := 0, pend := 0, act := 0, pri := List.replicate s.par.nIrq 0, stack := []
        seq := .idle, resp := ⟨.ok, 0, 0, 0⟩, trace := []
        turns := s.turns.tail, waited := 0, tick := s.tick + 1 })

/-- The word placed by `withFetchWord` is the next command accepted: it runs on the state as it was, idle and
with the stream as it was (log entry 19). -/
def Obligations.PlacedCommandRuns : Prop :=
  ∀ (s : State) (nbits w : Nat) (i : Instr), decodeTableWord nbits w = some i →
    step (s.withFetchWord nbits w) =
      finish (exec i { s with seq := .idle, tick := s.tick + 1, waited := clockWaiting s })

/-- Every state has a next state: command faults are reported in RESP and the next command is accepted
normally (R301, R302), and no turn of any agent stops the block. -/
def Obligations.StepNeverStops : Prop := ∀ s : State, ∃ t, step s = .next t

/-! ### The resolver -/

/-- R167: the round trip between pin identifiers and pins, under either scheme. -/
def Obligations.ResolverRoundTrip : Prop :=
  ∀ scheme : PinScheme,
    (∀ p o, decodePin scheme (encodePin scheme p o) = some (p, o)) ∧
      ∀ id p o, decodePin scheme id = some (p, o) → encodePin scheme p o = id

/-- R131, R161 to R164, R168: the resolver's arithmetic under both schemes, and its fallback to port A,
offset 0 for an identifier or port field that names nothing. -/
def Obligations.ResolverFunctions : Prop :=
  ∀ (par : Params) (bus : Bus),
    (∀ id : BitVec 7,
      let r := resolvePin par id bus
      (par.pinScheme = .zero →
        r.valid = decide (id.toNat < 48) ∧
        (id.toNat < 48 → r.port.index = id.toNat / 8 ∧ r.off.val = id.toNat % 8)) ∧
      (par.pinScheme = .legacy10 →
        r.valid = decide (1 ≤ id.toNat / 10 ∧ id.toNat / 10 ≤ 6 ∧ id.toNat % 10 ≤ 7) ∧
        (r.valid = true → r.port.index = id.toNat / 10 - 1 ∧ r.off.val = id.toNat % 10)) ∧
      r.handle = apertureBase par.map r.port bus ∧
      (r.valid = false → r.port = .A ∧ r.off = 0)) ∧
    ∀ q : BitVec 3,
      let r := resolvePort par q bus
      r.handle = apertureBase par.map r.port bus ∧ r.valid = decide (q.toNat ≤ 5) ∧
      r.port.index = if q.toNat ≤ 5 then q.toNat else 0

/-- R165: RESOLVE answers the handle in `data` and valid, bus, port and offset in `aux`, and changes nothing
but RESP. -/
def Obligations.ResolveResult : Prop :=
  ∀ (s : State) (sel : BitVec 7) (bus : Bus) (kind : SelKind), s.seq = .idle →
    let r := if kind = .pin then resolvePin s.par sel bus
      else resolvePort s.par (sel.extractLsb' 0 3) bus
    ∃ aux : Word,
      exec (.resolve sel bus kind) s = .next { s with resp := ⟨.ok, 0, r.handle, aux⟩ } ∧
      aux.getLsbD 7 = r.valid ∧ aux.getLsbD 6 = (bus == .ahb) ∧
      (aux.extractLsb' 3 3).toNat = r.port.index ∧ (aux.extractLsb' 0 3).toNat = r.off.val ∧
      aux.extractLsb' 8 24 = 0 ∧ (kind = .port → r.off = 0)

/-! ### Register access -/

/-- R250, R229: NOP changes nothing but RESP. RDARM answers the slot of a valid port with bit 3 set, "none" as
0, and 0 with `aux = 0` for an invalid port; it changes nothing but RESP. -/
def Obligations.NopAndRdarmResults : Prop :=
  ∀ (s : State) (q : BitVec 3), s.seq = .idle →
    exec .nop s = .next { s with resp := ⟨.ok, 0, 0, 0⟩ } ∧
    (q.toNat > 5 → exec (.rdarm q) s = .next { s with resp := ⟨.ok, 0, 0, 0⟩ }) ∧
    ∀ p : Port, q.toNat = p.index →
      (s.armt.get p = none → exec (.rdarm q) s = .next { s with resp := ⟨.ok, 0, 0, 1⟩ }) ∧
      ∀ o : Off, s.armt.get p = some o →
        exec (.rdarm q) s = .next { s with resp := ⟨.ok, 0, BitVec.ofNat 32 (8 + o.val), 1⟩ }

/-- R251, R255, R85, R96, R300: RDR of a listed register: the faults in the order they are checked, and
otherwise the register's value in RESP, register by register; nothing but RESP and the trace changes. No step
changes the address map (WritersOfControlState), and that of reset is sound (ResetHasInv). -/
def Obligations.RdrReadsRegister : Prop :=
  ∀ (s : State) (q : BitVec 3) (x : Reg) (bus : Bus), s.seq = .idle → MapSound s.par →
    let p := (resolvePort s.par q bus).port
    let off := regOffset s.par.map x
    let a := apertureBase s.par.map p bus + off.setWidth 32
    let r := s.port p
    let v : Word :=
      match x with
      | .dir => r.dir.setWidth 32 | .is => r.is.setWidth 32 | .ibe => r.ibe.setWidth 32
      | .iev => r.iev.setWidth 32 | .im => r.im.setWidth 32 | .ris => r.ris.setWidth 32
      | .mis => (r.ris &&& r.im).setWidth 32 | .icr => 0 | .afsel => r.afsel.setWidth 32
      | .dr2r => r.dr2r.setWidth 32 | .dr4r => r.dr4r.setWidth 32 | .dr8r => r.dr8r.setWidth 32
      | .odr => r.odr.setWidth 32 | .pur => r.pur.setWidth 32 | .pdr => r.pdr.setWidth 32
      | .slr => r.slr.setWidth 32 | .den => r.den.setWidth 32 | .lock => if r.locked then 1 else 0
      | .cr => r.cr.setWidth 32 | .amsel => r.amsel.setWidth 32 | .pctl => r.pctl
      | .adcctl => r.adcctl.setWidth 32 | .dmactl => r.dmactl.setWidth 32
    exec (.rdr q off bus) s = .next
      (if bus = .ahb ∧ s.par.ahbEnabled.get p = false then
        { s with resp := ⟨.ahbOff, a, 0, 0⟩, trace := s.trace ++ [.fault .ahbOff a] }
      else if s.gateOn p = false then
        { s with resp := ⟨.gated, a, 0, 0⟩, trace := s.trace ++ [.fault .gated a] }
      else if s.isReady p = false then
        { s with resp := ⟨.notReady, a, 0, 0⟩, trace := s.trace ++ [.fault .notReady a] }
      else { s with resp := ⟨.ok, 0, v, 0⟩, trace := s.trace ++ [.read a v] })

/-- R252, R256, R85, R96, R300: WRR to a listed register: the faults in the order they are checked, and
otherwise the register write, on the port's registers alone. -/
def Obligations.WrrWritesRegister : Prop :=
  ∀ (s : State) (q : BitVec 3) (x : Reg) (bus : Bus) (d : Word), s.seq = .idle → MapSound s.par →
    let p := (resolvePort s.par q bus).port
    let off := regOffset s.par.map x
    let a := apertureBase s.par.map p bus + off.setWidth 32
    exec (.wrr q off bus d) s = .next
      (if bus = .ahb ∧ s.par.ahbEnabled.get p = false then
        { s with resp := ⟨.ahbOff, a, 0, 0⟩, trace := s.trace ++ [.fault .ahbOff a] }
      else if s.gateOn p = false then
        { s with resp := ⟨.gated, a, 0, 0⟩, trace := s.trace ++ [.fault .gated a] }
      else if s.isReady p = false then
        { s with resp := ⟨.notReady, a, 0, 0⟩, trace := s.trace ++ [.fault .notReady a] }
      else
        { s with
          regs := s.regs.set p (writeReg s.par.profile (s.draw .spurious) x d (s.port p))
          resp := ⟨.ok, 0, 0, 0⟩
          trace := s.trace ++ [.write a d] })

/-- R257, R255, R85, R96, R300: the masked DATA window, offset bits [9:2] the mask. A port that cannot be
accessed answers AHB_OFF, GATED or NOT_READY, in this order, to a read and to a write; otherwise the statement
says what a read returns for each bit, and which latch bits a write changes; every other register is
unchanged. The bit read for an alternate-function pin is a free value: the statement says only which one. -/
def Obligations.DataWindow : Prop :=
  ∀ (s : State) (q : BitVec 3) (off : BitVec 12) (bus : Bus) (d : Word), s.seq = .idle →
    MapSound s.par → off.toNat ≤ 0x3FC → off.extractLsb' 0 2 = 0 →
    let p := (resolvePort s.par q bus).port
    let r := s.port p
    let a := apertureBase s.par.map p bus + off.setWidth 32
    let faults : Status → Prop := fun c =>
      let t := { s with resp := ⟨c, a, 0, 0⟩, trace := s.trace ++ [.fault c a] }
      exec (.rdr q off bus) s = .next t ∧ exec (.wrr q off bus d) s = .next t
    if bus = .ahb ∧ s.par.ahbEnabled.get p = false then faults .ahbOff
    else if s.gateOn p = false then faults .gated
    else if s.isReady p = false then faults .notReady
    else
      (∃ v : Word,
        exec (.rdr q off bus) s =
          .next { s with resp := ⟨.ok, 0, v, 0⟩, trace := s.trace ++ [.read a v] } ∧
        (∀ i : Off, v.getLsbD i =
          (off.getLsbD (i + 2) &&
            (if r.den.getLsbD i = false then false
            else if r.afsel.getLsbD i = true then (Config.freeByte s.tick .dataRead).getLsbD i
            else if r.dir.getLsbD i = true then r.data.getLsbD i
            else (s.level.get p).getLsbD i))) ∧
        ∀ k, 8 ≤ k → v.getLsbD k = false) ∧
      ∃ latch : Byte,
        exec (.wrr q off bus d) s =
          .next { s with
            regs := s.regs.set p { r with data := latch }
            resp := ⟨.ok, 0, 0, 0⟩, trace := s.trace ++ [.write a d] } ∧
        ∀ i : Off, latch.getLsbD i = if off.getLsbD (i + 2) then d.getLsbD i else r.data.getLsbD i

/-- R132: a port-relative access is the absolute access at the base plus the offset, which lies inside the
port's window. -/
def Obligations.PortRelativeIsAbsolute : Prop :=
  ∀ (s : State) (q : BitVec 3) (off : BitVec 12) (bus : Bus) (d : Word),
    let base := apertureBase s.par.map (resolvePort s.par q bus).port bus
    exec (.rdr q off bus) s = exec (.rda (base + off.setWidth 32)) s ∧
    exec (.wrr q off bus d) s = exec (.wra (base + off.setWidth 32) d) s ∧
    (MapSound s.par →
      base.toNat ≤ (base + off.setWidth 32).toNat ∧ (base + off.setWidth 32).toNat < base.toNat + 0x1000)

/-- R84, R86 to R90: the default addresses, table by table; and, for every sound choice of the addresses, what
each aligned address inside a window decodes to. -/
def Obligations.DecodeWindows : Prop :=
  (∀ prof : Profile,
    let par := defaultParams prof
    let apb := fun p => apertureBase par.map p .apb
    let ahb := fun p => apertureBase par.map p .ahb
    let at_ := regOffset par.map
    (apb .A = 0x40004000 ∧ apb .B = 0x40005000 ∧ apb .C = 0x40006000 ∧ apb .D = 0x40007000 ∧
      apb .E = 0x40024000 ∧ apb .F = 0x40025000) ∧
    (ahb .A = 0x40058000 ∧ ahb .B = 0x40059000 ∧ ahb .C = 0x4005A000 ∧ ahb .D = 0x4005B000 ∧
      ahb .E = 0x4005C000 ∧ ahb .F = 0x4005D000) ∧
    (at_ .dir = 0x400 ∧ at_ .is = 0x404 ∧ at_ .ibe = 0x408 ∧ at_ .iev = 0x40C ∧ at_ .im = 0x410 ∧
      at_ .ris = 0x414 ∧ at_ .mis = 0x418 ∧ at_ .icr = 0x41C ∧ at_ .afsel = 0x420 ∧
      at_ .dr2r = 0x500 ∧ at_ .dr4r = 0x504 ∧ at_ .dr8r = 0x508 ∧ at_ .odr = 0x50C ∧
      at_ .pur = 0x510 ∧ at_ .pdr = 0x514 ∧ at_ .slr = 0x518 ∧ at_ .den = 0x51C ∧
      at_ .lock = 0x520 ∧ at_ .cr = 0x524 ∧ at_ .amsel = 0x528 ∧ at_ .pctl = 0x52C ∧
      at_ .adcctl = 0x530 ∧ at_ .dmactl = 0x534) ∧
    par.map.rcgcAddr = 0x400FE608 ∧ par.map.prAddr = 0x400FEA08 ∧ par.map.nvicBase = 0xE000E000) ∧
  ∀ par : Params, MapSound par →
    (∀ (p : Port) (b : Bus) (off : BitVec 12), off.extractLsb' 0 2 = 0 →
      let a := apertureBase par.map p b + off.setWidth 32
      (off.toNat ≤ 0x3FC → decodeAddr par a = .data p b (off.extractLsb' 2 8)) ∧
      (∀ x, regOffset par.map x = off → decodeAddr par a = .reg p b x) ∧
      (0x3FC < off.toNat → (∀ x, regOffset par.map x ≠ off) → decodeAddr par a = .fault .unmapped)) ∧
    decodeAddr par par.map.rcgcAddr = .sysRcgc ∧ decodeAddr par par.map.prAddr = .sysReady ∧
    (∀ k, k < par.nIrq / 32 →
      let word : Nat → Word := fun off => par.map.nvicBase + BitVec.ofNat 32 (off + 4 * k)
      decodeAddr par (word 0x100) = .nv .setEna k ∧ decodeAddr par (word 0x180) = .nv .clrEna k ∧
      decodeAddr par (word 0x200) = .nv .setPend k ∧ decodeAddr par (word 0x280) = .nv .clrPend k ∧
      decodeAddr par (word 0x300) = .nv .active k) ∧
    ∀ j, j < par.nIrq / 4 →
      decodeAddr par (par.map.nvicBase + BitVec.ofNat 32 (0x400 + 4 * j)) = .nv .pri j

/-- R91: an aligned address in no window decodes to UNMAPPED, whatever the addresses and sizes of R9 are. -/
def Obligations.UnmappedElsewhere : Prop :=
  ∀ (par : Params) (a : Word), a.extractLsb' 0 2 = 0 →
    let nvic : Nat → Nat → Prop := fun off len =>
      par.map.nvicBase.toNat + off ≤ a.toNat ∧ a.toNat < par.map.nvicBase.toNat + off + len
    (∀ p b, ¬((apertureBase par.map p b).toNat ≤ a.toNat ∧
      a.toNat < (apertureBase par.map p b).toNat + 0x1000)) →
    a ≠ par.map.rcgcAddr → a ≠ par.map.prAddr →
    ¬nvic 0x100 (4 * (par.nIrq / 32)) → ¬nvic 0x180 (4 * (par.nIrq / 32)) →
    ¬nvic 0x200 (4 * (par.nIrq / 32)) → ¬nvic 0x280 (4 * (par.nIrq / 32)) →
    ¬nvic 0x300 (4 * (par.nIrq / 32)) → ¬nvic 0x400 par.nIrq →
    decodeAddr par a = .fault .unmapped

/-- R300, R52: the 4-bit codes, and the code in RESP after an absolute read or write of any address: the first
that applies in the order ALIGN, UNMAPPED, AHB_OFF, GATED, NOT_READY, else OK; `addr` is the address for a
fault and 0 otherwise. -/
def Obligations.StatusCodes : Prop :=
  (Status.ok.code = 0x0 ∧ Status.illegal.code = 0x1 ∧ Status.align.code = 0x2 ∧
    Status.unmapped.code = 0x3 ∧ Status.ahbOff.code = 0x4 ∧ Status.gated.code = 0x5 ∧
    Status.notReady.code = 0x6) ∧
  (∀ c, Status.ofCode c.code = some c) ∧ (∀ b : BitVec 4, 7 ≤ b.toNat → Status.ofCode b = none) ∧
  ∀ (s : State) (a d : Word), s.seq = .idle →
    let port : Port → Bus → BitVec 4 := fun p b =>
      if b = .ahb ∧ s.par.ahbEnabled.get p = false then 0x4
      else if s.gateOn p = false then 0x5
      else if s.isReady p = false then 0x6
      else 0x0
    let code : BitVec 4 :=
      if a.extractLsb' 0 2 ≠ 0 then 0x2
      else
        match decodeAddr s.par a with
        | .fault _ => 0x3
        | .data p b _ => port p b
        | .reg p b _ => port p b
        | .sysRcgc => 0x0
        | .sysReady => 0x0
        | .nv _ _ => 0x0
    ∃ t u, exec (.rda a) s = .next t ∧ exec (.wra a d) s = .next u ∧
      t.resp.statusBits = code ∧ u.resp.statusBits = code ∧
      t.resp.addr = (if code = 0 then 0 else a) ∧ u.resp.addr = (if code = 0 then 0 else a)

/-- R82, R91, R301: a misaligned access performs nothing and raises ALIGN at its address, for the absolute and
the port-relative commands; so does, with its own code, an access to an address that decodes to a fault:
RESP takes the fault, its event is emitted, and every other field keeps its value. -/
def Obligations.FaultingAddresses : Prop :=
  ∀ s : State, s.seq = .idle →
    (∀ (a d : Word) (c : Status), decodeAddr s.par a = .fault c →
      let t := { s with resp := ⟨c, a, 0, 0⟩, trace := s.trace ++ [.fault c a] }
      exec (.rda a) s = .next t ∧ exec (.wra a d) s = .next t) ∧
    (∀ (a d : Word), a.extractLsb' 0 2 ≠ 0 →
      let t := { s with resp := ⟨.align, a, 0, 0⟩, trace := s.trace ++ [.fault .align a] }
      exec (.rda a) s = .next t ∧ exec (.wra a d) s = .next t) ∧
    (MapSound s.par → ∀ (q : BitVec 3) (off : BitVec 12) (bus : Bus) (d : Word),
      off.extractLsb' 0 2 ≠ 0 →
      let a := apertureBase s.par.map (resolvePort s.par q bus).port bus + off.setWidth 32
      let t := { s with resp := ⟨.align, a, 0, 0⟩, trace := s.trace ++ [.fault .align a] }
      exec (.rdr q off bus) s = .next t ∧ exec (.wrr q off bus d) s = .next t)

/-- R93: a read changes nothing but RESP and the trace, whatever it reads and whether or not it faults. -/
def Obligations.ReadsChangeNothing : Prop :=
  ∀ (s t : State),
    (∀ a, exec (.rda a) s = .next t → t = { s with resp := t.resp, trace := t.trace }) ∧
    ∀ q off bus, exec (.rdr q off bus) s = .next t → t = { s with resp := t.resp, trace := t.trace }

/-- R269: what the interrupt-controller words read, bit by bit and byte by byte: a priority stands in the top
`PRIO_BITS` bits of its byte. -/
def Obligations.ControllerWordReads : Prop :=
  ∀ s : State, s.seq = .idle → MapSound s.par →
    let reads : Word → Word → Prop := fun a v =>
      exec (.rda a) s = .next { s with resp := ⟨.ok, 0, v, 0⟩, trace := s.trace ++ [.read a v] }
    (∀ k, k < s.par.nIrq / 32 → ∀ kind : NvKind, kind ≠ .pri →
      ∃ v : Word, reads (s.par.map.nvicBase + BitVec.ofNat 32 (kind.offset + 4 * k)) v ∧
        ∀ b, b < 32 → v.getLsbD b =
          (match kind with
           | .setEna | .clrEna => s.en
           | .setPend | .clrPend => s.pend
           | .active | .pri => s.act).testBit (32 * k + b)) ∧
    ∀ j, j < s.par.nIrq / 4 →
      ∃ v : Word, reads (s.par.map.nvicBase + BitVec.ofNat 32 (0x400 + 4 * j)) v ∧
        ∀ c, c < 4 → v.extractLsb' (8 * c) 8 = s.priAt (4 * j + c) <<< (8 - s.par.prioBits)

/-- R270: a 1 in bit `b` of a set or clear word acts on line `32k + b` and a 0 does nothing; the other line
bits and every other field keep their values. -/
def Obligations.ControllerWordWrites : Prop :=
  ∀ (s : State) (d : Word) (k : Nat), s.seq = .idle → MapSound s.par → k < s.par.nIrq / 32 →
    let named : Nat → Bool := fun n => n / 32 == k && d.getLsbD (n % 32)
    let at_ : Nat → Word := fun off => s.par.map.nvicBase + BitVec.ofNat 32 (off + 4 * k)
    let done : Nat → State → State := fun off t =>
      { t with resp := ⟨.ok, 0, 0, 0⟩, trace := s.trace ++ [.write (at_ off) d] }
    (∃ v : LineBits, exec (.wra (at_ 0x100) d) s = .next (done 0x100 { s with en := v }) ∧
      ∀ n : Nat, v.testBit n = (s.en.testBit n || named n)) ∧
    (∃ v : LineBits, exec (.wra (at_ 0x180) d) s = .next (done 0x180 { s with en := v }) ∧
      ∀ n : Nat, v.testBit n = (s.en.testBit n && !named n)) ∧
    (∃ v : LineBits, exec (.wra (at_ 0x200) d) s = .next (done 0x200 { s with pend := v }) ∧
      ∀ n : Nat, v.testBit n = (s.pend.testBit n || named n)) ∧
    (∃ v : LineBits, exec (.wra (at_ 0x280) d) s = .next (done 0x280 { s with pend := v }) ∧
      ∀ n : Nat, v.testBit n = (s.pend.testBit n && !named n)) ∧
    exec (.wra (at_ 0x300) d) s = .next (done 0x300 s)

/-- R271: a priority write sets the four lines of its word from the top `PRIO_BITS` bits of each byte, and
leaves every other line's priority and every other field as it was. -/
def Obligations.PriorityWrites : Prop :=
  ∀ (s : State) (d : Word) (j : Nat), s.seq = .idle → MapSound s.par → ParamsInRange s.par →
    j < s.par.nIrq / 4 →
    let a := s.par.map.nvicBase + BitVec.ofNat 32 (0x400 + 4 * j)
    ∃ v : List Byte,
      exec (.wra a d) s =
        .next { s with pri := v, resp := ⟨.ok, 0, 0, 0⟩, trace := s.trace ++ [.write a d] } ∧
      v.length = s.par.nIrq ∧
      ∀ n, n < s.par.nIrq →
        (n / 4 = j → ∀ i, (v.getD n 0).getLsbD i =
          (decide (i < s.par.prioBits) && d.getLsbD (8 * (n % 4) + (8 - s.par.prioBits) + i))) ∧
        (n / 4 ≠ j → v.getD n 0 = s.priAt n)

/-- R268, R89, R259: the clock gate word and the ready word. -/
def Obligations.ClockWords : Prop :=
  ∀ (s : State) (d : Word), s.seq = .idle → MapSound s.par →
    let rcgcAddr := s.par.map.rcgcAddr
    let prAddr := s.par.map.prAddr
    (∃ t : State, exec (.wra rcgcAddr d) s = .next t ∧
      t = { s with
        rcgc := t.rcgc, ready := t.ready, resp := ⟨.ok, 0, 0, 0⟩
        trace := s.trace ++ [.write rcgcAddr d] } ∧
      ∀ p : Port, t.gateOn p = d.getLsbD p.index ∧
        t.isReady p = (d.getLsbD p.index &&
          (s.isReady p || (s.par.clockReady == .immediate && !s.gateOn p)))) ∧
    exec (.wra prAddr d) s =
      .next { s with resp := ⟨.ok, 0, 0, 0⟩, trace := s.trace ++ [.write prAddr d] } ∧
    (∃ v : Word, exec (.rda rcgcAddr) s =
      .next { s with resp := ⟨.ok, 0, v, 0⟩, trace := s.trace ++ [.read rcgcAddr v] } ∧
      v.extractLsb' 0 6 = s.rcgc ∧ v.extractLsb' 6 26 = 0) ∧
    ∃ v : Word, exec (.rda prAddr) s =
      .next { s with resp := ⟨.ok, 0, v, 0⟩, trace := s.trace ++ [.read prAddr v] } ∧
      v.extractLsb' 0 6 = s.ready ∧ v.extractLsb' 6 26 = 0

/-- R23, R34, R256, R258, R263: the plain storage registers take the low byte of the value and PCTL all of it;
the key unlocks LOCK and any other value locks it, under `TM4C123`, and under `NEUTRAL` LOCK is not written; a
write touches no other register and no other port. -/
def Obligations.PlainAndLockWrites : Prop :=
  ∀ (s : State) (p : Port) (v : Word),
    regWrite p .dir v s = s.setPort p { s.port p with dir := v.extractLsb' 0 8 } ∧
    regWrite p .im v s = s.setPort p { s.port p with im := v.extractLsb' 0 8 } ∧
    regWrite p .odr v s = s.setPort p { s.port p with odr := v.extractLsb' 0 8 } ∧
    regWrite p .slr v s = s.setPort p { s.port p with slr := v.extractLsb' 0 8 } ∧
    regWrite p .amsel v s = s.setPort p { s.port p with amsel := v.extractLsb' 0 8 } ∧
    regWrite p .adcctl v s = s.setPort p { s.port p with adcctl := v.extractLsb' 0 8 } ∧
    regWrite p .dmactl v s = s.setPort p { s.port p with dmactl := v.extractLsb' 0 8 } ∧
    regWrite p .pctl v s = s.setPort p { s.port p with pctl := v } ∧
    regWrite p .lock v s = s.setPort p
      { s.port p with
        locked := if s.par.profile = .neutral then (s.port p).locked
          else if v = 0x4C4F434B then false else true }

/-- R260, R261: a write to a drive register stores the value and, under `TM4C123` only, clears in the other two
every bit that is 1 in it; writing 1 to a committed bit of PUR clears that bit of PDR and the other way
round, under `TM4C123` only; ODR and everything else is unchanged. -/
def Obligations.SiblingClearing : Prop :=
  ∀ (s : State) (p : Port) (v : Word),
    let r := s.port p
    let keep : Bool → Off → Bool := fun old o =>
      if s.par.profile = .tm4c123 ∧ v.getLsbD o = true then false else old
    let clears : Off → Bool := fun o =>
      decide (s.par.profile = .tm4c123) && v.getLsbD o && r.cr.getLsbD o
    (∃ a b c : Byte,
      regWrite p .dr2r v s = s.setPort p { r with dr2r := a, dr4r := b, dr8r := c } ∧
      ∀ o : Off, a.getLsbD o = v.getLsbD o ∧ b.getLsbD o = keep (r.dr4r.getLsbD o) o ∧
        c.getLsbD o = keep (r.dr8r.getLsbD o) o) ∧
    (∃ a b c : Byte,
      regWrite p .dr4r v s = s.setPort p { r with dr2r := a, dr4r := b, dr8r := c } ∧
      ∀ o : Off, b.getLsbD o = v.getLsbD o ∧ a.getLsbD o = keep (r.dr2r.getLsbD o) o ∧
        c.getLsbD o = keep (r.dr8r.getLsbD o) o) ∧
    (∃ a b c : Byte,
      regWrite p .dr8r v s = s.setPort p { r with dr2r := a, dr4r := b, dr8r := c } ∧
      ∀ o : Off, c.getLsbD o = v.getLsbD o ∧ a.getLsbD o = keep (r.dr2r.getLsbD o) o ∧
        b.getLsbD o = keep (r.dr4r.getLsbD o) o) ∧
    (∃ a b : Byte, regWrite p .pur v s = s.setPort p { r with pur := a, pdr := b } ∧
      ∀ o : Off, b.getLsbD o = (r.pdr.getLsbD o && !clears o)) ∧
    ∃ a b : Byte, regWrite p .pdr v s = s.setPort p { r with pur := a, pdr := b } ∧
      ∀ o : Off, a.getLsbD o = (r.pur.getLsbD o && !clears o)

/-- R262: under `TM4C123` a write to AFSEL, PUR, PDR or DEN changes only the bits where CR is 1, and CR can
be written only while the port is unlocked; under `NEUTRAL` every bit is written and CR is plain storage. -/
def Obligations.CommitGating : Prop :=
  ∀ (s : State) (p : Port) (v : Word),
    let r := s.port p
    (∀ o : Off,
      let gated : Bool → Bool := fun old =>
        if s.par.profile = .neutral ∨ r.cr.getLsbD o = true then v.getLsbD o else old
      ((regWrite p .afsel v s).port p).afsel.getLsbD o = gated (r.afsel.getLsbD o) ∧
      ((regWrite p .den v s).port p).den.getLsbD o = gated (r.den.getLsbD o) ∧
      ((regWrite p .pur v s).port p).pur.getLsbD o = gated (r.pur.getLsbD o) ∧
      ((regWrite p .pdr v s).port p).pdr.getLsbD o = gated (r.pdr.getLsbD o)) ∧
    regWrite p .cr v s =
      (if s.par.profile = .neutral ∨ r.locked = false then
        s.setPort p { r with cr := v.extractLsb' 0 8 } else s.setPort p r) ∧
    regWrite p .afsel v s =
      s.setPort p { r with afsel := ((regWrite p .afsel v s).port p).afsel } ∧
    regWrite p .den v s = s.setPort p { r with den := ((regWrite p .den v s).port p).den }

/-- R264: an ICR write clears RIS where the value is 1 and leaves it where it is 0, and nothing else; a pin
in level mode whose level is active has its bit set again at the end of the same step. -/
def Obligations.IcrClears : Prop :=
  ∀ (s : State) (p : Port) (v : Word),
    (∃ ris : Byte, regWrite p .icr v s = s.setPort p { s.port p with ris := ris } ∧
      ∀ o : Off, ris.getLsbD o = ((s.port p).ris.getLsbD o && !v.getLsbD o)) ∧
    ∀ o : Off, s.isReady p = true → (s.port p).is.getLsbD o = true →
      (s.port p).den.getLsbD o = true → (s.par.pinPresent.get p).getLsbD o = true →
      ((endOfStep (regWrite p .icr v s)).level.get p).getLsbD o = (s.port p).iev.getLsbD o →
      ((endOfStep (regWrite p .icr v s)).port p).ris.getLsbD o = true

/-- R265: a write to IS, IBE or IEV stores the low byte; a bit it changes may set the pin's RIS bit, by a
free value, and a bit it does not change leaves RIS as it was. -/
def Obligations.SenseWritesMaySetStatus : Prop :=
  ∀ (s : State) (p : Port) (v : Word),
    let r := s.port p
    let v8 : Byte := v.extractLsb' 0 8
    let free : Off → Bool := fun o => (Config.freeByte s.tick .spurious).getLsbD o
    (∃ ris : Byte, regWrite p .is v s = s.setPort p { r with is := v8, ris := ris } ∧
      ∀ o : Off, ris.getLsbD o = (r.ris.getLsbD o || (r.is.getLsbD o != v8.getLsbD o && free o))) ∧
    (∃ ris : Byte, regWrite p .ibe v s = s.setPort p { r with ibe := v8, ris := ris } ∧
      ∀ o : Off, ris.getLsbD o = (r.ris.getLsbD o || (r.ibe.getLsbD o != v8.getLsbD o && free o))) ∧
    ∃ ris : Byte, regWrite p .iev v s = s.setPort p { r with iev := v8, ris := ris } ∧
      ∀ o : Off, ris.getLsbD o = (r.ris.getLsbD o || (r.iev.getLsbD o != v8.getLsbD o && free o))

/-- R259: a write to RIS, MIS, `PR_ADDR` or an ACTIVE word succeeds, emits its event and changes nothing; a
read of ICR returns 0. -/
def Obligations.ReadOnlyWrites : Prop :=
  ∀ (s : State) (d : Word), s.seq = .idle → MapSound s.par →
    let done : Word → State := fun a =>
      { s with resp := ⟨.ok, 0, 0, 0⟩, trace := s.trace ++ [.write a d] }
    (∀ (q : BitVec 3) (bus : Bus), Accessible (resolvePort s.par q bus).port bus s →
      let base := apertureBase s.par.map (resolvePort s.par q bus).port bus
      let off := regOffset s.par.map
      exec (.wrr q (off .ris) bus d) s = .next (done (base + (off .ris).setWidth 32)) ∧
      exec (.wrr q (off .mis) bus d) s = .next (done (base + (off .mis).setWidth 32)) ∧
      exec (.rdr q (off .icr) bus) s =
        .next { s with
          resp := ⟨.ok, 0, 0, 0⟩
          trace := s.trace ++ [.read (base + (off .icr).setWidth 32) 0] }) ∧
    exec (.wra s.par.map.prAddr d) s = .next (done s.par.map.prAddr) ∧
    ∀ k, k < s.par.nIrq / 32 →
      let a := s.par.map.nvicBase + BitVec.ofNat 32 (0x300 + 4 * k)
      exec (.wra a d) s = .next (done a)

/-- R94: writing the same value twice leaves what writing it once leaves, for every decoded address, also when
the two writes meet different free values. -/
def Obligations.WritesAreIdempotent : Prop :=
  ∀ (t : Target) (d : Word) (s s' : State) (k : Nat), busWrite t d s = .ok s' →
    busWrite t d { s' with tick := k } = .ok { s' with tick := k }

/-- R83: with both apertures of a port enabled, an access through either reads the same value and leaves the
same registers; only the address in the trace differs. -/
def Obligations.AperturesShareState : Prop :=
  ∀ (s : State) (p : Port) (off : BitVec 12) (d : Word), MapSound s.par →
    s.par.ahbEnabled.get p = true → off.extractLsb' 0 2 = 0 →
    let at_ : Bus → Word := fun b => apertureBase s.par.map p b + off.setWidth 32
    busRead (decodeAddr s.par (at_ .ahb)) s = busRead (decodeAddr s.par (at_ .apb)) s ∧
    busWrite (decodeAddr s.par (at_ .ahb)) d s = busWrite (decodeAddr s.par (at_ .apb)) d s

/-! ### The configuration engine and the routing commands -/

/-- R182, R183, R186, R190, R191, R222, R226, R199, R200: accepting an engine command with a valid selector, or
one that falls back, loads the sequencer with the command's list, written out here in its order, at index 0
and changes nothing else; ARM with an invalid pin and DEINIT with an invalid port change nothing but RESP,
and report `aux = 0` (R221, R225). -/
def Obligations.EngineCommandsLoad : Prop :=
  ∀ s : State, s.seq = .idle →
    let list : Port → Off → Dir → Bool → BitVec 4 → Pull → Drive → Sig → Trig → Bus → List MicroOp :=
      fun p o dir afen afcode pull drive sig trig b =>
        let set : Reg → MicroOp := fun x => .bset p b x o
        let clear : Reg → MicroOp := fun x => .bclr p b x o
        List.flatten
          [[.clkSet p, .waitRdy p],
            match dir with | .output => [set .dir] | .input => [clear .dir],
            if afen then [set .afsel, .nib p b o afcode] else [],
            match drive with | .ma2 => [set .dr2r] | .ma4 => [set .dr4r] | .ma8 => [set .dr8r],
            match pull with
            | .none => [] | .up => [set .pur] | .down => [set .pdr] | .openDrain => [set .odr],
            match sig with | .digital => [set .den] | .analog => [set .amsel],
            match trig with
            | .none => []
            | .rising => [clear .im, clear .is, clear .ibe, set .iev, .w1c p b o, set .im]
            | .falling => [clear .im, clear .is, clear .ibe, clear .iev, .w1c p b o, set .im]
            | .both => [clear .im, clear .is, set .ibe, .w1c p b o, set .im]
            | .high => [clear .im, set .is, clear .ibe, set .iev, set .im]
            | .low => [clear .im, set .is, clear .ibe, clear .iev, set .im]]
    let loads : Instr → List MicroOp → Prop := fun cmd ops =>
      exec cmd s = .next { s with seq := .busy cmd ops 0 } ∧ expand s.par cmd = ops
    (∀ pin dir afen afcode pull drive sig trig bus,
      let r := resolvePin s.par pin bus
      loads (.cfg pin dir afen afcode pull drive sig trig bus)
        (list r.port r.off dir afen afcode pull drive sig trig bus)) ∧
    (∀ pin trig bus,
      let r := resolvePin s.par pin bus
      (r.valid = true → loads (.arm pin trig bus)
        (list r.port r.off .input false 0 .up .ma8 .digital trig bus
          ++ [.armSet r.port r.off, .irqEn (s.par.irqLine.get r.port)])) ∧
      (r.valid = false → exec (.arm pin trig bus) s = .next { s with resp := ⟨.ok, 0, 0, 0⟩ })) ∧
    (∀ q p, portOfNumber q.toNat = some p → loads (.deinit q) [.armClr p, .clkClr p]) ∧
    (∀ q : BitVec 3, q.toNat > 5 → exec (.deinit q) s = .next { s with resp := ⟨.ok, 0, 0, 0⟩ }) ∧
    (∀ q, loads (.clken q) [.clkSet (resolvePort s.par q .apb).port]) ∧
    ∀ q, loads (.clkdis q) [.clkClr (resolvePort s.par q .apb).port]

/-- R190, R192, on the list of a CFG: an edge trigger has exactly one ICR write, after the one that clears IM
and before the one that sets it; a level trigger has none; trigger "none" touches none of IM, IS, IBE, IEV,
ICR. -/
def Obligations.MaskedReconfigurationOrder : Prop :=
  ∀ p o dir afen afcode pull drive sig trig b,
    let ops := cfgOps p o dir afen afcode pull drive sig trig b
    (trig = .rising ∨ trig = .falling ∨ trig = .both →
      ∃ before mid1 mid2 : List MicroOp,
        ops = before ++ [.bclr p b .im o] ++ mid1 ++ [.w1c p b o] ++ mid2 ++ [.bset p b .im o] ∧
        .w1c p b o ∉ before ++ mid1 ++ mid2 ∧ .bset p b .im o ∉ before ++ mid1 ++ mid2 ∧
        .bclr p b .im o ∉ before ++ mid1 ++ mid2) ∧
    (trig = .high ∨ trig = .low → .w1c p b o ∉ ops ∧
      ∃ before mid : List MicroOp,
        ops = before ++ [.bclr p b .im o] ++ mid ++ [.bset p b .im o]) ∧
    (trig = .none → .w1c p b o ∉ ops ∧
      ∀ x, x = .im ∨ x = .is ∨ x = .ibe ∨ x = .iev →
        .bset p b x o ∉ ops ∧ .bclr p b x o ∉ ops)

/-- R51, R181, R184, R304: at a WAITRDY whose port is not ready the sequencer performs nothing and its index
stays, for as many steps as it takes, though what ends a step goes on; once the port is ready the step moves
on to the next micro-operation and does nothing else. In a DEFERRED build an engine command that configures
a pin whose port's clock is off so stands at its WAITRDY, the gate set, until the clock-ready agent's step
lifts the hold. -/
def Obligations.WaitReadyHolds : Prop :=
  (∀ (s : State) cmd ops i p, s.seq = .busy cmd ops i → ops[i]? = some (.waitRdy p) →
    (s.isReady p = false → sequencerStep s = s ∧ ∀ k,
      let t := seqRun k s
      t.seq = s.seq ∧ t.resp = s.resp ∧ t.trace = s.trace ∧ t.rcgc = s.rcgc ∧ t.ready = s.ready ∧
        t.armt = s.armt ∧ t.en = s.en ∧ RunFrame s t ∧
        ∀ q, t.port q = { s.port q with ris := (t.port q).ris }) ∧
    (s.isReady p = true → i + 1 < ops.length →
      sequencerStep s = { s with seq := .busy cmd ops (i + 1) })) ∧
  ∀ (s : State) cmd p o trig bus k, Configures s.par cmd p o trig bus →
    s.seq = .busy cmd (expand s.par cmd) 0 → s.par.clockReady = .deferred → s.isReady p = false →
    let t := seqRun (k + 1) s
    t.seq = .busy cmd (expand s.par cmd) 1 ∧ t.gateOn p = true ∧ t.isReady p = false ∧
      t.trace = s.trace ++ [.write s.par.map.rcgcAddr ((setBit s.rcgc p.index).setWidth 32)] ∧
      Underway cmd p 1 (endOfStep (clockBecomesReady p (beginStep t)))

/-- R183 to R195, R197, R304: from a state in which a CFG has just been loaded, with its port's clock ready or
becoming ready at once, or stands at its wait when the clock has become ready, the sequencer's steps complete
it without a fault: RESP is OK, the clock gate is set, the pin's bits are as configured, no other pin's bits
and no other port's registers change (RIS apart: RawStatusAfterTrigger), and the interrupt controller's
enable bits, priorities and active lines and the arming table are untouched. The premise `SiblingInv` is an
invariant (statement StepKeepsInv). -/
def Obligations.CfgCompletes : Prop :=
  ∀ (s : State) pin dir afen afcode pull drive sig trig bus i,
    let cmd : Instr := .cfg pin dir afen afcode pull drive sig trig bus
    let pn := resolvePin s.par pin bus
    Underway cmd pn.port i s → SiblingInv s → (bus = .ahb → s.par.ahbEnabled.get pn.port = true) →
    let t := seqRun ((expand s.par cmd).length - i) s
    t.seq = .idle ∧ t.resp = ⟨.ok, 0, 0, 0⟩ ∧
      CfgResult s.par.profile pn.off dir afen afcode pull drive sig trig (s.port pn.port)
        (t.port pn.port) ∧
      OthersKept pn.port s t ∧ t.rcgc = setBit s.rcgc pn.port.index ∧ t.isReady pn.port = true ∧
      t.armt = s.armt ∧ t.en = s.en ∧ RunFrame s t

/-- R180, R181, R222: the trace of the run of a CFG or an ARM is the list's own: each micro-operation but
WAITRDY and ARMSET emits one write event, in list order, at the address of the register it writes; the clock
gate's event carries the gates, and an ARM's last event is that of IRQEN at the line's SETENA word. -/
def Obligations.CfgTraceFollowsList : Prop :=
  ∀ (s : State) cmd p o trig bus i, Configures s.par cmd p o trig bus → Underway cmd p i s →
    (bus = .ahb → s.par.ahbEnabled.get p = true) →
    let setEna : Nat → Word := fun n => s.par.map.nvicBase + BitVec.ofNat 32 (0x100 + 4 * (n / 32))
    let addrs := ((expand s.par cmd).drop i).filterMap fun op =>
      match op with
      | .clkSet _ | .clkClr _ => some s.par.map.rcgcAddr
      | .bset p b x _ | .bclr p b x _ => some (regAddr s.par.map p b x)
      | .nib p b _ _ => some (regAddr s.par.map p b .pctl)
      | .w1c p b _ => some (regAddr s.par.map p b .icr)
      | .irqEn n => some (setEna n)
      | .waitRdy _ | .armSet _ _ | .armClr _ => none
    ∃ values : List Word,
      (seqRun ((expand s.par cmd).length - i) s).trace = s.trace ++ List.zipWith Event.write addrs values ∧
      values.length = addrs.length ∧
      (i = 0 → values.head? = some ((setBit s.rcgc p.index).setWidth 32)) ∧
      ∀ pin, cmd = .arm pin trig bus →
        addrs.getLast? = some (setEna (s.par.irqLine.get p)) ∧
        values.getLast? = some (1#32 <<< (s.par.irqLine.get p % 32))

/-- R197, R221: through a disabled AHB aperture the first register micro-operation of a CFG or an ARM faults:
the clock gate stays set, the port registers keep their values (RIS apart), RESP takes AHB_OFF at the address
of DIR, and neither ARMSET nor IRQEN is performed. -/
def Obligations.CfgFaultsAhbOff : Prop :=
  ∀ (s : State) cmd p o trig i, Configures s.par cmd p o trig .ahb → Underway cmd p i s →
    s.par.ahbEnabled.get p = false →
    let a := apertureBase s.par.map p .ahb + (regOffset s.par.map .dir).setWidth 32
    let t := seqRun (3 - i) s
    t.seq = .idle ∧ t.resp = ⟨.ahbOff, a, 0, 0⟩ ∧ t.gateOn p = true ∧
      (∀ q, t.port q = { s.port q with ris := (t.port q).ris }) ∧ t.armt = s.armt ∧ t.en = s.en ∧
      RunFrame s t ∧
      t.trace = s.trace ++
        (if i = 0 then [.write s.par.map.rcgcAddr ((setBit s.rcgc p.index).setWidth 32)] else [])
        ++ [.fault .ahbOff a]

/-- R193, R232, R312, R313: at the end of the run of a CFG or an ARM with an edge trigger, the pin's raw status
is 1 exactly if an edge of the new kind was sampled after its ICR micro-operation (the sample that ends that
micro-operation's own step counts); with a level trigger it is 1 exactly if the last sample is the active
level. The samples may be free values: the statement holds for every one. -/
def Obligations.RawStatusAfterTrigger : Prop :=
  ∀ (s : State) cmd p o trig bus i, Configures s.par cmd p o trig bus → Underway cmd p i s →
    (bus = .ahb → s.par.ahbEnabled.get p = true) →
    let ops := expand s.par cmd
    let t := seqRun (ops.length - i) s
    let sampleAt : Nat → Bool := fun j => ((seqRun j s).sampled.get p).getLsbD o
    let ris := (t.port p).ris.getLsbD o
    (trig = .rising ∨ trig = .falling ∨ trig = .both →
      ∃ w, ops[w]? = some (.w1c p bus o) ∧
        (ris = true ↔
          ∃ j, w ≤ i + j ∧ i + j < ops.length ∧ edgeOf trig (sampleAt j) (sampleAt (j + 1)) = true)) ∧
    (trig = .high → ris = sampleAt (ops.length - i)) ∧
    (trig = .low → ris = !sampleAt (ops.length - i))

/-- R201, R202: loading and running the same CFG a second time leaves every register of every port as the
first run left it, RIS apart. -/
def Obligations.CfgIsIdempotent : Prop :=
  ∀ (s : State) pin dir afen afcode pull drive sig trig bus i,
    let cmd : Instr := .cfg pin dir afen afcode pull drive sig trig bus
    let p := (resolvePin s.par pin bus).port
    Underway cmd p i s → SiblingInv s → (bus = .ahb → s.par.ahbEnabled.get p = true) →
    let t := seqRun ((expand s.par cmd).length - i) s
    let u := seqRun (expand s.par cmd).length { t with seq := .busy cmd (expand s.par cmd) 0 }
    u.seq = .idle ∧ (∀ q, u.port q = { t.port q with ris := (u.port q).ris }) ∧ u.rcgc = t.rcgc

/-- R221 to R225, R304: from a state in which an ARM of a valid pin has just been loaded, or stands at its wait
when the clock has become ready, the sequencer's steps complete it: the pin is an input with pull-up, 8 mA,
digital, its trigger programmed and unmasked, the clock gate is set, the port's slot names the offset, the
port's line is enabled and no other, and RESP reports the valid bit; the frame is as for CFG (the pin's RIS:
RawStatusAfterTrigger). -/
def Obligations.ArmCompletes : Prop :=
  ∀ (s : State) pin trig bus i,
    let cmd : Instr := .arm pin trig bus
    let pn := resolvePin s.par pin bus
    Underway cmd pn.port i s → pn.valid = true → SiblingInv s →
    (bus = .ahb → s.par.ahbEnabled.get pn.port = true) →
    let t := seqRun ((expand s.par cmd).length - i) s
    t.seq = .idle ∧ t.resp = ⟨.ok, 0, 0, 1⟩ ∧
      CfgResult s.par.profile pn.off .input false 0 .up .ma8 .digital trig (s.port pn.port)
        (t.port pn.port) ∧
      OthersKept pn.port s t ∧ t.rcgc = setBit s.rcgc pn.port.index ∧ t.isReady pn.port = true ∧
      t.armt = s.armt.set pn.port (some pn.off) ∧
      (∀ n : Nat, t.en.testBit n = (s.en.testBit n || n == s.par.irqLine.get pn.port)) ∧
      RunFrame s t

/-- R226, R227: DEINIT empties the port's slot and gates its clock, and keeps the enable bits, every other
slot and every register of every port (RIS apart); RESP reports the valid bit. -/
def Obligations.DeinitCompletes : Prop :=
  ∀ (s : State) (q : BitVec 3) (p : Port), portOfNumber q.toNat = some p →
    s.seq = .busy (.deinit q) (expand s.par (.deinit q)) 0 →
    let t := seqRun 2 s
    t.seq = .idle ∧ t.resp = ⟨.ok, 0, 0, 1⟩ ∧ t.armt = s.armt.set p none ∧
      t.gateOn p = false ∧ t.isReady p = false ∧
      (∀ p', p' ≠ p → t.gateOn p' = s.gateOn p' ∧ t.isReady p' = s.isReady p') ∧
      (∀ p', t.port p' = { s.port p' with ris := (t.port p').ris }) ∧ t.en = s.en ∧ RunFrame s t ∧
      t.trace = s.trace ++ [.write s.par.map.rcgcAddr ((clearBit s.rcgc p.index).setWidth 32)]

/-- R199, R200: CLKEN and CLKDIS of any port field, an invalid one acting on port A: the gate and the ready
bit of that port alone change, with one event; the registers keep their values (RIS apart). -/
def Obligations.ClockCommandsComplete : Prop :=
  ∀ (s : State) (q : BitVec 3),
    let p := (resolvePort s.par q .apb).port
    let rcgcAddr := s.par.map.rcgcAddr
    (s.seq = .busy (.clken q) (expand s.par (.clken q)) 0 →
      let t := seqRun 1 s
      t.seq = .idle ∧ t.resp = ⟨.ok, 0, 0, 0⟩ ∧
        (∀ p', t.gateOn p' = (s.gateOn p' || p' == p)) ∧
        (∀ p', t.isReady p' =
          (s.isReady p' || (p' == p && s.par.clockReady == .immediate))) ∧
        (∀ p', t.port p' = { s.port p' with ris := (t.port p').ris }) ∧
        t.armt = s.armt ∧ t.en = s.en ∧ RunFrame s t ∧
        t.trace = s.trace ++ [.write rcgcAddr (t.rcgc.setWidth 32)]) ∧
    (s.seq = .busy (.clkdis q) (expand s.par (.clkdis q)) 0 →
      let t := seqRun 1 s
      t.seq = .idle ∧ t.resp = ⟨.ok, 0, 0, 0⟩ ∧
        (∀ p', t.gateOn p' = (s.gateOn p' && p' != p) ∧
          t.isReady p' = (s.isReady p' && p' != p)) ∧
        (∀ p', t.port p' = { s.port p' with ris := (t.port p').ris }) ∧
        t.armt = s.armt ∧ t.en = s.en ∧ RunFrame s t ∧
        t.trace = s.trace ++ [.write rcgcAddr (t.rcgc.setWidth 32)])

/-- R181: what BSET (`v` true) and BCLR (`v` false) do on an accessible port to every register the engine
writes, NIB to PCTL and W1C to RIS. Each emits one event with the value written: the register's old value
with the named bit replaced. DIR, IM, ODR and AMSEL become that value; AFSEL, PUR, PDR and DEN take the named
bit where it is committed (R262), and a pull register then clears the other one's committed bits that are 1 in
the value, under `TM4C123` (R261); a drive register becomes the value and the other two lose its bits, under
`TM4C123` (R260); IS, IBE and IEV become the value, and where the named bit changes the pin's RIS may be set,
by a free value (R265). Nothing else changes. -/
def Obligations.MicroOperationEffects : Prop :=
  ∀ (s : State) (p : Port) (b : Bus) (o : Off), Accessible p b s →
    let r := s.port p
    let clears : Byte → Byte → Byte → Prop := fun w old new =>
      ∀ k : Off, new.getLsbD k = (old.getLsbD k && !(decide (s.par.profile = .tm4c123) && w.getLsbD k))
    let clearsCommitted : Byte → Byte → Byte → Prop := fun w old new =>
      ∀ k : Off, new.getLsbD k =
        (old.getLsbD k && !(decide (s.par.profile = .tm4c123) && w.getLsbD k && r.cr.getLsbD k))
    let free := (Config.freeByte s.tick .spurious).getLsbD o
    (∀ v : Bool,
      let does : Reg → Byte → PortRegs → Prop := fun x w r' =>
        runOp (if v then .bset p b x o else .bclr p b x o) s = .done
          { s with
            regs := s.regs.set p r'
            trace := s.trace ++ [.write (regAddr s.par.map p b x) (w.setWidth 32)] }
      let committedTo : Byte → Byte → Prop := fun old new =>
        OnlyBit o (if committed s.par.profile r o then v else old.getLsbD o) old new
      let drawn : Byte → Byte → Prop := fun old ris =>
        OnlyBit o (r.ris.getLsbD o || (old.getLsbD o != v && free)) r.ris ris
      (∃ w, OnlyBit o v r.dir w ∧ does .dir w { r with dir := w }) ∧
      (∃ w, OnlyBit o v r.im w ∧ does .im w { r with im := w }) ∧
      (∃ w, OnlyBit o v r.odr w ∧ does .odr w { r with odr := w }) ∧
      (∃ w, OnlyBit o v r.amsel w ∧ does .amsel w { r with amsel := w }) ∧
      (∃ w new, OnlyBit o v r.afsel w ∧ committedTo r.afsel new ∧ does .afsel w { r with afsel := new }) ∧
      (∃ w new, OnlyBit o v r.den w ∧ committedTo r.den new ∧ does .den w { r with den := new }) ∧
      (∃ w new other, OnlyBit o v r.pur w ∧ committedTo r.pur new ∧ clearsCommitted w r.pdr other ∧
        does .pur w { r with pur := new, pdr := other }) ∧
      (∃ w new other, OnlyBit o v r.pdr w ∧ committedTo r.pdr new ∧ clearsCommitted w r.pur other ∧
        does .pdr w { r with pdr := new, pur := other }) ∧
      (∃ w x y, OnlyBit o v r.dr2r w ∧ clears w r.dr4r x ∧ clears w r.dr8r y ∧
        does .dr2r w { r with dr2r := w, dr4r := x, dr8r := y }) ∧
      (∃ w x y, OnlyBit o v r.dr4r w ∧ clears w r.dr2r x ∧ clears w r.dr8r y ∧
        does .dr4r w { r with dr4r := w, dr2r := x, dr8r := y }) ∧
      (∃ w x y, OnlyBit o v r.dr8r w ∧ clears w r.dr2r x ∧ clears w r.dr4r y ∧
        does .dr8r w { r with dr8r := w, dr2r := x, dr4r := y }) ∧
      (∃ w ris, OnlyBit o v r.is w ∧ drawn r.is ris ∧ does .is w { r with is := w, ris := ris }) ∧
      (∃ w ris, OnlyBit o v r.ibe w ∧ drawn r.ibe ris ∧ does .ibe w { r with ibe := w, ris := ris }) ∧
      ∃ w ris, OnlyBit o v r.iev w ∧ drawn r.iev ris ∧ does .iev w { r with iev := w, ris := ris }) ∧
    (∀ c : BitVec 4, ∃ pctl : Word,
      (∀ k : Off, pctlField pctl k = if k = o then c else pctlField r.pctl k) ∧
      runOp (.nib p b o c) s = .done
        { s with
          regs := s.regs.set p { r with pctl := pctl }
          trace := s.trace ++ [.write (regAddr s.par.map p b .pctl) pctl] }) ∧
    ∃ ris : Byte, OnlyBit o false r.ris ris ∧
      runOp (.w1c p b o) s = .done
        { s with
          regs := s.regs.set p { r with ris := ris }
          trace := s.trace ++ [.write (regAddr s.par.map p b .icr) (1#32 <<< o.val)] }

/-! ### Detection, lines, delivery -/

/-- R312: edge detection at the end of a step, for each pin of a ready port with IS = 0. -/
def Obligations.EdgeDetection : Prop :=
  ∀ (s : State) (p : Port) (o : Off), s.isReady p = true → (s.port p).is.getLsbD o = false →
    let before := (s.sampled.get p).getLsbD o
    let now := ((endOfStep s).sampled.get p).getLsbD o
    let event :=
      if (s.port p).ibe.getLsbD o = true then before != now
      else if (s.port p).iev.getLsbD o = true then !before && now
      else before && !now
    ((endOfStep s).port p).ris.getLsbD o = ((s.port p).ris.getLsbD o || event)

/-- R313: level detection at the end of a step, for each pin of a ready port with IS = 1. -/
def Obligations.LevelDetection : Prop :=
  ∀ (s : State) (p : Port) (o : Off), s.isReady p = true → (s.port p).is.getLsbD o = true →
    ((endOfStep s).port p).ris.getLsbD o =
      (((endOfStep s).sampled.get p).getLsbD o == (s.port p).iev.getLsbD o)

/-- R311, R340: the new sample of a ready port is the pin's level where the pin is present and digitally
enabled and a free value elsewhere; an unready port keeps its sample and its registers; no end of step
changes any register but RIS. That the level sampled is the one after the pad constraints of the same step is
the model's reading (log entry 9), and the free value is that of log entry 8. -/
def Obligations.Sampling : Prop :=
  ∀ (s : State) (p : Port),
    (s.isReady p = false →
      (endOfStep s).port p = s.port p ∧ (endOfStep s).sampled.get p = s.sampled.get p) ∧
    (s.isReady p = true → ∀ o : Off,
      ((endOfStep s).sampled.get p).getLsbD o =
        if (s.port p).den.getLsbD o = true ∧ (s.par.pinPresent.get p).getLsbD o = true then
          ((endOfStep s).level.get p).getLsbD o
        else (Config.freeByte s.tick (.sample p)).getLsbD o) ∧
    (endOfStep s).port p = { s.port p with ris := ((endOfStep s).port p).ris }

/-- R310: the pad constraints hold at the end of every step. R310 leaves the level of every other pin free; that
it keeps the level it had, until the environment sets another, is the model's choice (log entry 6). -/
def Obligations.PadConstraints : Prop :=
  ∀ (s : State) (p : Port) (o : Off),
    let r := s.port p
    let level := ((endOfStep s).level.get p).getLsbD o
    let driven := (s.par.pinPresent.get p).getLsbD o = true ∧ r.dir.getLsbD o = true ∧
      r.den.getLsbD o = true ∧ r.afsel.getLsbD o = false
    (driven → r.odr.getLsbD o = false → level = r.data.getLsbD o) ∧
    (driven → r.odr.getLsbD o = true → r.data.getLsbD o = false → level = false) ∧
    (¬driven ∨ (r.odr.getLsbD o = true ∧ r.data.getLsbD o = true) →
      level = (s.level.get p).getLsbD o)

/-- R305 to R307: the level of each line, and the pending update at the end of every step. That a line which
several ports share is asserted when any of them asserts it is the model's choice (log entry 25). -/
def Obligations.PendingUpdate : Prop :=
  ∀ (s : State) (n : Nat), n < s.par.nIrq →
    ((∃ p, s.par.irqLine.get p = n) → ((lineLevels s).testBit n = true ↔
      ∃ p, s.par.irqLine.get p = n ∧ (s.port p).ris &&& (s.port p).im ≠ 0)) ∧
    ((∀ p, s.par.irqLine.get p ≠ n) → (lineLevels s).testBit n = s.xline.testBit n) ∧
    (endOfStep s).pend.testBit n =
      (s.pend.testBit n || ((lineLevels (endOfStep s)).testBit n && !s.act.testBit n))

/-- R317 to R319: a line the arbiter offers is enabled, pending and strictly more urgent than every active
line, and no other such line has a smaller priority value, or the same value and a smaller number; when it
offers none there is no such line. The premise `LineInv` is an invariant (statement StepKeepsInv). -/
def Obligations.ArbiterChoosesMostUrgent : Prop :=
  ∀ s : State, LineInv s →
    let candidate : Nat → Prop := fun n =>
      s.en.testBit n = true ∧ s.pend.testBit n = true ∧
        ∀ m, s.act.testBit m = true → s.priority n < s.priority m
    (∀ n, arbiter s = some n → candidate n ∧
      ∀ m, candidate m → s.priority n < s.priority m ∨ (s.priority n = s.priority m ∧ n ≤ m)) ∧
    (arbiter s = none → ∀ n, ¬candidate n)

/-- R320: an acknowledge with the sequencer idle moves the arbiter's line from pending to active, pushes it
and emits its event. That a core's turn changes nothing while the sequencer is busy or no line is deliverable
is the model's reading (log entry 3). -/
def Obligations.AcknowledgeEffect : Prop :=
  ∀ s : State,
    (∀ n, s.seq = .idle → arbiter s = some n →
      ∃ pend act : LineBits,
        acknowledge s = { s with
          pend := pend, act := act, stack := n :: s.stack, trace := s.trace ++ [.ack n] } ∧
        ∀ m : Nat, pend.testBit m = (s.pend.testBit m && m != n) ∧
          act.testBit m = (s.act.testBit m || m == n)) ∧
    (arbiter s = none → acknowledge s = s) ∧
    (s.seq ≠ .idle → acknowledge s = s)

/-- R321: an end of interrupt pops the most recently acknowledged line and makes it inactive; a line still
asserted is pending again at the end of the same step. -/
def Obligations.EndOfInterruptEffect : Prop :=
  ∀ (s : State) (n : Nat) (rest : List Nat), s.seq = .idle → s.stack = n :: rest →
    (∃ act : LineBits,
      endOfInterrupt s = { s with act := act, stack := rest, trace := s.trace ++ [.eoi n] } ∧
      ∀ m : Nat, act.testBit m = (s.act.testBit m && m != n)) ∧
    ((lineLevels (endOfStep (endOfInterrupt s))).testBit n = true →
      (endOfStep (endOfInterrupt s)).pend.testBit n = true)

/-! ### The whole machine -/

/-- Every step keeps the invariant: ready ports are clocked (R44), no port is locked under `NEUTRAL` (R39),
the sequencer runs its command's own list within its bounds (R51, R102), the active stack names the active
lines (R320, R321), only the lines below `N_IRQ` have enable, pending and active bits and a priority has
`PRIO_BITS` bits (R46 to R49), and under `TM4C123` no pin holds two tiers or both pulls (U4, R260, R261). -/
def Obligations.StepKeepsInv : Prop := ∀ s t : State, Inv s → step s = .next t → Inv t

/-- The invariant holds after reset, for every choice of the parameters; and the default parameters are in the
ranges of R9, with a sound address map. -/
def Obligations.ResetHasInv : Prop :=
  Inv State.reset ∧ ParamsInRange State.reset.par ∧ MapSound State.reset.par ∧
    ∀ par : Params, Inv (State.resetWith par)

/-- R56, R57: the reset values the spec states, under both profiles, and the default values of the parameters
that are not addresses (R9; the addresses: DecodeWindows). RESP and the model's own fields are left out: their
values are the model's (log entries 2 to 8). R57 lists no active stack; that it is empty is the model's
reading (log entry 13). -/
def Obligations.ResetValues : Prop :=
  (∀ par : Params,
    let s := State.resetWith par
    (∀ p, s.sampled.get p = 0 ∧ s.armt.get p = none ∧ s.gateOn p = false ∧ s.isReady p = false) ∧
    s.en = 0 ∧ s.pend = 0 ∧ s.act = 0 ∧ (∀ n, n < par.nIrq → s.pri[n]? = some 0) ∧
    s.pri.length = par.nIrq ∧ s.seq = .idle ∧ s.trace = [] ∧ s.stack = [] ∧ s.par = par) ∧
  (State.reset = State.resetWith (defaultParams .tm4c123) ∧
    ∀ prof : Profile,
      let d := defaultParams prof
      d.profile = prof ∧ d.pinScheme = .zero ∧ d.clockReady = .deferred ∧
      (∀ p, d.ahbEnabled.get p = true) ∧
      (∀ p, d.pinPresent.get p =
        if prof = .neutral then 0xFF else if p = .E then 0x3F else if p = .F then 0x1F else 0xFF) ∧
      (∀ p, d.irqLine.get p = if p = .F then 30 else p.index) ∧ d.nIrq = 160 ∧ d.prioBits = 3) ∧
  (∀ (par : Params) (p : Port), par.profile = .tm4c123 →
    let r := (State.resetWith par).port p
    r.data = 0 ∧ r.dir = 0 ∧ r.is = 0 ∧ r.ibe = 0 ∧ r.iev = 0 ∧ r.im = 0 ∧ r.ris = 0 ∧
    r.dr2r = 0xFF ∧ r.dr4r = 0 ∧ r.dr8r = 0 ∧ r.odr = 0 ∧ r.pdr = 0 ∧ r.slr = 0 ∧
    r.locked = true ∧ r.amsel = 0 ∧ r.adcctl = 0 ∧ r.dmactl = 0 ∧
    r.afsel = (if p = .C then 0x0F else 0) ∧ r.pur = (if p = .C then 0x0F else 0) ∧
    r.den = (if p = .C then 0x0F else 0) ∧
    r.cr = (if p = .C then 0xF0 else if p = .D then 0x7F else if p = .F then 0xFE else 0xFF) ∧
    r.pctl = (if p = .A then 0x00222211 else if p = .B then 0x00003300
      else if p = .C then 0x00001111 else 0)) ∧
  (∀ (par : Params) (p : Port), par.profile = .neutral →
    let r := (State.resetWith par).port p
    r.data = 0 ∧ r.dir = 0 ∧ r.is = 0 ∧ r.ibe = 0 ∧ r.iev = 0 ∧ r.im = 0 ∧ r.ris = 0 ∧
    r.afsel = 0 ∧ r.dr2r = 0 ∧ r.dr4r = 0 ∧ r.dr8r = 0 ∧ r.odr = 0 ∧ r.pur = 0 ∧ r.pdr = 0 ∧
    r.slr = 0 ∧ r.den = 0 ∧ r.locked = false ∧ r.cr = 0 ∧ r.amsel = 0 ∧ r.pctl = 0 ∧
    r.adcctl = 0 ∧ r.dmactl = 0)

/-- R45 to R49, R308: but for a reset, the arming table is written only by ARMSET and ARMCLR; an active bit is
set only by the acknowledgement of its line and cleared only by its end of interrupt; and, where the address
map is sound, the enable bits only by IRQEN and by a WRA to a SETENA or CLRENA word, the priorities only by a
WRA to a priority word, and a pending bit is cleared only by the acknowledgement of its line and by a WRA to
the CLRPEND word that names it, and set only where its line is asserted while not active or by a WRA to the
SETPEND word that names it. That the parameters of R9 are data in State, which no step changes, is the model's
choice (log entry 1). The premise `MapSound` speaks of parameters alone, so every step keeps it, and the
default map meets it (ResetHasInv); under a map in which a port's window runs over the top of the address
space, a port-relative write could reach a word of the interrupt controller. -/
def Obligations.WritersOfControlState : Prop :=
  ∀ s t : State, step s = .next t →
    let sequencerRuns : MicroOp → Prop := fun op =>
      nextTurn s = .sequencer ∧ ∃ cmd ops i, s.seq = .busy cmd ops i ∧ ops[i]? = some op
    let accepts : Instr → Prop := fun i =>
      nextTurn s = .port ∧ s.seq = .idle ∧ ∃ rest, decodeStream s.stream = .command i rest
    let namesLine : NvKind → Nat → Prop := fun kind n =>
      ∃ a d, accepts (.wra a d) ∧ decodeAddr s.par a = .nv kind (n / 32) ∧ d.getLsbD (n % 32) = true
    let acknowledges : Nat → Prop := fun n => nextTurn s = .ack ∧ s.seq = .idle ∧ arbiter s = some n
    t.par = s.par ∧
    (nextTurn s ≠ .reset →
      (t.armt ≠ s.armt → ∃ p, sequencerRuns (.armClr p) ∨ ∃ o, sequencerRuns (.armSet p o)) ∧
      (∀ n : Nat, s.act.testBit n = false → t.act.testBit n = true → acknowledges n) ∧
      (∀ n : Nat, s.act.testBit n = true → t.act.testBit n = false →
        nextTurn s = .eoi ∧ s.seq = .idle ∧ ∃ rest, s.stack = n :: rest) ∧
      (MapSound s.par →
        (t.en ≠ s.en →
          (∃ n, sequencerRuns (.irqEn n)) ∨
          ∃ a d k, accepts (.wra a d) ∧
            (decodeAddr s.par a = .nv .setEna k ∨ decodeAddr s.par a = .nv .clrEna k)) ∧
        (t.pri ≠ s.pri → ∃ a d k, accepts (.wra a d) ∧ decodeAddr s.par a = .nv .pri k) ∧
        (∀ n : Nat, s.pend.testBit n = true → t.pend.testBit n = false →
          acknowledges n ∨ namesLine .clrPend n) ∧
        ∀ n : Nat, s.pend.testBit n = false → t.pend.testBit n = true →
          ((lineLevels t).testBit n = true ∧ t.act.testBit n = false) ∨ namesLine .setPend n))

/-- R104: while a command is in progress, a step of any agent but the sequencer (and but a reset) leaves the
sequencer where it is and every port's registers as they are, RIS apart. -/
def Obligations.BusyCommandUndisturbed : Prop :=
  ∀ s t : State, s.seq ≠ .idle → nextTurn s ≠ .sequencer → nextTurn s ≠ .reset → step s = .next t →
    t.seq = s.seq ∧ t.resp = s.resp ∧ t.rcgc = s.rcgc ∧ t.trace = s.trace ∧
      ∀ p, t.port p = { s.port p with ris := (t.port p).ris }

end
end

