-- ==== Sys2Proof/Laws/Decode.lean ====
section
/-! SUPPORT. The fields of a word as quotients and remainders, the values of the encoded words, and the
inverse of each field's code. -/

namespace Sys2Proof

theorem field_eq (w : Word) (lo len : Nat) : field w lo len = w.toNat / 2 ^ lo % 2 ^ len := by
  simp [field, BitVec.extractLsb'_toNat, Nat.shiftRight_eq_div_pow]

theorem zeroField_iff (w : Word) (lo len : Nat) : zeroField w lo len = true ↔ field w lo len = 0 := by
  simp [zeroField]

theorem zeroField_of (w : Word) (lo len : Nat) (h : field w lo len = 0) : zeroField w lo len = true :=
  (zeroField_iff w lo len).mpr h

theorem extract_eq (w : Word) (lo len : Nat) (v : BitVec len) (h : field w lo len = v.toNat) :
    w.extractLsb' lo len = v := BitVec.eq_of_toNat_eq h

/-- A list of words is read as a command exactly when it holds as many words as word 0's opcode asks for. -/
theorem decodeStream_cons (w : Word) (operands : List Word) (h : commandLength w - 1 ≤ operands.length) :
    decodeStream (w :: operands) =
      match decodeCommand w (operands.getD 0 0) (operands.getD 1 0) with
      | .ok i => .command i (operands.drop (commandLength w - 1))
      | .error why => .illegal w why (operands.drop (commandLength w - 1)) := by
  exact if_neg (by omega)

theorem commandLength_pos (w : Word) : 1 ≤ commandLength w := by
  unfold commandLength
  split <;> decide

/-- A command of one word is read from its word 0 alone. -/
theorem decodeStream_one (w : Word) (rest : List Word) (i : Instr) (h : commandLength w = 1)
    (hd : ∀ a b, decodeCommand w a b = .ok i) : decodeStream (w :: rest) = .command i rest := by
  rw [decodeStream_cons _ _ (by rw [h]; exact Nat.zero_le _), h, hd]
  rfl

/-- A command of two words takes word 1. -/
theorem decodeStream_two (w w1 : Word) (rest : List Word) (i : Instr) (h : commandLength w = 2)
    (hd : ∀ b, decodeCommand w w1 b = .ok i) : decodeStream (w :: w1 :: rest) = .command i rest := by
  rw [decodeStream_cons _ _ (by rw [h]; exact Nat.le_add_left _ _), h, List.getD_cons_zero, hd]
  rfl

/-- A command of three words takes words 1 and 2. -/
theorem decodeStream_three (w w1 w2 : Word) (rest : List Word) (i : Instr) (h : commandLength w = 3)
    (hd : decodeCommand w w1 w2 = .ok i) : decodeStream (w :: w1 :: w2 :: rest) = .command i rest := by
  rw [decodeStream_cons _ _ (by rw [h]; exact Nat.le_add_left _ _), h, List.getD_cons_zero,
    List.getD_cons_succ, List.getD_cons_zero, hd]
  rfl

/-! ### When a check and a field let decoding go on -/

theorem checked_ok {α : Type} (ok : Bool) (why : Reject) (k : Except Reject α) (i : α) :
    checked ok why k = .ok i ↔ ok = true ∧ k = .ok i := by
  cases ok <;> simp [checked]

theorem checked_error {α : Type} (ok : Bool) (why e : Reject) (k : Except Reject α) :
    checked ok why k = .error e ↔ (ok = false ∧ why = e) ∨ (ok = true ∧ k = .error e) := by
  cases ok <;> simp [checked]

theorem map_ok {α β : Type} (g : α → β) (x : Except Reject α) (b : β) :
    x.map g = .ok b ↔ ∃ a, x = .ok a ∧ g a = b := by
  cases x <;> simp [Except.map]

theorem driveField_some (w : Word) : (∃ x, driveField w = some x) ↔ field w 11 2 ≠ 3 := by
  have : field w 11 2 < 2 ^ 2 := BitVec.isLt _
  unfold driveField
  split <;> simp_all
  omega

theorem trigField_some (w : Word) : (∃ x, trigField w = some x) ↔ field w 7 3 ≤ 5 := by
  have : field w 7 3 < 2 ^ 3 := BitVec.isLt _
  unfold trigField
  split <;> simp_all
  omega

theorem decodeCfg_ok (w : Word) (i : Instr) :
    decodeCfg w = .ok i ↔
      field w 0 6 = 0 ∧ (field w 19 1 ≠ 0 ∨ field w 15 4 = 0) ∧
        ∃ drive trig, driveField w = some drive ∧ trigField w = some trig ∧
          i = .cfg (pinField w) (dirField w) (!zeroField w 19 1) (w.extractLsb' 15 4) (pullField w) drive
            (sigField w) trig (busField w) := by
  rw [decodeCfg, checked_ok]
  cases driveField w with
  | none => simp
  | some drive =>
    cases trigField w with
    | none => simp
    | some trig => simp [checked_ok, zeroField, eq_comm (b := i)]

theorem decodeArm_ok (w : Word) (i : Instr) :
    decodeArm w = .ok i ↔
      field w 10 11 = 0 ∧ field w 0 6 = 0 ∧
        ∃ trig, trigField w = some trig ∧ i = .arm (pinField w) trig (busField w) := by
  rw [decodeArm, checked_ok]
  cases trigField w with
  | none => simp
  | some trig => simp [zeroField, eq_comm (b := i), and_assoc]

theorem decodePort_ok (w : Word) (q : BitVec 3) :
    decodePort w = .ok q ↔ field w 24 4 = 0 ∧ field w 0 21 = 0 ∧ q = portField w := by
  rw [decodePort, checked_ok]
  simp [zeroField, eq_comm (b := q), and_assoc]

theorem decodeResolve_ok (w : Word) (i : Instr) :
    decodeResolve w = .ok i ↔
      field w 7 14 = 0 ∧ field w 0 5 = 0 ∧ (field w 5 1 = 0 ∨ field w 24 4 = 0) ∧
        i = .resolve (pinField w) (busField w) (kindField w) := by
  rw [decodeResolve, checked_ok, checked_ok]
  simp [zeroField, eq_comm (b := i), and_assoc]

theorem decodeAccess_ok (w : Word) (x : BitVec 3 × BitVec 12 × Bus) :
    decodeAccess w = .ok x ↔
      field w 24 4 = 0 ∧ field w 20 1 = 0 ∧ field w 7 1 = 0 ∧ field w 0 6 = 0 ∧
        x = (portField w, w.extractLsb' 8 12, busField w) := by
  rw [decodeAccess, checked_ok]
  simp [zeroField, eq_comm (b := x), and_assoc]

/-! ### The codes, bounded and invertible -/

theorem Bus.code_lt (b : Bus) : b.code < 2 := by cases b <;> decide
theorem Dir.code_lt (d : Dir) : d.code < 2 := by cases d <;> decide
theorem Pull.code_lt (x : Pull) : x.code < 4 := by cases x <;> decide
theorem Drive.code_lt (x : Drive) : x.code < 3 := by cases x <;> decide
theorem Sig.code_lt (x : Sig) : x.code < 2 := by cases x <;> decide
theorem Trig.code_lt (x : Trig) : x.code < 6 := by cases x <;> decide
theorem SelKind.code_lt (x : SelKind) : x.code < 2 := by cases x <;> decide
theorem toNat_lt_two (b : Bool) : b.toNat < 2 := by cases b <;> decide

theorem busField_of (w : Word) (b : Bus) (h : field w 6 1 = b.code) : busField w = b := by
  cases b <;> simp [busField, zeroField, h, Bus.code]

theorem dirField_of (w : Word) (d : Dir) (h : field w 20 1 = d.code) : dirField w = d := by
  cases d <;> simp [dirField, zeroField, h, Dir.code]

theorem pullField_of (w : Word) (x : Pull) (h : field w 13 2 = x.code) : pullField w = x := by
  cases x <;> simp [pullField, h, Pull.code]

theorem driveField_of (w : Word) (x : Drive) (h : field w 11 2 = x.code) : driveField w = some x := by
  cases x <;> simp [driveField, h, Drive.code]

theorem sigField_of (w : Word) (x : Sig) (h : field w 10 1 = x.code) : sigField w = x := by
  cases x <;> simp [sigField, zeroField, h, Sig.code]

theorem trigField_of (w : Word) (x : Trig) (h : field w 7 3 = x.code) : trigField w = some x := by
  cases x <;> simp [trigField, h, Trig.code]

theorem kindField_of (w : Word) (x : SelKind) (h : field w 5 1 = x.code) : kindField w = x := by
  cases x <;> simp [kindField, zeroField, h, SelKind.code]

theorem field_lt (w : Word) (lo len : Nat) : field w lo len < 2 ^ len := BitVec.isLt _

theorem busField_code (w : Word) : (busField w).code = field w 6 1 := by
  have := field_lt w 6 1
  unfold busField zeroField
  split <;> (simp_all [Bus.code]; try omega)

theorem dirField_code (w : Word) : (dirField w).code = field w 20 1 := by
  have := field_lt w 20 1
  unfold dirField zeroField
  split <;> (simp_all [Dir.code]; try omega)

theorem sigField_code (w : Word) : (sigField w).code = field w 10 1 := by
  have := field_lt w 10 1
  unfold sigField zeroField
  split <;> (simp_all [Sig.code]; try omega)

theorem kindField_code (w : Word) : (kindField w).code = field w 5 1 := by
  have := field_lt w 5 1
  unfold kindField zeroField
  split <;> (simp_all [SelKind.code]; try omega)

theorem afen_code (w : Word) : (!zeroField w 19 1).toNat = field w 19 1 := by
  have := field_lt w 19 1
  by_cases h : field w 19 1 = 0
  · simp [zeroField, h]
  · have : field w 19 1 = 1 := by omega
    simp [zeroField, this]

theorem pullField_code (w : Word) : (pullField w).code = field w 13 2 := by
  have := field_lt w 13 2
  unfold pullField
  split <;> (simp_all [Pull.code]; try omega)

theorem driveField_code (w : Word) (x : Drive) (h : driveField w = some x) : x.code = field w 11 2 := by
  unfold driveField at h
  split at h <;> simp_all [Drive.code] <;> subst h <;> rfl

theorem trigField_code (w : Word) (x : Trig) (h : trigField w = some x) : x.code = field w 7 3 := by
  unfold trigField at h
  split at h <;> simp_all [Trig.code] <;> subst h <;> rfl

/-! ### The values of encoded words -/

theorem cfgWord_toNat (pin dir afen afcode pull drive sig trig bus) :
    (cfgWord pin dir afen afcode pull drive sig trig bus).toNat =
      0x1 * 2 ^ 28 + pin.toNat * 2 ^ 21 + dir.code * 2 ^ 20 + afen.toNat * 2 ^ 19
        + afcode.toNat * 2 ^ 15 + pull.code * 2 ^ 13 + drive.code * 2 ^ 11 + sig.code * 2 ^ 10
        + trig.code * 2 ^ 7 + bus.code * 2 ^ 6 := by
  have := pin.isLt; have := afcode.isLt; have := dir.code_lt; have := toNat_lt_two afen
  have := pull.code_lt; have := drive.code_lt; have := sig.code_lt; have := trig.code_lt
  have := bus.code_lt
  rw [cfgWord, BitVec.toNat_ofNat, Nat.mod_eq_of_lt]
  omega

theorem armWord_toNat (pin trig bus) :
    (armWord pin trig bus).toNat =
      0x2 * 2 ^ 28 + pin.toNat * 2 ^ 21 + trig.code * 2 ^ 7 + bus.code * 2 ^ 6 := by
  have := pin.isLt; have := trig.code_lt; have := bus.code_lt
  rw [armWord, BitVec.toNat_ofNat, Nat.mod_eq_of_lt]
  omega

theorem portWord_toNat (op : Nat) (port) (h : op < 16) :
    (portWord op port).toNat = op * 2 ^ 28 + port.toNat * 2 ^ 21 := by
  have := port.isLt
  rw [portWord, BitVec.toNat_ofNat, Nat.mod_eq_of_lt]
  omega

theorem resolveWord_toNat (sel bus kind) :
    (resolveWord sel bus kind).toNat =
      0x4 * 2 ^ 28 + sel.toNat * 2 ^ 21 + bus.code * 2 ^ 6 + kind.code * 2 ^ 5 := by
  have := sel.isLt; have := bus.code_lt; have := kind.code_lt
  rw [resolveWord, BitVec.toNat_ofNat, Nat.mod_eq_of_lt]
  omega

theorem accessWord_toNat (op : Nat) (port off bus) (h : op < 16) :
    (accessWord op port off bus).toNat =
      op * 2 ^ 28 + port.toNat * 2 ^ 21 + off.toNat * 2 ^ 8 + bus.code * 2 ^ 6 := by
  have := port.isLt; have := off.isLt; have := bus.code_lt
  rw [accessWord, BitVec.toNat_ofNat, Nat.mod_eq_of_lt]
  omega

/-! ### The fields of encoded words -/

theorem cfgWord_fields (pin dir afen afcode pull drive sig trig bus) :
    let w := cfgWord pin dir afen afcode pull drive sig trig bus
    field w 28 4 = 1 ∧ field w 0 6 = 0 ∧ field w 21 7 = pin.toNat ∧ field w 20 1 = dir.code ∧
      field w 19 1 = afen.toNat ∧ field w 15 4 = afcode.toNat ∧ field w 13 2 = pull.code ∧
      field w 11 2 = drive.code ∧ field w 10 1 = sig.code ∧ field w 7 3 = trig.code ∧
      field w 6 1 = bus.code := by
  have := pin.isLt; have := afcode.isLt; have := dir.code_lt; have := toNat_lt_two afen
  have := pull.code_lt; have := drive.code_lt; have := sig.code_lt; have := trig.code_lt
  have := bus.code_lt
  simp only [field_eq, cfgWord_toNat]
  refine ⟨?_, ?_, ?_, ?_, ?_, ?_, ?_, ?_, ?_, ?_, ?_⟩ <;> omega

theorem armWord_fields (pin trig bus) :
    let w := armWord pin trig bus
    field w 28 4 = 2 ∧ field w 10 11 = 0 ∧ field w 0 6 = 0 ∧ field w 21 7 = pin.toNat ∧
      field w 7 3 = trig.code ∧ field w 6 1 = bus.code := by
  have := pin.isLt; have := trig.code_lt; have := bus.code_lt
  simp only [field_eq, armWord_toNat]
  refine ⟨?_, ?_, ?_, ?_, ?_, ?_⟩ <;> omega

theorem portWord_fields (op : Nat) (port) (h : op < 16) :
    let w := portWord op port
    field w 28 4 = op ∧ field w 24 4 = 0 ∧ field w 0 21 = 0 ∧ field w 21 3 = port.toNat := by
  have := port.isLt
  simp only [field_eq, portWord_toNat op port h]
  refine ⟨?_, ?_, ?_, ?_⟩ <;> omega

theorem resolveWord_fields (sel bus kind) :
    let w := resolveWord sel bus kind
    field w 28 4 = 4 ∧ field w 7 14 = 0 ∧ field w 0 5 = 0 ∧ field w 21 7 = sel.toNat ∧
      field w 24 4 = sel.toNat / 8 ∧ field w 6 1 = bus.code ∧ field w 5 1 = kind.code := by
  have := sel.isLt; have := bus.code_lt; have := kind.code_lt
  simp only [field_eq, resolveWord_toNat]
  refine ⟨?_, ?_, ?_, ?_, ?_, ?_, ?_⟩ <;> omega

theorem accessWord_fields (op : Nat) (port off bus) (h : op < 16) :
    let w := accessWord op port off bus
    field w 28 4 = op ∧ field w 24 4 = 0 ∧ field w 20 1 = 0 ∧ field w 7 1 = 0 ∧ field w 0 6 = 0 ∧
      field w 21 3 = port.toNat ∧ field w 8 12 = off.toNat ∧ field w 6 1 = bus.code := by
  have := port.isLt; have := off.isLt; have := bus.code_lt
  simp only [field_eq, accessWord_toNat op port off bus h]
  refine ⟨?_, ?_, ?_, ?_, ?_, ?_, ?_, ?_⟩ <;> omega

end Sys2Proof
end

