-- ==== Sys2Proof/Laws/State.lean ====
section
/-! SUPPORT. One lemma for each field of State and each shared update: what the update leaves in the field. -/

namespace Sys2Proof

/-! ### Per-port tables -/

@[simp] theorem PerPort.get_set_self {α : Type} (v : PerPort α) (p : Port) (x : α) :
    (v.set p x).get p = x := by cases p <;> rfl

@[simp] theorem PerPort.get_set_ne {α : Type} (v : PerPort α) {p q : Port} (x : α) (h : q ≠ p) :
    (v.set p x).get q = v.get q := by cases p <;> cases q <;> first | rfl | exact absurd rfl h

theorem PerPort.get_set {α : Type} (v : PerPort α) (p q : Port) (x : α) :
    (v.set p x).get q = if q = p then x else v.get q := by cases p <;> cases q <;> rfl

@[simp] theorem PerPort.get_ofFn {α : Type} (g : Port → α) (p : Port) : (PerPort.ofFn g).get p = g p := by
  cases p <;> rfl

@[simp] theorem PerPort.get_const {α : Type} (x : α) (p : Port) : (PerPort.const x).get p = x := by
  cases p <;> rfl

theorem PerPort.ext_get {α : Type} {v w : PerPort α} (h : ∀ p, v.get p = w.get p) : v = w := by
  obtain ⟨a, b, c, d, e, f⟩ := v
  obtain ⟨a', b', c', d', e', f'⟩ := w
  have := h .A; have := h .B; have := h .C; have := h .D; have := h .E; have := h .F
  simp_all [PerPort.get]

@[simp] theorem PerPort.ofFn_get {α : Type} (v : PerPort α) : PerPort.ofFn v.get = v :=
  PerPort.ext_get (by simp)

@[simp] theorem PerPort.set_get {α : Type} (v : PerPort α) (p : Port) : v.set p (v.get p) = v := by
  cases p <;> rfl

end Sys2Proof

namespace Sys2Proof.Machine

/-! ### One lemma for each field of each update -/

@[simp] theorem State.setPort_regs (s : State) (p : Port) (r : PortRegs) :
    (s.setPort p r).regs = s.regs.set p r := rfl
@[simp] theorem State.setPort_sampled (s : State) (p : Port) (r : PortRegs) :
    (s.setPort p r).sampled = s.sampled := rfl
@[simp] theorem State.setPort_rcgc (s : State) (p : Port) (r : PortRegs) :
    (s.setPort p r).rcgc = s.rcgc := rfl
@[simp] theorem State.setPort_ready (s : State) (p : Port) (r : PortRegs) :
    (s.setPort p r).ready = s.ready := rfl
@[simp] theorem State.setPort_armt (s : State) (p : Port) (r : PortRegs) :
    (s.setPort p r).armt = s.armt := rfl
@[simp] theorem State.setPort_en (s : State) (p : Port) (r : PortRegs) :
    (s.setPort p r).en = s.en := rfl
@[simp] theorem State.setPort_pend (s : State) (p : Port) (r : PortRegs) :
    (s.setPort p r).pend = s.pend := rfl
@[simp] theorem State.setPort_act (s : State) (p : Port) (r : PortRegs) :
    (s.setPort p r).act = s.act := rfl
@[simp] theorem State.setPort_pri (s : State) (p : Port) (r : PortRegs) :
    (s.setPort p r).pri = s.pri := rfl
@[simp] theorem State.setPort_stack (s : State) (p : Port) (r : PortRegs) :
    (s.setPort p r).stack = s.stack := rfl
@[simp] theorem State.setPort_seq (s : State) (p : Port) (r : PortRegs) :
    (s.setPort p r).seq = s.seq := rfl
@[simp] theorem State.setPort_resp (s : State) (p : Port) (r : PortRegs) :
    (s.setPort p r).resp = s.resp := rfl
@[simp] theorem State.setPort_trace (s : State) (p : Port) (r : PortRegs) :
    (s.setPort p r).trace = s.trace := rfl
@[simp] theorem State.setPort_par (s : State) (p : Port) (r : PortRegs) :
    (s.setPort p r).par = s.par := rfl
@[simp] theorem State.setPort_stream (s : State) (p : Port) (r : PortRegs) :
    (s.setPort p r).stream = s.stream := rfl
@[simp] theorem State.setPort_turns (s : State) (p : Port) (r : PortRegs) :
    (s.setPort p r).turns = s.turns := rfl
@[simp] theorem State.setPort_level (s : State) (p : Port) (r : PortRegs) :
    (s.setPort p r).level = s.level := rfl
@[simp] theorem State.setPort_xline (s : State) (p : Port) (r : PortRegs) :
    (s.setPort p r).xline = s.xline := rfl
@[simp] theorem State.setPort_waited (s : State) (p : Port) (r : PortRegs) :
    (s.setPort p r).waited = s.waited := rfl
@[simp] theorem State.setPort_tick (s : State) (p : Port) (r : PortRegs) :
    (s.setPort p r).tick = s.tick := rfl

@[simp] theorem emit_regs (e : Event) (s : State) : (emit e s).regs = s.regs := rfl
@[simp] theorem emit_sampled (e : Event) (s : State) : (emit e s).sampled = s.sampled := rfl
@[simp] theorem emit_rcgc (e : Event) (s : State) : (emit e s).rcgc = s.rcgc := rfl
@[simp] theorem emit_ready (e : Event) (s : State) : (emit e s).ready = s.ready := rfl
@[simp] theorem emit_armt (e : Event) (s : State) : (emit e s).armt = s.armt := rfl
@[simp] theorem emit_en (e : Event) (s : State) : (emit e s).en = s.en := rfl
@[simp] theorem emit_pend (e : Event) (s : State) : (emit e s).pend = s.pend := rfl
@[simp] theorem emit_act (e : Event) (s : State) : (emit e s).act = s.act := rfl
@[simp] theorem emit_pri (e : Event) (s : State) : (emit e s).pri = s.pri := rfl
@[simp] theorem emit_stack (e : Event) (s : State) : (emit e s).stack = s.stack := rfl
@[simp] theorem emit_seq (e : Event) (s : State) : (emit e s).seq = s.seq := rfl
@[simp] theorem emit_resp (e : Event) (s : State) : (emit e s).resp = s.resp := rfl
@[simp] theorem emit_trace (e : Event) (s : State) : (emit e s).trace = s.trace ++ [e] := rfl
@[simp] theorem emit_par (e : Event) (s : State) : (emit e s).par = s.par := rfl
@[simp] theorem emit_stream (e : Event) (s : State) : (emit e s).stream = s.stream := rfl
@[simp] theorem emit_turns (e : Event) (s : State) : (emit e s).turns = s.turns := rfl
@[simp] theorem emit_level (e : Event) (s : State) : (emit e s).level = s.level := rfl
@[simp] theorem emit_xline (e : Event) (s : State) : (emit e s).xline = s.xline := rfl
@[simp] theorem emit_waited (e : Event) (s : State) : (emit e s).waited = s.waited := rfl
@[simp] theorem emit_tick (e : Event) (s : State) : (emit e s).tick = s.tick := rfl

@[simp] theorem complete_regs (d x : Word) (s : State) : (complete d x s).regs = s.regs := rfl
@[simp] theorem complete_sampled (d x : Word) (s : State) : (complete d x s).sampled = s.sampled := rfl
@[simp] theorem complete_rcgc (d x : Word) (s : State) : (complete d x s).rcgc = s.rcgc := rfl
@[simp] theorem complete_ready (d x : Word) (s : State) : (complete d x s).ready = s.ready := rfl
@[simp] theorem complete_armt (d x : Word) (s : State) : (complete d x s).armt = s.armt := rfl
@[simp] theorem complete_en (d x : Word) (s : State) : (complete d x s).en = s.en := rfl
@[simp] theorem complete_pend (d x : Word) (s : State) : (complete d x s).pend = s.pend := rfl
@[simp] theorem complete_act (d x : Word) (s : State) : (complete d x s).act = s.act := rfl
@[simp] theorem complete_pri (d x : Word) (s : State) : (complete d x s).pri = s.pri := rfl
@[simp] theorem complete_stack (d x : Word) (s : State) : (complete d x s).stack = s.stack := rfl
@[simp] theorem complete_seq (d x : Word) (s : State) : (complete d x s).seq = .idle := rfl
@[simp] theorem complete_resp (d x : Word) (s : State) : (complete d x s).resp = ⟨.ok, 0, d, x⟩ := rfl
@[simp] theorem complete_trace (d x : Word) (s : State) : (complete d x s).trace = s.trace := rfl
@[simp] theorem complete_par (d x : Word) (s : State) : (complete d x s).par = s.par := rfl
@[simp] theorem complete_stream (d x : Word) (s : State) : (complete d x s).stream = s.stream := rfl
@[simp] theorem complete_turns (d x : Word) (s : State) : (complete d x s).turns = s.turns := rfl
@[simp] theorem complete_level (d x : Word) (s : State) : (complete d x s).level = s.level := rfl
@[simp] theorem complete_xline (d x : Word) (s : State) : (complete d x s).xline = s.xline := rfl
@[simp] theorem complete_waited (d x : Word) (s : State) : (complete d x s).waited = s.waited := rfl
@[simp] theorem complete_tick (d x : Word) (s : State) : (complete d x s).tick = s.tick := rfl

@[simp] theorem raiseFault_regs (c : Status) (a : Word) (s : State) :
    (raiseFault c a s).regs = s.regs := rfl
@[simp] theorem raiseFault_sampled (c : Status) (a : Word) (s : State) :
    (raiseFault c a s).sampled = s.sampled := rfl
@[simp] theorem raiseFault_rcgc (c : Status) (a : Word) (s : State) :
    (raiseFault c a s).rcgc = s.rcgc := rfl
@[simp] theorem raiseFault_ready (c : Status) (a : Word) (s : State) :
    (raiseFault c a s).ready = s.ready := rfl
@[simp] theorem raiseFault_armt (c : Status) (a : Word) (s : State) :
    (raiseFault c a s).armt = s.armt := rfl
@[simp] theorem raiseFault_en (c : Status) (a : Word) (s : State) : (raiseFault c a s).en = s.en := rfl
@[simp] theorem raiseFault_pend (c : Status) (a : Word) (s : State) :
    (raiseFault c a s).pend = s.pend := rfl
@[simp] theorem raiseFault_act (c : Status) (a : Word) (s : State) :
    (raiseFault c a s).act = s.act := rfl
@[simp] theorem raiseFault_pri (c : Status) (a : Word) (s : State) :
    (raiseFault c a s).pri = s.pri := rfl
@[simp] theorem raiseFault_stack (c : Status) (a : Word) (s : State) :
    (raiseFault c a s).stack = s.stack := rfl
@[simp] theorem raiseFault_seq (c : Status) (a : Word) (s : State) :
    (raiseFault c a s).seq = .idle := rfl
@[simp] theorem raiseFault_resp (c : Status) (a : Word) (s : State) :
    (raiseFault c a s).resp = ⟨c, a, 0, 0⟩ := rfl
@[simp] theorem raiseFault_trace (c : Status) (a : Word) (s : State) :
    (raiseFault c a s).trace = s.trace ++ [.fault c a] := rfl
@[simp] theorem raiseFault_par (c : Status) (a : Word) (s : State) :
    (raiseFault c a s).par = s.par := rfl
@[simp] theorem raiseFault_stream (c : Status) (a : Word) (s : State) :
    (raiseFault c a s).stream = s.stream := rfl
@[simp] theorem raiseFault_turns (c : Status) (a : Word) (s : State) :
    (raiseFault c a s).turns = s.turns := rfl
@[simp] theorem raiseFault_level (c : Status) (a : Word) (s : State) :
    (raiseFault c a s).level = s.level := rfl
@[simp] theorem raiseFault_xline (c : Status) (a : Word) (s : State) :
    (raiseFault c a s).xline = s.xline := rfl
@[simp] theorem raiseFault_waited (c : Status) (a : Word) (s : State) :
    (raiseFault c a s).waited = s.waited := rfl
@[simp] theorem raiseFault_tick (c : Status) (a : Word) (s : State) :
    (raiseFault c a s).tick = s.tick := rfl

@[simp] theorem raiseIllegal_regs (w : Word) (s : State) : (raiseIllegal w s).regs = s.regs := rfl
@[simp] theorem raiseIllegal_sampled (w : Word) (s : State) :
    (raiseIllegal w s).sampled = s.sampled := rfl
@[simp] theorem raiseIllegal_rcgc (w : Word) (s : State) : (raiseIllegal w s).rcgc = s.rcgc := rfl
@[simp] theorem raiseIllegal_ready (w : Word) (s : State) : (raiseIllegal w s).ready = s.ready := rfl
@[simp] theorem raiseIllegal_armt (w : Word) (s : State) : (raiseIllegal w s).armt = s.armt := rfl
@[simp] theorem raiseIllegal_en (w : Word) (s : State) : (raiseIllegal w s).en = s.en := rfl
@[simp] theorem raiseIllegal_pend (w : Word) (s : State) : (raiseIllegal w s).pend = s.pend := rfl
@[simp] theorem raiseIllegal_act (w : Word) (s : State) : (raiseIllegal w s).act = s.act := rfl
@[simp] theorem raiseIllegal_pri (w : Word) (s : State) : (raiseIllegal w s).pri = s.pri := rfl
@[simp] theorem raiseIllegal_stack (w : Word) (s : State) : (raiseIllegal w s).stack = s.stack := rfl
@[simp] theorem raiseIllegal_seq (w : Word) (s : State) : (raiseIllegal w s).seq = s.seq := rfl
@[simp] theorem raiseIllegal_resp (w : Word) (s : State) :
    (raiseIllegal w s).resp = ⟨.illegal, 0, w, 0⟩ := rfl
@[simp] theorem raiseIllegal_trace (w : Word) (s : State) :
    (raiseIllegal w s).trace = s.trace ++ [.fault .illegal 0] := rfl
@[simp] theorem raiseIllegal_par (w : Word) (s : State) : (raiseIllegal w s).par = s.par := rfl
@[simp] theorem raiseIllegal_stream (w : Word) (s : State) : (raiseIllegal w s).stream = s.stream := rfl
@[simp] theorem raiseIllegal_turns (w : Word) (s : State) : (raiseIllegal w s).turns = s.turns := rfl
@[simp] theorem raiseIllegal_level (w : Word) (s : State) : (raiseIllegal w s).level = s.level := rfl
@[simp] theorem raiseIllegal_xline (w : Word) (s : State) : (raiseIllegal w s).xline = s.xline := rfl
@[simp] theorem raiseIllegal_waited (w : Word) (s : State) : (raiseIllegal w s).waited = s.waited := rfl
@[simp] theorem raiseIllegal_tick (w : Word) (s : State) : (raiseIllegal w s).tick = s.tick := rfl

@[simp] theorem gateSet_regs (p : Port) (s : State) : (gateSet p s).regs = s.regs := rfl
@[simp] theorem gateSet_sampled (p : Port) (s : State) : (gateSet p s).sampled = s.sampled := rfl
@[simp] theorem gateSet_rcgc (p : Port) (s : State) : (gateSet p s).rcgc = setBit s.rcgc p.index := rfl
@[simp] theorem gateSet_armt (p : Port) (s : State) : (gateSet p s).armt = s.armt := rfl
@[simp] theorem gateSet_en (p : Port) (s : State) : (gateSet p s).en = s.en := rfl
@[simp] theorem gateSet_pend (p : Port) (s : State) : (gateSet p s).pend = s.pend := rfl
@[simp] theorem gateSet_act (p : Port) (s : State) : (gateSet p s).act = s.act := rfl
@[simp] theorem gateSet_pri (p : Port) (s : State) : (gateSet p s).pri = s.pri := rfl
@[simp] theorem gateSet_stack (p : Port) (s : State) : (gateSet p s).stack = s.stack := rfl
@[simp] theorem gateSet_seq (p : Port) (s : State) : (gateSet p s).seq = s.seq := rfl
@[simp] theorem gateSet_resp (p : Port) (s : State) : (gateSet p s).resp = s.resp := rfl
@[simp] theorem gateSet_trace (p : Port) (s : State) : (gateSet p s).trace = s.trace := rfl
@[simp] theorem gateSet_par (p : Port) (s : State) : (gateSet p s).par = s.par := rfl
@[simp] theorem gateSet_stream (p : Port) (s : State) : (gateSet p s).stream = s.stream := rfl
@[simp] theorem gateSet_turns (p : Port) (s : State) : (gateSet p s).turns = s.turns := rfl
@[simp] theorem gateSet_level (p : Port) (s : State) : (gateSet p s).level = s.level := rfl
@[simp] theorem gateSet_xline (p : Port) (s : State) : (gateSet p s).xline = s.xline := rfl
@[simp] theorem gateSet_waited (p : Port) (s : State) : (gateSet p s).waited = s.waited := rfl
@[simp] theorem gateSet_tick (p : Port) (s : State) : (gateSet p s).tick = s.tick := rfl

@[simp] theorem gateClear_regs (p : Port) (s : State) : (gateClear p s).regs = s.regs := rfl
@[simp] theorem gateClear_sampled (p : Port) (s : State) : (gateClear p s).sampled = s.sampled := rfl
@[simp] theorem gateClear_rcgc (p : Port) (s : State) :
    (gateClear p s).rcgc = clearBit s.rcgc p.index := rfl
@[simp] theorem gateClear_ready (p : Port) (s : State) :
    (gateClear p s).ready = clearBit s.ready p.index := rfl
@[simp] theorem gateClear_armt (p : Port) (s : State) : (gateClear p s).armt = s.armt := rfl
@[simp] theorem gateClear_en (p : Port) (s : State) : (gateClear p s).en = s.en := rfl
@[simp] theorem gateClear_pend (p : Port) (s : State) : (gateClear p s).pend = s.pend := rfl
@[simp] theorem gateClear_act (p : Port) (s : State) : (gateClear p s).act = s.act := rfl
@[simp] theorem gateClear_pri (p : Port) (s : State) : (gateClear p s).pri = s.pri := rfl
@[simp] theorem gateClear_stack (p : Port) (s : State) : (gateClear p s).stack = s.stack := rfl
@[simp] theorem gateClear_seq (p : Port) (s : State) : (gateClear p s).seq = s.seq := rfl
@[simp] theorem gateClear_resp (p : Port) (s : State) : (gateClear p s).resp = s.resp := rfl
@[simp] theorem gateClear_trace (p : Port) (s : State) : (gateClear p s).trace = s.trace := rfl
@[simp] theorem gateClear_par (p : Port) (s : State) : (gateClear p s).par = s.par := rfl
@[simp] theorem gateClear_stream (p : Port) (s : State) : (gateClear p s).stream = s.stream := rfl
@[simp] theorem gateClear_turns (p : Port) (s : State) : (gateClear p s).turns = s.turns := rfl
@[simp] theorem gateClear_level (p : Port) (s : State) : (gateClear p s).level = s.level := rfl
@[simp] theorem gateClear_xline (p : Port) (s : State) : (gateClear p s).xline = s.xline := rfl
@[simp] theorem gateClear_waited (p : Port) (s : State) : (gateClear p s).waited = s.waited := rfl
@[simp] theorem gateClear_tick (p : Port) (s : State) : (gateClear p s).tick = s.tick := rfl

@[simp] theorem rcgcWrite_regs (d : Word) (s : State) : (rcgcWrite d s).regs = s.regs := rfl
@[simp] theorem rcgcWrite_sampled (d : Word) (s : State) : (rcgcWrite d s).sampled = s.sampled := rfl
@[simp] theorem rcgcWrite_rcgc (d : Word) (s : State) : (rcgcWrite d s).rcgc = d.setWidth 6 := rfl
@[simp] theorem rcgcWrite_armt (d : Word) (s : State) : (rcgcWrite d s).armt = s.armt := rfl
@[simp] theorem rcgcWrite_en (d : Word) (s : State) : (rcgcWrite d s).en = s.en := rfl
@[simp] theorem rcgcWrite_pend (d : Word) (s : State) : (rcgcWrite d s).pend = s.pend := rfl
@[simp] theorem rcgcWrite_act (d : Word) (s : State) : (rcgcWrite d s).act = s.act := rfl
@[simp] theorem rcgcWrite_pri (d : Word) (s : State) : (rcgcWrite d s).pri = s.pri := rfl
@[simp] theorem rcgcWrite_stack (d : Word) (s : State) : (rcgcWrite d s).stack = s.stack := rfl
@[simp] theorem rcgcWrite_seq (d : Word) (s : State) : (rcgcWrite d s).seq = s.seq := rfl
@[simp] theorem rcgcWrite_resp (d : Word) (s : State) : (rcgcWrite d s).resp = s.resp := rfl
@[simp] theorem rcgcWrite_trace (d : Word) (s : State) : (rcgcWrite d s).trace = s.trace := rfl
@[simp] theorem rcgcWrite_par (d : Word) (s : State) : (rcgcWrite d s).par = s.par := rfl
@[simp] theorem rcgcWrite_stream (d : Word) (s : State) : (rcgcWrite d s).stream = s.stream := rfl
@[simp] theorem rcgcWrite_turns (d : Word) (s : State) : (rcgcWrite d s).turns = s.turns := rfl
@[simp] theorem rcgcWrite_level (d : Word) (s : State) : (rcgcWrite d s).level = s.level := rfl
@[simp] theorem rcgcWrite_xline (d : Word) (s : State) : (rcgcWrite d s).xline = s.xline := rfl
@[simp] theorem rcgcWrite_waited (d : Word) (s : State) : (rcgcWrite d s).waited = s.waited := rfl
@[simp] theorem rcgcWrite_tick (d : Word) (s : State) : (rcgcWrite d s).tick = s.tick := rfl

@[simp] theorem settle_regs (s : State) : (settle s).regs = s.regs := rfl
@[simp] theorem settle_sampled (s : State) : (settle s).sampled = s.sampled := rfl
@[simp] theorem settle_rcgc (s : State) : (settle s).rcgc = s.rcgc := rfl
@[simp] theorem settle_ready (s : State) : (settle s).ready = s.ready := rfl
@[simp] theorem settle_armt (s : State) : (settle s).armt = s.armt := rfl
@[simp] theorem settle_en (s : State) : (settle s).en = s.en := rfl
@[simp] theorem settle_pend (s : State) : (settle s).pend = s.pend := rfl
@[simp] theorem settle_act (s : State) : (settle s).act = s.act := rfl
@[simp] theorem settle_pri (s : State) : (settle s).pri = s.pri := rfl
@[simp] theorem settle_stack (s : State) : (settle s).stack = s.stack := rfl
@[simp] theorem settle_seq (s : State) : (settle s).seq = s.seq := rfl
@[simp] theorem settle_resp (s : State) : (settle s).resp = s.resp := rfl
@[simp] theorem settle_trace (s : State) : (settle s).trace = s.trace := rfl
@[simp] theorem settle_par (s : State) : (settle s).par = s.par := rfl
@[simp] theorem settle_stream (s : State) : (settle s).stream = s.stream := rfl
@[simp] theorem settle_turns (s : State) : (settle s).turns = s.turns := rfl
@[simp] theorem settle_xline (s : State) : (settle s).xline = s.xline := rfl
@[simp] theorem settle_waited (s : State) : (settle s).waited = s.waited := rfl
@[simp] theorem settle_tick (s : State) : (settle s).tick = s.tick := rfl

@[simp] theorem sample_rcgc (s : State) : (sample s).rcgc = s.rcgc := rfl
@[simp] theorem sample_ready (s : State) : (sample s).ready = s.ready := rfl
@[simp] theorem sample_armt (s : State) : (sample s).armt = s.armt := rfl
@[simp] theorem sample_en (s : State) : (sample s).en = s.en := rfl
@[simp] theorem sample_pend (s : State) : (sample s).pend = s.pend := rfl
@[simp] theorem sample_act (s : State) : (sample s).act = s.act := rfl
@[simp] theorem sample_pri (s : State) : (sample s).pri = s.pri := rfl
@[simp] theorem sample_stack (s : State) : (sample s).stack = s.stack := rfl
@[simp] theorem sample_seq (s : State) : (sample s).seq = s.seq := rfl
@[simp] theorem sample_resp (s : State) : (sample s).resp = s.resp := rfl
@[simp] theorem sample_trace (s : State) : (sample s).trace = s.trace := rfl
@[simp] theorem sample_par (s : State) : (sample s).par = s.par := rfl
@[simp] theorem sample_stream (s : State) : (sample s).stream = s.stream := rfl
@[simp] theorem sample_turns (s : State) : (sample s).turns = s.turns := rfl
@[simp] theorem sample_level (s : State) : (sample s).level = s.level := rfl
@[simp] theorem sample_xline (s : State) : (sample s).xline = s.xline := rfl
@[simp] theorem sample_waited (s : State) : (sample s).waited = s.waited := rfl
@[simp] theorem sample_tick (s : State) : (sample s).tick = s.tick := rfl

@[simp] theorem pendUpdate_regs (s : State) : (pendUpdate s).regs = s.regs := rfl
@[simp] theorem pendUpdate_sampled (s : State) : (pendUpdate s).sampled = s.sampled := rfl
@[simp] theorem pendUpdate_rcgc (s : State) : (pendUpdate s).rcgc = s.rcgc := rfl
@[simp] theorem pendUpdate_ready (s : State) : (pendUpdate s).ready = s.ready := rfl
@[simp] theorem pendUpdate_armt (s : State) : (pendUpdate s).armt = s.armt := rfl
@[simp] theorem pendUpdate_en (s : State) : (pendUpdate s).en = s.en := rfl
@[simp] theorem pendUpdate_pend (s : State) :
    (pendUpdate s).pend = s.pend ||| removeLines (lineLevels s) s.act := rfl
@[simp] theorem pendUpdate_act (s : State) : (pendUpdate s).act = s.act := rfl
@[simp] theorem pendUpdate_pri (s : State) : (pendUpdate s).pri = s.pri := rfl
@[simp] theorem pendUpdate_stack (s : State) : (pendUpdate s).stack = s.stack := rfl
@[simp] theorem pendUpdate_seq (s : State) : (pendUpdate s).seq = s.seq := rfl
@[simp] theorem pendUpdate_resp (s : State) : (pendUpdate s).resp = s.resp := rfl
@[simp] theorem pendUpdate_trace (s : State) : (pendUpdate s).trace = s.trace := rfl
@[simp] theorem pendUpdate_par (s : State) : (pendUpdate s).par = s.par := rfl
@[simp] theorem pendUpdate_stream (s : State) : (pendUpdate s).stream = s.stream := rfl
@[simp] theorem pendUpdate_turns (s : State) : (pendUpdate s).turns = s.turns := rfl
@[simp] theorem pendUpdate_level (s : State) : (pendUpdate s).level = s.level := rfl
@[simp] theorem pendUpdate_xline (s : State) : (pendUpdate s).xline = s.xline := rfl
@[simp] theorem pendUpdate_waited (s : State) : (pendUpdate s).waited = s.waited := rfl
@[simp] theorem pendUpdate_tick (s : State) : (pendUpdate s).tick = s.tick := rfl

@[simp] theorem endOfStep_rcgc (s : State) : (endOfStep s).rcgc = s.rcgc := rfl
@[simp] theorem endOfStep_ready (s : State) : (endOfStep s).ready = s.ready := rfl
@[simp] theorem endOfStep_armt (s : State) : (endOfStep s).armt = s.armt := rfl
@[simp] theorem endOfStep_en (s : State) : (endOfStep s).en = s.en := rfl
@[simp] theorem endOfStep_act (s : State) : (endOfStep s).act = s.act := rfl
@[simp] theorem endOfStep_pri (s : State) : (endOfStep s).pri = s.pri := rfl
@[simp] theorem endOfStep_stack (s : State) : (endOfStep s).stack = s.stack := rfl
@[simp] theorem endOfStep_seq (s : State) : (endOfStep s).seq = s.seq := rfl
@[simp] theorem endOfStep_resp (s : State) : (endOfStep s).resp = s.resp := rfl
@[simp] theorem endOfStep_trace (s : State) : (endOfStep s).trace = s.trace := rfl
@[simp] theorem endOfStep_par (s : State) : (endOfStep s).par = s.par := rfl
@[simp] theorem endOfStep_stream (s : State) : (endOfStep s).stream = s.stream := rfl
@[simp] theorem endOfStep_turns (s : State) : (endOfStep s).turns = s.turns := rfl
@[simp] theorem endOfStep_xline (s : State) : (endOfStep s).xline = s.xline := rfl
@[simp] theorem endOfStep_waited (s : State) : (endOfStep s).waited = s.waited := rfl
@[simp] theorem endOfStep_tick (s : State) : (endOfStep s).tick = s.tick := rfl

@[simp] theorem beginStep_regs (s : State) : (beginStep s).regs = s.regs := rfl
@[simp] theorem beginStep_sampled (s : State) : (beginStep s).sampled = s.sampled := rfl
@[simp] theorem beginStep_rcgc (s : State) : (beginStep s).rcgc = s.rcgc := rfl
@[simp] theorem beginStep_ready (s : State) : (beginStep s).ready = s.ready := rfl
@[simp] theorem beginStep_armt (s : State) : (beginStep s).armt = s.armt := rfl
@[simp] theorem beginStep_en (s : State) : (beginStep s).en = s.en := rfl
@[simp] theorem beginStep_pend (s : State) : (beginStep s).pend = s.pend := rfl
@[simp] theorem beginStep_act (s : State) : (beginStep s).act = s.act := rfl
@[simp] theorem beginStep_pri (s : State) : (beginStep s).pri = s.pri := rfl
@[simp] theorem beginStep_stack (s : State) : (beginStep s).stack = s.stack := rfl
@[simp] theorem beginStep_seq (s : State) : (beginStep s).seq = s.seq := rfl
@[simp] theorem beginStep_resp (s : State) : (beginStep s).resp = s.resp := rfl
@[simp] theorem beginStep_trace (s : State) : (beginStep s).trace = s.trace := rfl
@[simp] theorem beginStep_par (s : State) : (beginStep s).par = s.par := rfl
@[simp] theorem beginStep_stream (s : State) : (beginStep s).stream = s.stream := rfl
@[simp] theorem beginStep_turns (s : State) : (beginStep s).turns = s.turns.tail := rfl
@[simp] theorem beginStep_level (s : State) : (beginStep s).level = s.level := rfl
@[simp] theorem beginStep_xline (s : State) : (beginStep s).xline = s.xline := rfl
@[simp] theorem beginStep_waited (s : State) : (beginStep s).waited = clockWaiting s := rfl
@[simp] theorem beginStep_tick (s : State) : (beginStep s).tick = s.tick + 1 := rfl

@[simp] theorem dataWrite_sampled (p : Port) (m : Byte) (v : Word) (s : State) :
    (dataWrite p m v s).sampled = s.sampled := rfl
@[simp] theorem dataWrite_rcgc (p : Port) (m : Byte) (v : Word) (s : State) :
    (dataWrite p m v s).rcgc = s.rcgc := rfl
@[simp] theorem dataWrite_ready (p : Port) (m : Byte) (v : Word) (s : State) :
    (dataWrite p m v s).ready = s.ready := rfl
@[simp] theorem dataWrite_armt (p : Port) (m : Byte) (v : Word) (s : State) :
    (dataWrite p m v s).armt = s.armt := rfl
@[simp] theorem dataWrite_en (p : Port) (m : Byte) (v : Word) (s : State) :
    (dataWrite p m v s).en = s.en := rfl
@[simp] theorem dataWrite_pend (p : Port) (m : Byte) (v : Word) (s : State) :
    (dataWrite p m v s).pend = s.pend := rfl
@[simp] theorem dataWrite_act (p : Port) (m : Byte) (v : Word) (s : State) :
    (dataWrite p m v s).act = s.act := rfl
@[simp] theorem dataWrite_pri (p : Port) (m : Byte) (v : Word) (s : State) :
    (dataWrite p m v s).pri = s.pri := rfl
@[simp] theorem dataWrite_stack (p : Port) (m : Byte) (v : Word) (s : State) :
    (dataWrite p m v s).stack = s.stack := rfl
@[simp] theorem dataWrite_seq (p : Port) (m : Byte) (v : Word) (s : State) :
    (dataWrite p m v s).seq = s.seq := rfl
@[simp] theorem dataWrite_resp (p : Port) (m : Byte) (v : Word) (s : State) :
    (dataWrite p m v s).resp = s.resp := rfl
@[simp] theorem dataWrite_trace (p : Port) (m : Byte) (v : Word) (s : State) :
    (dataWrite p m v s).trace = s.trace := rfl
@[simp] theorem dataWrite_par (p : Port) (m : Byte) (v : Word) (s : State) :
    (dataWrite p m v s).par = s.par := rfl
@[simp] theorem dataWrite_stream (p : Port) (m : Byte) (v : Word) (s : State) :
    (dataWrite p m v s).stream = s.stream := rfl
@[simp] theorem dataWrite_turns (p : Port) (m : Byte) (v : Word) (s : State) :
    (dataWrite p m v s).turns = s.turns := rfl
@[simp] theorem dataWrite_level (p : Port) (m : Byte) (v : Word) (s : State) :
    (dataWrite p m v s).level = s.level := rfl
@[simp] theorem dataWrite_xline (p : Port) (m : Byte) (v : Word) (s : State) :
    (dataWrite p m v s).xline = s.xline := rfl
@[simp] theorem dataWrite_waited (p : Port) (m : Byte) (v : Word) (s : State) :
    (dataWrite p m v s).waited = s.waited := rfl
@[simp] theorem dataWrite_tick (p : Port) (m : Byte) (v : Word) (s : State) :
    (dataWrite p m v s).tick = s.tick := rfl

@[simp] theorem regWrite_regs (p : Port) (x : Reg) (v : Word) (s : State) :
    (regWrite p x v s).regs = s.regs.set p (writeReg s.par.profile (s.draw .spurious) x v (s.port p)) := rfl
@[simp] theorem regWrite_sampled (p : Port) (x : Reg) (v : Word) (s : State) :
    (regWrite p x v s).sampled = s.sampled := rfl
@[simp] theorem regWrite_rcgc (p : Port) (x : Reg) (v : Word) (s : State) :
    (regWrite p x v s).rcgc = s.rcgc := rfl
@[simp] theorem regWrite_ready (p : Port) (x : Reg) (v : Word) (s : State) :
    (regWrite p x v s).ready = s.ready := rfl
@[simp] theorem regWrite_armt (p : Port) (x : Reg) (v : Word) (s : State) :
    (regWrite p x v s).armt = s.armt := rfl
@[simp] theorem regWrite_en (p : Port) (x : Reg) (v : Word) (s : State) :
    (regWrite p x v s).en = s.en := rfl
@[simp] theorem regWrite_pend (p : Port) (x : Reg) (v : Word) (s : State) :
    (regWrite p x v s).pend = s.pend := rfl
@[simp] theorem regWrite_act (p : Port) (x : Reg) (v : Word) (s : State) :
    (regWrite p x v s).act = s.act := rfl
@[simp] theorem regWrite_pri (p : Port) (x : Reg) (v : Word) (s : State) :
    (regWrite p x v s).pri = s.pri := rfl
@[simp] theorem regWrite_stack (p : Port) (x : Reg) (v : Word) (s : State) :
    (regWrite p x v s).stack = s.stack := rfl
@[simp] theorem regWrite_seq (p : Port) (x : Reg) (v : Word) (s : State) :
    (regWrite p x v s).seq = s.seq := rfl
@[simp] theorem regWrite_resp (p : Port) (x : Reg) (v : Word) (s : State) :
    (regWrite p x v s).resp = s.resp := rfl
@[simp] theorem regWrite_trace (p : Port) (x : Reg) (v : Word) (s : State) :
    (regWrite p x v s).trace = s.trace := rfl
@[simp] theorem regWrite_par (p : Port) (x : Reg) (v : Word) (s : State) :
    (regWrite p x v s).par = s.par := rfl
@[simp] theorem regWrite_stream (p : Port) (x : Reg) (v : Word) (s : State) :
    (regWrite p x v s).stream = s.stream := rfl
@[simp] theorem regWrite_turns (p : Port) (x : Reg) (v : Word) (s : State) :
    (regWrite p x v s).turns = s.turns := rfl
@[simp] theorem regWrite_level (p : Port) (x : Reg) (v : Word) (s : State) :
    (regWrite p x v s).level = s.level := rfl
@[simp] theorem regWrite_xline (p : Port) (x : Reg) (v : Word) (s : State) :
    (regWrite p x v s).xline = s.xline := rfl
@[simp] theorem regWrite_waited (p : Port) (x : Reg) (v : Word) (s : State) :
    (regWrite p x v s).waited = s.waited := rfl
@[simp] theorem regWrite_tick (p : Port) (x : Reg) (v : Word) (s : State) :
    (regWrite p x v s).tick = s.tick := rfl

end Sys2Proof.Machine
end

