-- ==== Sys2Proof/Laws/Bits.lean ====
section
/-! SUPPORT. The bit helpers, bit by bit. -/

namespace Sys2Proof.Machine

theorem byteOf_bit (g : Off → Bool) (o : Off) : (byteOf g).getLsbD o = g o := by
  fin_cases o <;> simp [byteOf]

@[simp] theorem byteOf_getElem (g : Off → Bool) (o : Off) (h : (o : Nat) < 8) : (byteOf g)[(o : Nat)] = g o := by
  rw [← BitVec.getLsbD_eq_getElem, byteOf_bit]

theorem byteOf_bit_nat (g : Off → Bool) (k : Nat) (h : k < 8) : (byteOf g).getLsbD k = g ⟨k, h⟩ :=
  byteOf_bit g ⟨k, h⟩

/-- Two bytes that agree at every offset are equal. -/
theorem byte_ext {a b : Byte} (h : ∀ o : Off, a.getLsbD o = b.getLsbD o) : a = b :=
  BitVec.eq_of_getLsbD_eq fun k hk => h ⟨k, hk⟩

theorem setBit_getLsbD {w : Nat} (v : BitVec w) (i k : Nat) (hi : i < w) :
    (setBit v i).getLsbD k = (v.getLsbD k || decide (k = i)) := by
  by_cases h : k = i
  · subst h; simp [setBit, hi]
  · by_cases hk : i ≤ k
    · have : k - i ≠ 0 := by omega
      simp [setBit, h, BitVec.getLsbD_one, this]
    · have : k < i := by omega
      simp [setBit, h, this]

theorem clearBit_getLsbD {w : Nat} (v : BitVec w) (i k : Nat) (hi : i < w) :
    (clearBit v i).getLsbD k = (v.getLsbD k && !decide (k = i)) := by
  by_cases hkw : k < w
  · by_cases h : k = i
    · subst h; simp [clearBit, hi]
    · by_cases hk : i ≤ k
      · have : k - i ≠ 0 := by omega
        simp [clearBit, h, hkw, this]
      · have : k < i := by omega
        simp [clearBit, h, hkw, this]
  · have : v.getLsbD k = false := BitVec.getLsbD_of_ge v k (by omega)
    simp [clearBit, this]

theorem bitWord_getLsbD (i k : Nat) (hi : i < 32) : (bitWord i).getLsbD k = decide (k = i) := by
  have := setBit_getLsbD (0#32) i k hi
  simpa [setBit, bitWord] using this

/-! ### Sets of lines -/

theorem addLine_testBit (v : LineBits) (i k : Nat) :
    (addLine v i).testBit k = (v.testBit k || decide (k = i)) := by
  rw [addLine, Nat.testBit_or, Nat.one_shiftLeft, Nat.testBit_two_pow]
  simp only [eq_comm]

theorem removeLines_testBit (v m : LineBits) (k : Nat) :
    (removeLines v m).testBit k = (v.testBit k && !m.testBit k) := by
  rw [removeLines, Nat.testBit_xor, Nat.testBit_and]
  cases v.testBit k <;> cases m.testBit k <;> rfl

theorem existingLines_testBit (par : Params) (v : LineBits) (k : Nat) :
    (existingLines par v).testBit k = (decide (k < par.nIrq) && v.testBit k) :=
  Nat.testBit_mod_two_pow v par.nIrq k

theorem existingLines_lt (par : Params) (v : LineBits) : existingLines par v < 2 ^ par.nIrq :=
  Nat.mod_lt _ (by positivity)

/-- A set holds only lines below `N` exactly when it is below `2 ^ N`. -/
theorem lines_lt_iff (v : LineBits) (N : Nat) : v < 2 ^ N ↔ ∀ n, v.testBit n = true → n < N := by
  refine ⟨fun h n hn => ?_, fun h => Nat.lt_pow_two_of_testBit v fun i hi => ?_⟩
  · by_contra hc
    rw [Nat.testBit_lt_two_pow (Nat.lt_of_lt_of_le h (Nat.pow_le_pow_right (by decide) (by omega)))] at hn
    cases hn
  · by_contra hc
    have := h i (by simpa using hc)
    omega

theorem removeLines_le (v m : LineBits) : removeLines v m ≤ v := by
  refine Nat.le_of_testBit fun i h => ?_
  rw [removeLines_testBit] at h
  simp_all

theorem Port.index_lt (p : Port) : p.index < 6 := by cases p <;> decide

theorem Port.index_inj {p q : Port} : p.index = q.index ↔ p = q := by
  cases p <;> cases q <;> decide

theorem gateOn_of_rcgc (s : State) (p : Port) : s.rcgc.getLsbD p.index = s.gateOn p := rfl

theorem isReady_of_ready (s : State) (p : Port) : s.ready.getLsbD p.index = s.isReady p := rfl

/-- Two 6-bit words that agree at every port are equal. -/
theorem six_ext {a b : BitVec 6} (h : ∀ p : Port, a.getLsbD p.index = b.getLsbD p.index) : a = b := by
  apply BitVec.eq_of_getLsbD_eq
  intro k hk
  have := h .A; have := h .B; have := h .C; have := h .D; have := h .E; have := h .F
  match k, hk with
  | 0, _ => assumption
  | 1, _ => assumption
  | 2, _ => assumption
  | 3, _ => assumption
  | 4, _ => assumption
  | 5, _ => assumption

end Sys2Proof.Machine
end

