-- ==== Sys2Proof/Laws/Interrupts.lean ====
section
/-! SUPPORT. What the end of a step does (R310 to R315, R305 to R307), and the arbiter. -/

namespace Sys2Proof.Machine

/-! ### Sampling and detection -/

theorem endOfStep_level (s : State) (p : Port) :
    (endOfStep s).level.get p = padLevel (s.par.pinPresent.get p) (s.port p) (s.level.get p) := by
  simp [endOfStep, settle]

theorem endOfStep_sampled_get (s : State) (p : Port) :
    (endOfStep s).sampled.get p =
      if s.isReady p then portInput (settle s) p else s.sampled.get p := by
  simp only [endOfStep, pendUpdate_sampled, sample, PerPort.get_ofFn]
  rfl

theorem ite_ris (b : Bool) (r : PortRegs) (x : Byte) :
    (if b then { r with ris := x } else r) = { r with ris := if b then x else r.ris } := by
  cases b <;> rfl

/-- The end of a step changes no register but RIS, and RIS of a ready port by detection. -/
theorem endOfStep_port (s : State) (p : Port) :
    (endOfStep s).port p =
      { s.port p with
        ris := if s.isReady p then detect (s.port p) (s.sampled.get p) (portInput (settle s) p)
          else (s.port p).ris } := by
  have h : (sample (settle s)).port p =
      if (settle s).isReady p then
        { (settle s).port p with
          ris := detect ((settle s).port p) ((settle s).sampled.get p) (portInput (settle s) p) }
      else (settle s).port p := PerPort.get_ofFn _ p
  exact h.trans (ite_ris _ _ _)

theorem endOfStep_pend (s : State) :
    (endOfStep s).pend = s.pend ||| removeLines (lineLevels (endOfStep s)) s.act := by
  simp only [endOfStep, pendUpdate_pend, sample_pend, sample_act, settle_pend, settle_act]
  rfl

theorem portInput_settle_bit (s : State) (p : Port) (o : Off) :
    (portInput (settle s) p).getLsbD o =
      if (s.port p).den.getLsbD o && (s.par.pinPresent.get p).getLsbD o then
        ((endOfStep s).level.get p).getLsbD o
      else (s.draw (.sample p)).getLsbD o := by
  rw [portInput, detectorInput, byteOf_bit]
  rfl

theorem detect_bit (r : PortRegs) (s d : Byte) (o : Off) :
    (detect r s d).getLsbD o = detectBit (r.is.getLsbD o) (r.ibe.getLsbD o) (r.iev.getLsbD o)
      (r.ris.getLsbD o) (s.getLsbD o) (d.getLsbD o) := by
  simp [detect]

/-! ### Lines -/

theorem foldl_addLine_testBit (l : List Port) (c : Port → Bool) (g : Port → Nat) (v : LineBits) (n : Nat) :
    (l.foldl (fun m p => if c p then addLine m (g p) else m) v).testBit n =
      (v.testBit n || l.any fun p => c p && g p == n) := by
  induction l generalizing v with
  | nil => simp
  | cons p ps ih =>
    rw [List.foldl_cons, ih, List.any_cons]
    cases hc : c p
    · simp
    · simp [addLine_testBit, Bool.or_assoc, eq_comm, Bool.beq_eq_decide_eq]

theorem mem_all (p : Port) : p ∈ Port.all := by cases p <;> decide

theorem portLinesAsserted_bit (s : State) (n : Nat) :
    (portLinesAsserted s).testBit n = true ↔
      ∃ p, s.par.irqLine.get p = n ∧ (s.port p).mis ≠ 0 := by
  rw [portLinesAsserted, foldl_addLine_testBit]
  simp [mem_all, and_comm]

theorem portLineMask_bit (par : Params) (n : Nat) :
    (portLineMask par).testBit n = true ↔ ∃ p, par.irqLine.get p = n := by
  have h := foldl_addLine_testBit Port.all (fun _ => true) (fun p => par.irqLine.get p) 0 n
  simp only [if_true] at h
  rw [portLineMask, h]
  simp [mem_all]

/-- The level of a line below `N_IRQ` (R305, R306). -/
theorem lineLevels_bit (s : State) (n : Nat) :
    (lineLevels s).testBit n =
      (decide (n < s.par.nIrq) &&
        ((portLinesAsserted s).testBit n || (s.xline.testBit n && !(portLineMask s.par).testBit n))) := by
  rw [lineLevels, existingLines_testBit, Nat.testBit_or, removeLines_testBit]

/-! ### The arbiter -/

theorem foldl_min_lt_iff (s : State) (l : List Nat) (m k : Nat) :
    k < l.foldl (fun m n => if s.act.testBit n then min m (s.priority n) else m) m ↔
      k < m ∧ ∀ n ∈ l, s.act.testBit n = true → k < s.priority n := by
  induction l generalizing m with
  | nil => simp
  | cons n ns ih =>
    rw [List.foldl_cons, ih]
    by_cases h : s.act.testBit n = true
    · simp [h, and_assoc]
    · simp [h]

/-- A priority is below the running priority when it is below that of every active line, and below the value
`RP` has when none is active (R317). -/
theorem lt_runningPriority (s : State) (k : Nat) :
    k < runningPriority s ↔
      k < 2 ^ s.par.prioBits ∧ ∀ m, m < s.par.nIrq → s.act.testBit m = true → k < s.priority m := by
  rw [runningPriority, foldl_min_lt_iff]
  simp

/-- The arbiter's answer is a deliverable line, and no deliverable line comes before it (R318). -/
theorem arbiter_some {s : State} {n : Nat} (h : arbiter s = some n) :
    n < s.par.nIrq ∧ deliverable s n = true ∧ ∀ m, m < s.par.nIrq → deliverable s m = true →
      s.priority n < s.priority m ∨ (s.priority n = s.priority m ∧ n ≤ m) := by
  rw [arbiter, List.findSome?_eq_some_iff] at h
  obtain ⟨before, k, after, hl, hk, hb⟩ := h
  have hkr : k < runningPriority s := by
    have : k ∈ List.range (runningPriority s) := by rw [hl]; simp
    simpa using this
  have hsorted : (before ++ k :: after).Pairwise (· < ·) := hl ▸ List.pairwise_lt_range
  have hnr : n ∈ List.range s.par.nIrq := List.mem_of_find?_eq_some hk
  rw [List.find?_eq_some_iff_append] at hk
  obtain ⟨hn, lo, hi, hsplit, hlo⟩ := hk
  have hlines : (lo ++ n :: hi).Pairwise (· < ·) := hsplit ▸ List.pairwise_lt_range
  simp only [Bool.and_eq_true, beq_iff_eq] at hn
  obtain ⟨⟨hen, hpend⟩, hpri⟩ := hn
  refine ⟨List.mem_range.mp hnr,
    by simp only [deliverable, hen, hpend, hpri, hkr, decide_true, Bool.and_self], ?_⟩
  intro m hm hd
  simp only [deliverable, Bool.and_eq_true, decide_eq_true_eq] at hd
  obtain ⟨⟨hme, hmp⟩, hmr⟩ := hd
  have hmem : s.priority m ∈ before ++ k :: after := by rw [← hl]; simpa using hmr
  rw [List.pairwise_append] at hsorted hlines
  simp only [List.mem_append, List.mem_cons] at hmem
  rcases hmem with hmem | hmem | hmem
  · have := hb _ hmem
    rw [List.find?_eq_none] at this
    exact absurd (by simp only [hme, hmp, BEq.rfl, Bool.and_self]) (this m (List.mem_range.mpr hm))
  · right
    refine ⟨by rw [hpri, hmem], ?_⟩
    have hml : m ∈ lo ++ n :: hi := by rw [← hsplit]; exact List.mem_range.mpr hm
    simp only [List.mem_append, List.mem_cons] at hml
    rcases hml with hml | hml | hml
    · have := hlo m hml
      simp [hme, hmp, hmem] at this
    · exact le_of_eq hml.symm
    · exact le_of_lt ((List.pairwise_cons.mp hlines.2.1).1 m hml)
  · left
    rw [hpri]
    exact (List.pairwise_cons.mp hsorted.2.1).1 _ hmem

/-- When the arbiter offers no line, none is deliverable. -/
theorem arbiter_none {s : State} (h : arbiter s = none) {n : Nat} (hn : n < s.par.nIrq) :
    deliverable s n = false := by
  rw [arbiter, List.findSome?_eq_none_iff] at h
  by_contra hd
  simp only [deliverable, Bool.and_eq_true, decide_eq_true_eq, Bool.not_eq_false] at hd
  have := h (s.priority n) (by simpa using hd.2)
  rw [List.find?_eq_none] at this
  exact this n (List.mem_range.mpr hn) (by simp only [hd.1.1, hd.1.2, BEq.rfl, Bool.and_self])

end Sys2Proof.Machine
end

