-- ==== Sys2Proof/Laws/Step.lean ====
section
/-! SUPPORT. What a step can be, by the turn it takes, and what the command port's part of it can be. -/

namespace Sys2Proof.Machine

theorem accept_idle {s : State} (h : s.seq = .idle) (t : State) : accept s t = .next t := by
  rw [accept, h]

theorem accept_busy {s : State} {cmd : Instr} {ops : List MicroOp} {i : Nat} (h : s.seq = .busy cmd ops i)
    (t : State) : accept s t = .fault .commandPortBusy := by
  rw [accept, h]

/-! ### The command port -/

theorem portStep_busy {s : State} (h : s.seq ≠ .idle) : portStep s = .next s := by
  unfold portStep
  split
  · rfl
  · exact absurd ‹_› h

theorem portStep_waiting {s : State} (h : s.seq = .idle) (hd : decodeStream s.stream = .waiting) :
    portStep s = .next s := by
  unfold portStep
  rw [h, hd]

theorem portStep_illegal {s : State} {w : Word} {why : Reject} {rest : List Word} (h : s.seq = .idle)
    (hd : decodeStream s.stream = .illegal w why rest) :
    portStep s = .next (raiseIllegal w { s with stream := rest }) := by
  unfold portStep
  rw [h, hd]

theorem portStep_command {s : State} {i : Instr} {rest : List Word} (h : s.seq = .idle)
    (hd : decodeStream s.stream = .command i rest) :
    portStep s = exec i { s with stream := rest } := by
  unfold portStep
  rw [h, hd]

/-- What the command port's part of a step leaves: nothing done, an illegal command reported, or a command's
own meaning. -/
theorem portStep_cases {s t : State} (h : portStep s = .next t) :
    t = s ∨
      (s.seq = .idle ∧ ∃ w why rest, decodeStream s.stream = .illegal w why rest ∧
        t = raiseIllegal w { s with stream := rest }) ∨
      (s.seq = .idle ∧ ∃ i rest, decodeStream s.stream = .command i rest ∧
        exec i { s with stream := rest } = .next t) := by
  by_cases hs : s.seq = .idle
  · cases hd : decodeStream s.stream with
    | waiting => rw [portStep_waiting hs hd] at h; exact .inl (by injection h with h; exact h.symm)
    | illegal w why rest =>
      rw [portStep_illegal hs hd] at h
      exact .inr (.inl ⟨hs, w, why, rest, rfl, by injection h with h; exact h.symm⟩)
    | command i rest => rw [portStep_command hs hd] at h; exact .inr (.inr ⟨hs, i, rest, rfl, h⟩)
  · rw [portStep_busy hs] at h; exact .inl (by injection h with h; exact h.symm)

/-! ### The step of each agent -/

theorem step_eq {s : State} {t : Turn} (h : nextTurn s = t) : step s = runTurn t (beginStep s) := by
  rw [step, h]

theorem finish_next {o : Host.Outcome State Fault Refusal} {t : State} (h : finish o = .next t) :
    ∃ u, o = .next u ∧ t = endOfStep u := by
  cases o with
  | next u => injection h with h; exact ⟨u, rfl, h.symm⟩
  | fault r => cases h
  | refused r => cases h

/-- What an agent other than the command port does in its turn, before the end of the step. -/
def agentEffect : Turn → State → State
  | .port, s => s
  | .sequencer, s => sequencerStep s
  | .environment level xline, s => { s with level := level, xline := xline }
  | .clockReady p, s => clockBecomesReady p s
  | .ack, s => acknowledge s
  | .eoi, s => endOfInterrupt s
  | .host words, s => { s with stream := s.stream ++ words }
  | .reset, s => s

/-- What a step leaves, by whose turn it is: a reset; the command port's part and the end of the step; or
another agent's effect and the end of the step. -/
theorem step_cases {s t : State} (h : step s = .next t) :
    (nextTurn s = .reset ∧ t = resetBlock (beginStep s)) ∨
      (nextTurn s = .port ∧ ∃ u, portStep (beginStep s) = .next u ∧ t = endOfStep u) ∨
      (nextTurn s ≠ .reset ∧ nextTurn s ≠ .port ∧
        t = endOfStep (agentEffect (nextTurn s) (beginStep s))) := by
  rw [step] at h
  cases hn : nextTurn s with
  | port => rw [hn] at h; exact .inr (.inl ⟨rfl, finish_next h⟩)
  | reset => rw [hn] at h; exact .inl ⟨rfl, by injection h with h; exact h.symm⟩
  | _ =>
    rw [hn] at h
    refine .inr (.inr ⟨nofun, nofun, ?_⟩)
    injection h with h
    exact h.symm

/-! ### Word lists for the host's placement of a command -/

/-- Appending words the next command does not need does not change what is read. -/
theorem decodeStream_append {ws : List Word} {i : Instr} {rest more : List Word}
    (h : decodeStream ws = .command i rest) : decodeStream (ws ++ more) = .command i (rest ++ more) := by
  cases ws with
  | nil => simp [decodeStream] at h
  | cons w ops =>
    by_cases hl : ops.length < commandLength w - 1
    · rw [decodeStream, if_pos hl] at h; cases h
    · have hl' : commandLength w - 1 ≤ ops.length := by omega
      have hsame : decodeCommand w ((ops ++ more).getD 0 0) ((ops ++ more).getD 1 0) =
          decodeCommand w (ops.getD 0 0) (ops.getD 1 0) := by
        have hw : commandLength w = 1 ∧ opcode w ≠ 9 ∧ opcode w ≠ 10 ∧ opcode w ≠ 11 ∨
            commandLength w = 2 ∧ (opcode w = 9 ∨ opcode w = 10) ∨ commandLength w = 3 := by
          unfold commandLength
          split <;> simp_all
        rcases hw with ⟨-, h9, h10, h11⟩ | ⟨h2, hop⟩ | h3
        · unfold decodeCommand
          split <;> first | rfl | exact absurd ‹_› h9 | exact absurd ‹_› h10 | exact absurd ‹_› h11
        · rw [h2] at hl'
          have e : (ops ++ more).getD 0 0 = ops.getD 0 0 := by
            cases ops with
            | nil => simp at hl'
            | cons a l => rfl
          rw [e]
          unfold decodeCommand
          rcases hop with hop | hop <;> simp only [hop]
        · rw [h3] at hl'
          match ops, hl' with
          | [], hh => simp at hh
          | [a], hh => simp at hh
          | a :: b :: l, _ => rfl
      rw [decodeStream_cons _ _ hl'] at h
      rw [List.cons_append, decodeStream_cons _ _ (by rw [List.length_append]; omega), hsame]
      cases hd : decodeCommand w (ops.getD 0 0) (ops.getD 1 0) with
      | error e => rw [hd] at h; cases h
      | ok j =>
        rw [hd] at h
        injection h with h1 h2
        subst h1 h2
        simp only [List.drop_append_of_le_length hl']

end Sys2Proof.Machine
end

