-- ==== Sys2Proof/Laws/AddressMap.lean ====
section
/-! SUPPORT. What the address map gives for an address inside a window (R87). -/

namespace Sys2Proof.Machine

theorem inWindow_iff (base : Nat) (a : Word) (len : Nat) :
    inWindow base a len = true ↔ base ≤ a.toNat ∧ a.toNat < base + len := by
  simp [inWindow]

theorem inWindow_false (base : Nat) (a : Word) (len : Nat)
    (h : ¬(base ≤ a.toNat ∧ a.toNat < base + len)) : inWindow base a len = false := by
  rw [← Bool.not_eq_true, inWindow_iff]
  exact h

theorem low_bits (a : Word) : (a.extractLsb' 0 2).toNat = a.toNat % 4 := by
  simp [BitVec.extractLsb'_toNat]

theorem low_bits12 (off : BitVec 12) : (off.extractLsb' 0 2).toNat = off.toNat % 4 := by
  simp [BitVec.extractLsb'_toNat]

theorem aligned_iff (a : Word) : a.extractLsb' 0 2 = 0 ↔ a.toNat % 4 = 0 := by
  rw [← low_bits]
  exact ⟨fun h => by rw [h]; rfl, fun h => BitVec.eq_of_toNat_eq h⟩

theorem aligned12_iff (off : BitVec 12) : off.extractLsb' 0 2 = 0 ↔ off.toNat % 4 = 0 := by
  rw [← low_bits12]
  exact ⟨fun h => by rw [h]; rfl, fun h => BitVec.eq_of_toNat_eq h⟩

theorem decodeAddr_misaligned {par : Params} {a : Word} (h : a.extractLsb' 0 2 ≠ 0) :
    decodeAddr par a = .fault .align := by
  rw [decodeAddr, if_pos (by simpa using h)]

/-! ### Port windows -/

/-- An aperture base plus a 12-bit offset, as a number: it does not wrap. -/
theorem aperture_toNat {par : Params} (hm : MapSound par) (p : Port) (b : Bus) (off : BitVec 12) :
    (apertureBase par.map p b + off.setWidth 32).toNat = (apertureBase par.map p b).toNat + off.toNat := by
  have h := hm.aligned p b
  have hb := (apertureBase par.map p b).isLt
  have ho := off.isLt
  rw [BitVec.toNat_add, BitVec.toNat_setWidth]
  omega

/-- A port-relative address is aligned when its offset is. -/
theorem aperture_aligned_iff {par : Params} (hm : MapSound par) (p : Port) (b : Bus) (off : BitVec 12) :
    (apertureBase par.map p b + off.setWidth 32).extractLsb' 0 2 = 0 ↔ off.extractLsb' 0 2 = 0 := by
  have h := hm.aligned p b
  rw [aligned_iff, aligned12_iff, aperture_toNat hm]
  omega

/-- An address in one aperture is in no other. -/
theorem aperture_unique {par : Params} (hm : MapSound par) {p q : Port} {b c : Bus} {a : Nat}
    (hp : (apertureBase par.map p b).toNat ≤ a ∧ a < (apertureBase par.map p b).toNat + 0x1000)
    (hq : (apertureBase par.map q c).toNat ≤ a ∧ a < (apertureBase par.map q c).toNat + 0x1000) :
    q = p ∧ c = b := by
  have h1 := hm.aligned p b
  have h2 := hm.aligned q c
  exact hm.distinct q c p b (BitVec.eq_of_toNat_eq (by omega))

/-- The window of a port is found from any address in it. -/
theorem portWindow_some {par : Params} (hm : MapSound par) {p : Port} {b : Bus} {a : Word}
    (ha : (apertureBase par.map p b).toNat ≤ a.toNat ∧ a.toNat < (apertureBase par.map p b).toNat + 0x1000) :
    portWindow par.map a = some (p, b) := by
  have hw : ∀ q c, inWindow (apertureBase par.map q c).toNat a 0x1000 = decide (q = p ∧ c = b) := by
    intro q c
    by_cases h : q = p ∧ c = b
    · obtain ⟨rfl, rfl⟩ := h
      rw [(inWindow_iff _ a _).mpr ha]
      simp
    · rw [inWindow_false _ a _ fun hq => h (aperture_unique hm ha hq), decide_eq_false h]
  have ha1 : ∀ q, inWindow (par.map.apbBase.get q).toNat a 0x1000 = decide (q = p ∧ Bus.apb = b) :=
    fun q => hw q .apb
  have ha2 : ∀ q, inWindow (par.map.ahbBase.get q).toNat a 0x1000 = decide (q = p ∧ Bus.ahb = b) :=
    fun q => hw q .ahb
  simp only [portWindow, ha1, ha2]
  cases p <;> cases b <;> rfl

/-- The window of a port is found from its base and any offset. -/
theorem portWindow_aperture {par : Params} (hm : MapSound par) (p : Port) (b : Bus) (off : BitVec 12) :
    portWindow par.map (apertureBase par.map p b + off.setWidth 32) = some (p, b) := by
  have ho := off.isLt
  refine portWindow_some hm ?_
  rw [aperture_toNat hm]
  omega

/-- `Decode` of an aligned address of a port's window. -/
theorem decodeAddr_aperture {par : Params} (hm : MapSound par) (p : Port) (b : Bus) (off : BitVec 12)
    (h : off.extractLsb' 0 2 = 0) :
    decodeAddr par (apertureBase par.map p b + off.setWidth 32) = portTarget par.map p b off.toNat := by
  have hal := (aperture_aligned_iff hm p b off).mpr h
  rw [decodeAddr, if_neg (by rw [hal]; decide), portWindow_aperture hm]
  simp only [aperture_toNat hm, Nat.add_sub_cancel_left]

/-- `Decode` of a misaligned address of a port's window. -/
theorem decodeAddr_aperture_misaligned {par : Params} (hm : MapSound par) (p : Port) (b : Bus)
    (off : BitVec 12) (h : off.extractLsb' 0 2 ≠ 0) :
    decodeAddr par (apertureBase par.map p b + off.setWidth 32) = .fault .align :=
  decodeAddr_misaligned fun hal => h ((aperture_aligned_iff hm p b off).mp hal)

/-! ### Register offsets -/

theorem mem_reg_all (x : Reg) : x ∈ Reg.all := by cases x <;> decide

theorem regAt_some {m : AddressMap} {n : Nat} {x : Reg} (h : regAt m n = some x) :
    (regOffset m x).toNat = n := by
  have := List.find?_some h
  simpa using this

theorem regAt_offset {par : Params} (hm : MapSound par) (x : Reg) :
    regAt par.map (regOffset par.map x).toNat = some x := by
  cases h : regAt par.map (regOffset par.map x).toNat with
  | none =>
    rw [regAt, List.find?_eq_none] at h
    exact absurd (by simp) (h x (mem_reg_all x))
  | some y => rw [hm.regDistinct y x (BitVec.eq_of_toNat_eq (regAt_some h))]

theorem portTarget_reg {par : Params} (hm : MapSound par) (p : Port) (b : Bus) (x : Reg) :
    portTarget par.map p b (regOffset par.map x).toNat = .reg p b x := by
  have := hm.regAbove x
  rw [portTarget, if_neg (by omega), regAt_offset hm]

theorem portTarget_data (m : AddressMap) (p : Port) (b : Bus) (off : BitVec 12) (h : off.toNat ≤ 0x3FC) :
    portTarget m p b off.toNat = .data p b (off.extractLsb' 2 8) := by
  rw [portTarget, if_pos h]
  congr 1
  apply BitVec.eq_of_toNat_eq
  rw [BitVec.toNat_ofNat, BitVec.extractLsb'_toNat, Nat.shiftRight_eq_div_pow]

theorem portTarget_unmapped (m : AddressMap) (p : Port) (b : Bus) (off : BitVec 12) (h : 0x3FC < off.toNat)
    (hx : ∀ x, regOffset m x ≠ off) : portTarget m p b off.toNat = .fault .unmapped := by
  rw [portTarget, if_neg (by omega)]
  cases hr : regAt m off.toNat with
  | none => rfl
  | some x => exact absurd (BitVec.eq_of_toNat_eq (regAt_some hr)) (hx x)

/-- A port-relative access reaches no word of the interrupt controller (R88, R132). -/
theorem decodeAddr_aperture_ne_nv {par : Params} (hm : MapSound par) (p : Port) (b : Bus) (off : BitVec 12)
    (kind : NvKind) (k : Nat) :
    decodeAddr par (apertureBase par.map p b + off.setWidth 32) ≠ .nv kind k := by
  by_cases h : off.extractLsb' 0 2 = 0
  · rw [decodeAddr_aperture hm p b off h, portTarget]
    split
    · nofun
    · split <;> nofun
  · rw [decodeAddr_aperture_misaligned hm p b off h]
    nofun

/-- The address of a listed register decodes to it. -/
theorem decodeAddr_regAddr {par : Params} (hm : MapSound par) (p : Port) (b : Bus) (x : Reg) :
    decodeAddr par (regAddr par.map p b x) = .reg p b x := by
  rw [regAddr, decodeAddr_aperture hm p b _ ((aligned12_iff _).mpr (hm.regAligned x)), portTarget_reg hm]

/-! ### The windows outside the ports -/

theorem portWindow_none (m : AddressMap) (a : Word) (h : ¬InPortWindow m a.toNat) :
    portWindow m a = none := by
  rw [portWindow, List.findSome?_eq_none_iff]
  intro p _
  rw [inWindow_false (m.apbBase.get p).toNat a _ fun hw => h ⟨p, .apb, hw⟩,
    inWindow_false (m.ahbBase.get p).toNat a _ fun hw => h ⟨p, .ahb, hw⟩]
  rfl

/-- `Decode` of the clock gate word's address (R89). -/
theorem decodeAddr_rcgc {par : Params} (hm : MapSound par) : decodeAddr par par.map.rcgcAddr = .sysRcgc := by
  have h := (aligned_iff _).mpr hm.rcgc.1
  rw [decodeAddr, if_neg (by rw [h]; decide), portWindow_none _ _ hm.rcgc.2]
  simp only [BEq.rfl, if_true]

/-- `Decode` of the ready word's address (R89). -/
theorem decodeAddr_pr {par : Params} (hm : MapSound par) : decodeAddr par par.map.prAddr = .sysReady := by
  have h := (aligned_iff _).mpr hm.pr.1
  rw [decodeAddr, if_neg (by rw [h]; decide), portWindow_none _ _ hm.pr.2.1]
  simp only [beq_eq_false_iff_ne.mpr hm.pr.2.2, Bool.false_eq_true, if_false, BEq.rfl, if_true]

theorem nvAddr_toNat {par : Params} (hm : MapSound par) (kind : NvKind) (k : Nat)
    (h : 4 * k < kind.length par.nIrq) :
    (nvAddr par.map kind k).toNat = par.map.nvicBase.toNat + kind.offset + 4 * k := by
  obtain ⟨-, h1, -⟩ := hm.nvic
  have hk : kind.offset + 4 * k < 0x400 + par.nIrq := by
    cases kind <;> simp only [NvKind.length, NvKind.offset] at * <;> omega
  rw [nvAddr, BitVec.toNat_add, BitVec.toNat_ofNat]
  omega

/-- `Decode` of an aligned word of an interrupt-controller window (R90). -/
theorem decodeAddr_nv {par : Params} (hm : MapSound par) (kind : NvKind) (k : Nat)
    (h : 4 * k < kind.length par.nIrq) : decodeAddr par (nvAddr par.map kind k) = .nv kind k := by
  obtain ⟨h0, h1, h2⟩ := hm.nvic
  have ha := nvAddr_toNat hm kind k h
  have ho : kind.offset % 4 = 0 := by cases kind <;> rfl
  obtain ⟨hp, hr, hq⟩ := hm.nvicApart (nvAddr par.map kind k).toNat ⟨kind, by omega, by omega⟩
  have hal : (nvAddr par.map kind k).extractLsb' 0 2 = 0 := (aligned_iff _).mpr (by omega)
  have hr' : (nvAddr par.map kind k == par.map.rcgcAddr) = false :=
    beq_eq_false_iff_ne.mpr fun e => hr (congrArg BitVec.toNat e)
  have hq' : (nvAddr par.map kind k == par.map.prAddr) = false :=
    beq_eq_false_iff_ne.mpr fun e => hq (congrArg BitVec.toNat e)
  have hw : ∀ j : NvKind, inWindow (par.map.nvicBase.toNat + j.offset) (nvAddr par.map kind k)
      (j.length par.nIrq) = decide (j = kind) := by
    intro j
    by_cases hj : j = kind
    · subst hj
      rw [(inWindow_iff _ _ _).mpr ⟨by omega, by omega⟩]
      simp
    · rw [inWindow_false, decide_eq_false hj]
      cases kind <;> cases j <;> first
        | exact absurd rfl hj
        | (simp only [NvKind.length, NvKind.offset] at *; omega)
  have hn : nvWindow par (nvAddr par.map kind k) = some kind := by
    simp only [nvWindow, hw]
    cases kind <;> rfl
  rw [decodeAddr, if_neg (by rw [hal]; decide), portWindow_none _ _ hp]
  simp only [hr', hq', hn, Bool.false_eq_true, if_false, ha]
  congr 1
  omega

/-! ### The default map -/

theorem apertureBase_default (p : Port) (b : Bus) :
    (apertureBase defaultMap p b).toNat % 0x1000 = 0 ∧ 0x40004000 ≤ (apertureBase defaultMap p b).toNat ∧
      (apertureBase defaultMap p b).toNat ≤ 0x4005D000 := by
  cases p <;> cases b <;> decide

/-- The spec's default map is sound (R9, R84, R86, R89, R90). -/
theorem defaultParams_sound (prof : Profile) : MapSound (defaultParams prof) := by
  have hp : ∀ a, 0x4005E000 ≤ a → ¬InPortWindow defaultMap a := by
    rintro a ha ⟨p, b, -, h⟩
    have := (apertureBase_default p b).2.2
    omega
  have hd : ∀ p b q c, apertureBase defaultMap p b = apertureBase defaultMap q c → p = q ∧ b = c := by
    intro p b q c
    cases p <;> cases b <;> cases q <;> cases c <;> decide
  have ho : ∀ x, (regOffset defaultMap x).toNat % 4 = 0 ∧ 0x3FC < (regOffset defaultMap x).toNat := by
    intro x
    cases x <;> decide
  have hi : ∀ x y, regOffset defaultMap x = regOffset defaultMap y → x = y := by
    intro x y
    cases x <;> cases y <;> decide
  refine ⟨fun p b => (apertureBase_default p b).1, hd, fun x => (ho x).1, fun x => (ho x).2, hi,
    ?_, ?_, ?_, ?_⟩
  · exact ⟨(by decide : defaultMap.rcgcAddr.toNat % 4 = 0), hp _ (by cases prof <;> decide)⟩
  · exact ⟨(by decide : defaultMap.prAddr.toNat % 4 = 0), hp _ (by cases prof <;> decide),
      (by decide : defaultMap.prAddr ≠ defaultMap.rcgcAddr)⟩
  · cases prof <;> decide
  rintro a ⟨kind, h, -⟩
  have h' : 0xE000E000 ≤ a := Nat.le_trans (Nat.le_add_right _ _) h
  have e1 : defaultMap.rcgcAddr.toNat = 0x400FE608 := rfl
  have e2 : defaultMap.prAddr.toNat = 0x400FEA08 := rfl
  exact ⟨hp a (by omega), fun e => by have := e.trans e1; omega, fun e => by have := e.trans e2; omega⟩

/-- The spec's default parameters are in range (R9). -/
theorem defaultParams_inRange (prof : Profile) : ParamsInRange (defaultParams prof) :=
  ⟨by cases prof <;> rfl, by cases prof <;> decide, fun p => by cases prof <;> cases p <;> decide⟩

end Sys2Proof.Machine
end

