-- ==== Sys2Proof/Laws/Bus.lean ====
section
/-! SUPPORT. What the bus reads and writes can do, and the commands that use them (R250 to R257). -/

namespace Sys2Proof.Machine

/-! ### Completing a command from the idle sequencer -/

theorem complete_idle {s : State} (h : s.seq = .idle) (data aux : Word) :
    complete data aux s = { s with resp := ⟨.ok, 0, data, aux⟩ } := by
  cases s
  simp only at h
  subst h
  rfl

theorem raiseFault_idle {s : State} (h : s.seq = .idle) (c : Status) (a : Word) :
    raiseFault c a s = { s with resp := ⟨c, a, 0, 0⟩, trace := s.trace ++ [.fault c a] } := by
  cases s
  simp only at h
  subst h
  rfl

/-! ### The commands as the bus operations they are -/

theorem portRelative_eq (par : Params) (q : BitVec 3) (off : BitVec 12) (b : Bus) :
    portRelative par q off b =
      apertureBase par.map (resolvePort par q b).port b + off.setWidth 32 := by
  unfold portRelative resolvePort
  split <;> rfl

theorem exec_rda (a : Word) (s : State) : exec (.rda a) s = accept s (readCommand a s) := rfl

theorem exec_wra (a d : Word) (s : State) : exec (.wra a d) s = accept s (writeCommand a d s) := rfl

theorem exec_rdr (q : BitVec 3) (off : BitVec 12) (b : Bus) (s : State) :
    exec (.rdr q off b) s =
      exec (.rda (apertureBase s.par.map (resolvePort s.par q b).port b + off.setWidth 32)) s := by
  rw [exec_rda, ← portRelative_eq]
  rfl

theorem exec_wrr (q : BitVec 3) (off : BitVec 12) (b : Bus) (d : Word) (s : State) :
    exec (.wrr q off b d) s =
      exec (.wra (apertureBase s.par.map (resolvePort s.par q b).port b + off.setWidth 32) d) s := by
  rw [exec_wra, ← portRelative_eq]
  rfl

/-- A read command from the idle sequencer, where the bus answers a value. -/
theorem exec_rda_ok {s : State} {a v : Word} (h : s.seq = .idle) (hb : busRead (decodeAddr s.par a) s = .ok v) :
    exec (.rda a) s = .next { s with resp := ⟨.ok, 0, v, 0⟩, trace := s.trace ++ [.read a v] } := by
  rw [exec_rda, accept_idle h, readCommand, hb]
  simp only [complete_idle (s := emit (.read a v) s) h]
  rfl

/-- A read command from the idle sequencer, where the bus faults. -/
theorem exec_rda_error {s : State} {a : Word} {c : Status} (h : s.seq = .idle)
    (hb : busRead (decodeAddr s.par a) s = .error c) :
    exec (.rda a) s = .next { s with resp := ⟨c, a, 0, 0⟩, trace := s.trace ++ [.fault c a] } := by
  rw [exec_rda, accept_idle h, readCommand, hb]
  simp only [raiseFault_idle h]

/-- A bus write keeps the sequencer and the trace. -/
theorem busWrite_keeps {t : Target} {d : Word} {s u : State} (h : busWrite t d s = .ok u) :
    u.seq = s.seq ∧ u.trace = s.trace ∧ u.resp = s.resp := by
  unfold busWrite at h
  split at h
  · cases h
  · split at h
    · cases h
    · injection h with h; subst h; exact ⟨rfl, rfl, rfl⟩
  · split at h
    · cases h
    · injection h with h; subst h; exact ⟨rfl, rfl, rfl⟩
  · injection h with h; subst h; exact ⟨rfl, rfl, rfl⟩
  · injection h with h; subst h; exact ⟨rfl, rfl, rfl⟩
  · injection h with h; subst h
    unfold nvWrite
    split <;> exact ⟨rfl, rfl, rfl⟩

/-- A write command from the idle sequencer, where the bus performs it. -/
theorem exec_wra_ok {s u : State} {a d : Word} (h : s.seq = .idle)
    (hb : busWrite (decodeAddr s.par a) d s = .ok u) :
    exec (.wra a d) s = .next { u with resp := ⟨.ok, 0, 0, 0⟩, trace := s.trace ++ [.write a d] } := by
  obtain ⟨hq, ht, -⟩ := busWrite_keeps hb
  rw [exec_wra, accept_idle h, writeCommand, hb]
  simp only [complete_idle (s := emit (.write a d) u) (hq.trans h)]
  rw [← ht]
  rfl

/-- A write command from the idle sequencer, where the bus faults. -/
theorem exec_wra_error {s : State} {a d : Word} {c : Status} (h : s.seq = .idle)
    (hb : busWrite (decodeAddr s.par a) d s = .error c) :
    exec (.wra a d) s = .next { s with resp := ⟨c, a, 0, 0⟩, trace := s.trace ++ [.fault c a] } := by
  rw [exec_wra, accept_idle h, writeCommand, hb]
  simp only [raiseFault_idle h]

/-! ### What a command leaves of the control state -/

/-- The control state outside the port registers is as before (R45 to R49). -/
structure ControlKept (s u : State) : Prop where
  par : u.par = s.par
  armt : u.armt = s.armt
  act : u.act = s.act
  stack : u.stack = s.stack

/-- The lines' enable bits, pending bits and priorities are as before. -/
structure LinesKept (s u : State) : Prop where
  en : u.en = s.en
  pend : u.pend = s.pend
  pri : u.pri = s.pri

theorem busWrite_control {t : Target} {d : Word} {s u : State} (h : busWrite t d s = .ok u) :
    ControlKept s u ∧ ((∀ kind k, t ≠ .nv kind k) → LinesKept s u) := by
  unfold busWrite at h
  split at h
  · cases h
  · split at h
    · cases h
    · injection h with h; subst h; exact ⟨⟨rfl, rfl, rfl, rfl⟩, fun _ => ⟨rfl, rfl, rfl⟩⟩
  · split at h
    · cases h
    · injection h with h; subst h; exact ⟨⟨rfl, rfl, rfl, rfl⟩, fun _ => ⟨rfl, rfl, rfl⟩⟩
  · injection h with h; subst h; exact ⟨⟨rfl, rfl, rfl, rfl⟩, fun _ => ⟨rfl, rfl, rfl⟩⟩
  · injection h with h; subst h; exact ⟨⟨rfl, rfl, rfl, rfl⟩, fun _ => ⟨rfl, rfl, rfl⟩⟩
  · injection h with h; subst h
    refine ⟨?_, fun hn => absurd rfl (hn _ _)⟩
    unfold nvWrite
    split <;> exact ⟨rfl, rfl, rfl, rfl⟩

theorem readCommand_control (a : Word) (s : State) :
    ControlKept s (readCommand a s) ∧ LinesKept s (readCommand a s) := by
  unfold readCommand
  split <;> exact ⟨⟨rfl, rfl, rfl, rfl⟩, rfl, rfl, rfl⟩

/-- A write command changes the lines only as the interrupt-controller word it writes says. -/
theorem writeCommand_control (a d : Word) (s : State) :
    ControlKept s (writeCommand a d s) ∧
      (LinesKept s (writeCommand a d s) ∨
        ∃ kind k, decodeAddr s.par a = .nv kind k ∧ LinesKept (nvWrite kind k d s) (writeCommand a d s)) := by
  cases hb : busWrite (decodeAddr s.par a) d s with
  | error c =>
    have e : writeCommand a d s = raiseFault c a s := by rw [writeCommand, hb]
    rw [e]
    exact ⟨⟨rfl, rfl, rfl, rfl⟩, .inl ⟨rfl, rfl, rfl⟩⟩
  | ok u =>
    have e : writeCommand a d s = complete 0 0 (emit (.write a d) u) := by rw [writeCommand, hb]
    obtain ⟨hc, hl⟩ := busWrite_control hb
    rw [e]
    refine ⟨⟨hc.par, hc.armt, hc.act, hc.stack⟩, ?_⟩
    by_cases ht : ∃ kind k, decodeAddr s.par a = .nv kind k
    · obtain ⟨kind, k, ht⟩ := ht
      rw [ht] at hb
      injection hb with hb
      exact .inr ⟨kind, k, ht, by subst hb; exact ⟨rfl, rfl, rfl⟩⟩
    · have := hl fun kind k h => ht ⟨kind, k, h⟩
      exact .inl ⟨this.en, this.pend, this.pri⟩

theorem loadCommand_control (cmd : Instr) (s : State) :
    ControlKept s (loadCommand cmd s) ∧ LinesKept s (loadCommand cmd s) := by
  unfold loadCommand
  split <;> exact ⟨⟨rfl, rfl, rfl, rfl⟩, rfl, rfl, rfl⟩

/-- What accepting a command leaves of the control state: all of it, but for the lines a WRA to an
interrupt-controller word names, where the address map is sound. -/
theorem exec_control {i : Instr} {s u : State} (h : exec i s = .next u) :
    ControlKept s u ∧
      (MapSound s.par → LinesKept s u ∨
        ∃ a d kind k, i = .wra a d ∧ decodeAddr s.par a = .nv kind k ∧
          LinesKept (nvWrite kind k d s) u) := by
  have hi : s.seq = .idle := by
    cases hs : s.seq with
    | idle => rfl
    | busy cmd ops j => cases i <;> exact absurd ((accept_busy hs _).symm.trans h) nofun
  have next : ∀ {v : State}, accept s v = .next u → v = u := fun e => by
    rw [accept_idle hi] at e
    injection e
  cases i with
  | rdr q off b =>
    rw [← next h]
    exact ⟨(readCommand_control _ _).1, fun _ => .inl (readCommand_control _ _).2⟩
  | rda a =>
    rw [← next h]
    exact ⟨(readCommand_control _ _).1, fun _ => .inl (readCommand_control _ _).2⟩
  | wrr q off b d =>
    rw [← next h]
    refine ⟨(writeCommand_control _ _ _).1, fun hm => ?_⟩
    rcases (writeCommand_control (portRelative s.par q off b) d s).2 with hl | ⟨kind, k, hk, -⟩
    · exact .inl hl
    · rw [portRelative_eq] at hk
      exact absurd hk (decodeAddr_aperture_ne_nv hm _ _ _ _ _)
  | wra a d =>
    rw [← next h]
    refine ⟨(writeCommand_control _ _ _).1, fun _ => ?_⟩
    rcases (writeCommand_control a d s).2 with hl | ⟨kind, k, hk, hl⟩
    · exact .inl hl
    · exact .inr ⟨a, d, kind, k, rfl, hk, hl⟩
  | cfg =>
    rw [← next h]
    exact ⟨(loadCommand_control _ _).1, fun _ => .inl (loadCommand_control _ _).2⟩
  | arm =>
    rw [← next h]
    exact ⟨(loadCommand_control _ _).1, fun _ => .inl (loadCommand_control _ _).2⟩
  | deinit =>
    rw [← next h]
    exact ⟨(loadCommand_control _ _).1, fun _ => .inl (loadCommand_control _ _).2⟩
  | clken =>
    rw [← next h]
    exact ⟨(loadCommand_control _ _).1, fun _ => .inl (loadCommand_control _ _).2⟩
  | clkdis =>
    rw [← next h]
    exact ⟨(loadCommand_control _ _).1, fun _ => .inl (loadCommand_control _ _).2⟩
  | nop => rw [← next h]; exact ⟨⟨rfl, rfl, rfl, rfl⟩, fun _ => .inl ⟨rfl, rfl, rfl⟩⟩
  | resolve => rw [← next h]; exact ⟨⟨rfl, rfl, rfl, rfl⟩, fun _ => .inl ⟨rfl, rfl, rfl⟩⟩
  | rdarm => rw [← next h]; exact ⟨⟨rfl, rfl, rfl, rfl⟩, fun _ => .inl ⟨rfl, rfl, rfl⟩⟩

/-! ### The access check -/

theorem accessFault_none (p : Port) (b : Bus) (s : State) : accessFault p b s = none ↔ Accessible p b s := by
  unfold accessFault Accessible
  cases b <;> cases h1 : s.par.ahbEnabled.get p <;> cases h2 : s.gateOn p <;> cases h3 : s.isReady p <;> simp

theorem accessFault_ready {p : Port} {b : Bus} {s : State} (h : Accessible p b s) :
    accessFault p b s = none := (accessFault_none p b s).mpr h

theorem busRead_reg {p : Port} {b : Bus} {s : State} (h : Accessible p b s) (x : Reg) :
    busRead (.reg p b x) s = .ok (regRead p x s) := by
  simp only [busRead, accessFault_ready h]

theorem busWrite_reg {p : Port} {b : Bus} {s : State} (h : Accessible p b s) (x : Reg) (d : Word) :
    busWrite (.reg p b x) d s = .ok (regWrite p x d s) := by
  simp only [busWrite, accessFault_ready h]

theorem busRead_data {p : Port} {b : Bus} {s : State} (h : Accessible p b s) (m : Byte) :
    busRead (.data p b m) s = .ok (zext (dataRead p m s)) := by
  simp only [busRead, accessFault_ready h]

theorem busWrite_data {p : Port} {b : Bus} {s : State} (h : Accessible p b s) (m : Byte) (d : Word) :
    busWrite (.data p b m) d s = .ok (dataWrite p m d s) := by
  simp only [busWrite, accessFault_ready h]

/-! ### Bits of the register values -/

theorem zext_bit (v : Byte) (k : Nat) : (zext v).getLsbD k = v.getLsbD k := by
  by_cases hk : k < 32
  · simp [-BitVec.getLsbD_eq_getElem, zext, BitVec.getLsbD_setWidth, hk]
  · have : v.getLsbD k = false := BitVec.getLsbD_of_ge v k (by omega)
    simp [-BitVec.getLsbD_eq_getElem, zext, BitVec.getLsbD_setWidth, hk, this]

theorem low_bit (v : Word) (o : Off) : (v.setWidth 8 : Byte).getLsbD o = v.getLsbD o := by
  simp [-BitVec.getLsbD_eq_getElem, BitVec.getLsbD_setWidth]

theorem merge_bit (mask old v : Byte) (o : Off) :
    (merge mask old v).getLsbD o = if mask.getLsbD o then v.getLsbD o else old.getLsbD o := by
  simp only [merge, BitVec.getLsbD_or, BitVec.getLsbD_and, BitVec.getLsbD_not]
  cases mask.getLsbD o <;> simp

theorem commitMask_bit (prof : Profile) (r : PortRegs) (o : Off) :
    (commitMask prof r).getLsbD o = committed prof r o := by
  cases prof
  · rfl
  · simp only [commitMask, committed]
    revert o
    decide

theorem siblingClear_bit (prof : Profile) (v : Byte) (o : Off) :
    (siblingClear prof v).getLsbD o = (v.getLsbD o && prof == .tm4c123) := by
  cases prof <;> simp [siblingClear]

end Sys2Proof.Machine
end

