-- ==== Sys2Proof/Laws/Controller.lean ====
section
/-! SUPPORT. The interrupt-controller words and the clock gate word, bit by bit (R268 to R271). -/

namespace Sys2Proof.Machine

theorem lineWord_bit (v : LineBits) (k b : Nat) (hb : b < 32) :
    (lineWord v k).getLsbD b = v.testBit (32 * k + b) := by
  rw [lineWord, BitVec.getLsbD_ofNat, Nat.testBit_shiftRight, decide_eq_true hb, Bool.true_and]

theorem lineMask_bit (par : Params) (k : Nat) (d : Word) (n : Nat) :
    (lineMask par k d).testBit n = (decide (n < par.nIrq) && (n / 32 == k && d.getLsbD (n % 32))) := by
  rw [lineMask, existingLines_testBit, Nat.testBit_shiftLeft]
  congr 1
  by_cases h : n / 32 = k
  · have h1 : 32 * k ≤ n := by omega
    have h2 : n - 32 * k = n % 32 := by omega
    simp [h, h1, h2, BitVec.testBit_toNat]
  · have hne : (n / 32 == k) = false := by simpa using h
    rw [hne, Bool.false_and]
    by_cases h1 : 32 * k ≤ n
    · have : d.toNat.testBit (n - 32 * k) = false := by
        rw [BitVec.testBit_toNat]
        exact BitVec.getLsbD_of_ge d _ (by omega)
      simp [this]
    · simp [h1]

/-- Line `n`'s priority after a priority word is written (R271). -/
theorem priWrite_get (k : Nat) (d : Word) (s : State) {n : Nat} (hn : n < s.par.nIrq) :
    (priWrite k d s).getD n 0 = if n / 4 = k then priOfByte s.par d (n % 4) else s.priAt n := by
  simp [priWrite, List.getD, hn]

theorem priWrite_length (k : Nat) (d : Word) (s : State) : (priWrite k d s).length = s.par.nIrq := by
  simp [priWrite]

/-- The priority in a byte of a word, bit by bit (R271). -/
theorem priOfByte_bit {par : Params} (hp : ParamsInRange par) (d : Word) (c i : Nat) :
    (priOfByte par d c).getLsbD i =
      (decide (i < par.prioBits) && d.getLsbD (8 * c + 8 - par.prioBits + i)) := by
  obtain ⟨h1, h2⟩ := hp.prioBits
  rw [priOfByte, BitVec.getLsbD_ushiftRight, BitVec.getLsbD_extractLsb']
  have e : 8 * c + (8 - par.prioBits + i) = 8 * c + 8 - par.prioBits + i := by omega
  rw [e]
  congr 1
  exact decide_eq_decide.mpr (by omega)

/-- What byte `c` of a word holds of a byte placed as byte `j`. -/
theorem byte_extract (a : Byte) (c j sh : Nat) (hc : c < 4) (hj : j < 4) (hs : sh = 8 * j) :
    (zext a <<< sh).extractLsb' (8 * c) 8 = if c = j then a else 0 := by
  subst hs
  apply BitVec.eq_of_getLsbD_eq
  intro i hi
  rw [BitVec.getLsbD_extractLsb', BitVec.getLsbD_shiftLeft, zext_bit]
  have h32 : 8 * c + i < 32 := by omega
  by_cases h : c = j
  · subst h
    simp [-BitVec.getLsbD_eq_getElem, hi, h32]
  · rw [if_neg h]
    by_cases hlt : 8 * c + i < 8 * j
    · simp [-BitVec.getLsbD_eq_getElem, hi, hlt]
    · have : a.getLsbD (8 * c + i - 8 * j) = false := BitVec.getLsbD_of_ge a _ (by omega)
      simp [-BitVec.getLsbD_eq_getElem, hi, this]

/-- A byte of a priority word as it is read (R269). -/
theorem nvRead_pri_byte (s : State) (k c : Nat) (hc : c < 4) :
    (nvRead .pri k s).extractLsb' (8 * c) 8 = s.priAt (4 * k + c) <<< (8 - s.par.prioBits) := by
  have h := fun (a : Byte) (j sh : Nat) (hj : j < 4) (hs : sh = 8 * j) => byte_extract a c j sh hc hj hs
  unfold nvRead
  simp only [BitVec.extractLsb'_or, priByte]
  have h0 := h (s.priAt (4 * k) <<< (8 - s.par.prioBits)) 0 0 (by decide) rfl
  rw [BitVec.shiftLeft_zero] at h0
  rw [h0, h _ 1 8 (by decide) rfl, h _ 2 16 (by decide) rfl, h _ 3 24 (by decide) rfl]
  have : c = 0 ∨ c = 1 ∨ c = 2 ∨ c = 3 := by omega
  rcases this with rfl | rfl | rfl | rfl <;> simp

/-- The gate and ready bits after a write of the clock gate word (R268). -/
theorem rcgcWrite_bits (d : Word) (s : State) (p : Port) :
    (rcgcWrite d s).gateOn p = d.getLsbD p.index ∧
      (rcgcWrite d s).isReady p = (d.getLsbD p.index &&
        (s.isReady p || (s.par.clockReady == .immediate && !s.gateOn p))) := by
  have hp := Port.index_lt p
  have hd : (d.setWidth 6 : BitVec 6).getLsbD p.index = d.getLsbD p.index := by
    rw [BitVec.getLsbD_setWidth]
    simp [-BitVec.getLsbD_eq_getElem, hp]
  refine ⟨hd, ?_⟩
  simp only [State.isReady, State.gateOn, rcgcWrite, BitVec.getLsbD_or, BitVec.getLsbD_and, hd]
  cases h : s.par.clockReady <;>
    simp [-BitVec.getLsbD_eq_getElem, hp, hd, BitVec.getLsbD_and, BitVec.getLsbD_not] <;>
    cases d.getLsbD p.index <;> simp

theorem zext_extract {w : Nat} (v : BitVec w) (h : w ≤ 32) : (zext v).extractLsb' 0 w = v := by
  apply BitVec.eq_of_getLsbD_eq
  intro k hk
  have : k < 32 := by omega
  simp [-BitVec.getLsbD_eq_getElem, zext, hk, BitVec.getLsbD_setWidth, this]

end Sys2Proof.Machine
end

