-- ==== Sys2Proof/Laws/Engine.lean ====
section
/-! SUPPORT. What a micro-operation, one sequencer step and a run of the sequencer leave (R51, R181, R182). A
run is followed on the registers with RIS erased, since detection may change RIS at every step. -/

namespace Sys2Proof.Machine

/-! ### One micro-operation -/

/-- A register micro-operation on an accessible port: the write and its event. -/
theorem opWrite_ready {p : Port} {b : Bus} {s : State} (h : Accessible p b s) (x : Reg) (v : Word) :
    opWrite p b x v s = .done (emit (.write (regAddr s.par.map p b x) v) (regWrite p x v s)) := by
  simp only [opWrite, accessFault_ready h]

/-- What no micro-operation changes. -/
structure OpFrame (s t : State) : Prop where
  sampled : t.sampled = s.sampled
  pend : t.pend = s.pend
  act : t.act = s.act
  pri : t.pri = s.pri
  stack : t.stack = s.stack
  seq : t.seq = s.seq
  resp : t.resp = s.resp
  par : t.par = s.par
  stream : t.stream = s.stream
  turns : t.turns = s.turns
  level : t.level = s.level
  xline : t.xline = s.xline
  waited : t.waited = s.waited
  tick : t.tick = s.tick

theorem opWrite_done {p : Port} {b : Bus} {x : Reg} {v : Word} {s t : State}
    (h : opWrite p b x v s = .done t) :
    t = emit (.write (regAddr s.par.map p b x) v) (regWrite p x v s) := by
  unfold opWrite at h
  split at h
  · cases h
  · injection h with h; exact h.symm

/-- A micro-operation that takes effect keeps every field it does not name. -/
theorem runOp_frame {op : MicroOp} {s t : State} (h : runOp op s = .done t) : OpFrame s t := by
  cases op <;> simp only [runOp] at h
  case waitRdy p =>
    split at h
    · injection h with h; subst h; constructor <;> rfl
    · cases h
  case bset => rw [opWrite_done h]; constructor <;> rfl
  case bclr => rw [opWrite_done h]; constructor <;> rfl
  case nib => rw [opWrite_done h]; constructor <;> rfl
  case w1c => rw [opWrite_done h]; constructor <;> rfl
  all_goals (injection h with h; subst h; constructor <;> rfl)

/-! ### Registers with RIS erased -/

/-- The registers of a port without RIS, which detection may change at every step. -/
def erase (r : PortRegs) : PortRegs := { r with ris := 0 }

theorem erase_eq_iff (r r' : PortRegs) : erase r' = erase r ↔ r' = { r with ris := r'.ris } := by
  cases r; cases r'
  simp [erase]

theorem erase_erase (r : PortRegs) : erase (erase r) = erase r := rfl

theorem erase_endOfStep (s : State) (p : Port) : erase ((endOfStep s).port p) = erase (s.port p) := by
  rw [endOfStep_port]
  rfl

/-- What a register write leaves but for RIS does not depend on RIS, nor on the free byte. -/
theorem erase_writeReg (prof : Profile) (noise : Byte) (x : Reg) (v : Word) (r : PortRegs) :
    erase (writeReg prof noise x v r) = erase (writeReg prof 0 x v (erase r)) := by
  cases x <;> try rfl
  case cr => cases prof <;> cases r with | mk => rename_i l _ _ _ _ _; cases l <;> rfl
  all_goals (cases prof <;> rfl)

/-- What a micro-operation leaves of the registers it acts on, but for RIS. -/
def opEffect (prof : Profile) (op : MicroOp) (r : PortRegs) : PortRegs :=
  match op with
  | .bset _ _ x o => erase (writeReg prof 0 x (readReg r x ||| bitWord o) r)
  | .bclr _ _ x o => erase (writeReg prof 0 x (readReg r x &&& ~~~bitWord o) r)
  | .nib _ _ o c => erase (writeReg prof 0 .pctl (nibValue (readReg r .pctl) o c) r)
  | .w1c _ _ _ | .clkSet _ | .clkClr _ | .waitRdy _ | .armSet _ _ | .armClr _ | .irqEn _ => erase r

/-- A register micro-operation of port `p` through aperture `b`, on a register other than RIS and MIS. -/
def RegOp (p : Port) (b : Bus) (op : MicroOp) : Prop :=
  (∃ x o, x ≠ .ris ∧ x ≠ .mis ∧ (op = .bset p b x o ∨ op = .bclr p b x o)) ∨
    (∃ o c, op = .nib p b o c) ∨ ∃ o, op = .w1c p b o

/-- The address a register micro-operation writes. -/
def opAddr (m : AddressMap) : MicroOp → Word
  | .bset p b x _ | .bclr p b x _ => regAddr m p b x
  | .nib p b _ _ => regAddr m p b .pctl
  | .w1c p b _ => regAddr m p b .icr
  | .clkSet _ | .clkClr _ => m.rcgcAddr
  | .irqEn n => setEnaAddr m n
  | .waitRdy _ | .armSet _ _ | .armClr _ => 0

theorem readReg_erase (r : PortRegs) (x : Reg) (h1 : x ≠ .ris) (h2 : x ≠ .mis) :
    readReg (erase r) x = readReg r x := by
  cases x <;> first | rfl | exact absurd rfl h1 | exact absurd rfl h2

/-- A register micro-operation of an accessible port writes one value at its address, on that port alone. -/
theorem runOp_regOp {p : Port} {b : Bus} {op : MicroOp} {s : State} (h : Accessible p b s)
    (ho : RegOp p b op) :
    ∃ r v, runOp op s = .done
        { s with regs := s.regs.set p r, trace := s.trace ++ [.write (opAddr s.par.map op) v] } ∧
      erase r = opEffect s.par.profile op (erase (s.port p)) := by
  rcases ho with ⟨x, o, h1, h2, rfl | rfl⟩ | ⟨o, c, rfl⟩ | ⟨o, rfl⟩
  · refine ⟨_, _, opWrite_ready h x _, ?_⟩
    rw [erase_writeReg, opEffect, readReg_erase _ _ h1 h2]
    rfl
  · refine ⟨_, _, opWrite_ready h x _, ?_⟩
    rw [erase_writeReg, opEffect, readReg_erase _ _ h1 h2]
    rfl
  · exact ⟨_, _, opWrite_ready h .pctl _, rfl⟩
  · exact ⟨_, _, opWrite_ready h .icr _, rfl⟩

/-! ### One step of the sequencer -/

theorem sequencerStep_done {s t : State} {cmd : Instr} {ops : List MicroOp} {i : Nat} {op : MicroOp}
    (hs : s.seq = .busy cmd ops i) (ho : ops[i]? = some op) (hr : runOp op s = .done t) :
    sequencerStep s = advance cmd ops i t := by
  unfold sequencerStep
  rw [hs]
  simp only [ho, hr]

theorem sequencerStep_hold {s : State} {cmd : Instr} {ops : List MicroOp} {i : Nat} {op : MicroOp}
    (hs : s.seq = .busy cmd ops i) (ho : ops[i]? = some op) (hr : runOp op s = .hold) :
    sequencerStep s = s := by
  unfold sequencerStep
  rw [hs]
  simp only [ho, hr]

theorem sequencerStep_fault {s : State} {cmd : Instr} {ops : List MicroOp} {i : Nat} {op : MicroOp}
    {c : Status} {a : Word} (hs : s.seq = .busy cmd ops i) (ho : ops[i]? = some op)
    (hr : runOp op s = .fault c a) : sequencerStep s = raiseFault c a s := by
  unfold sequencerStep
  rw [hs]
  simp only [ho, hr]

theorem sequencerStep_idle {s : State} (hs : s.seq = .idle) : sequencerStep s = s := by
  unfold sequencerStep
  rw [hs]

theorem advance_more {cmd : Instr} {ops : List MicroOp} {i : Nat} (h : i + 1 < ops.length) (s : State) :
    advance cmd ops i s = { s with seq := .busy cmd ops (i + 1) } := by
  rw [advance, if_pos h]

theorem advance_last {cmd : Instr} {ops : List MicroOp} {i : Nat} (h : i + 1 = ops.length) (s : State) :
    advance cmd ops i s = complete 0 (completionAux s.par cmd) s := by
  rw [advance, if_neg (by omega)]

/-! ### Runs of the sequencer -/

theorem seqRun_add (j k : Nat) (s : State) : seqRun (j + k) s = seqRun k (seqRun j s) := by
  induction j generalizing s with
  | zero => rw [Nat.zero_add, seqRun]
  | succ j ih => rw [Nat.succ_add, seqRun, seqRun, ih]

/-- What a run over register micro-operations keeps, and what it leaves in the registers. -/
structure RegRun (p : Port) (ops : List MicroOp) (s t : State) : Prop where
  rcgc : t.rcgc = s.rcgc
  ready : t.ready = s.ready
  armt : t.armt = s.armt
  en : t.en = s.en
  frame : RunFrame s t
  effect : erase (t.port p) = ops.foldl (fun r op => opEffect s.par.profile op r) (erase (s.port p))
  others : ∀ q, q ≠ p → erase (t.port q) = erase (s.port q)
  trace : ∃ values : List Word, values.length = ops.length ∧
    t.trace = s.trace ++ List.zipWith Event.write (ops.map (opAddr s.par.map)) values

/-- One step of the sequencer at a register micro-operation of an accessible port. -/
theorem seqRun_regOp {p : Port} {b : Bus} {s : State} {cmd : Instr} {ops : List MicroOp} {i : Nat}
    {op : MicroOp} (hs : s.seq = .busy cmd ops i) (ho : ops[i]? = some op) (hop : RegOp p b op)
    (ha : Accessible p b s) :
    RegRun p [op] s (seqRun 1 s) ∧
      (i + 1 < ops.length → (seqRun 1 s).seq = .busy cmd ops (i + 1)) ∧
      (i + 1 = ops.length → (seqRun 1 s).seq = .idle ∧
        (seqRun 1 s).resp = ⟨.ok, 0, 0, completionAux s.par cmd⟩) := by
  have ha' : Accessible p b (beginStep s) := ha
  obtain ⟨r, v, hr, he⟩ := runOp_regOp ha' hop
  have hstep := sequencerStep_done (s := beginStep s) hs ho hr
  have hlt : i < ops.length := by
    by_contra hc
    rw [List.getElem?_eq_none (by omega)] at ho
    cases ho
  have hrun : seqRun 1 s = endOfStep (advance cmd ops i _) := congrArg endOfStep hstep
  have hp : ∀ t : State, t.regs = s.regs.set p r → erase (t.port p) = erase r ∧
      ∀ q, q ≠ p → erase (t.port q) = erase (s.port q) := by
    intro t ht
    refine ⟨by rw [State.port, ht, PerPort.get_set_self], fun q hq => ?_⟩
    rw [State.port, ht, PerPort.get_set_ne _ _ hq]
    rfl
  rw [hrun]
  by_cases hl : i + 1 < ops.length
  · rw [advance_more hl]
    refine ⟨?_, fun _ => rfl, fun h => absurd h (by omega)⟩
    refine ⟨rfl, rfl, rfl, rfl, ⟨rfl, rfl, rfl, rfl, rfl, rfl⟩, ?_, ?_, [v], rfl, rfl⟩
    · rw [erase_endOfStep]
      exact (hp _ rfl).1.trans he
    · intro q hq
      rw [erase_endOfStep]
      exact (hp _ rfl).2 q hq
  · have hl' : i + 1 = ops.length := by omega
    rw [advance_last hl']
    refine ⟨?_, fun h => absurd h hl, fun _ => ⟨rfl, rfl⟩⟩
    refine ⟨rfl, rfl, rfl, rfl, ⟨rfl, rfl, rfl, rfl, rfl, rfl⟩, ?_, ?_, [v], rfl, rfl⟩
    · rw [erase_endOfStep]
      exact (hp _ rfl).1.trans he
    · intro q hq
      rw [erase_endOfStep]
      exact (hp _ rfl).2 q hq

theorem RegRun.refl (p : Port) (s : State) : RegRun p [] s s :=
  ⟨rfl, rfl, rfl, rfl, ⟨rfl, rfl, rfl, rfl, rfl, rfl⟩, rfl, fun _ _ => rfl, [], rfl, by simp⟩

theorem RegRun.trans {p : Port} {l m : List MicroOp} {s t u : State} (h : RegRun p l s t)
    (g : RegRun p m t u) : RegRun p (l ++ m) s u := by
  obtain ⟨v, hv, htv⟩ := h.trace
  obtain ⟨w, hw, htw⟩ := g.trace
  refine ⟨g.rcgc.trans h.rcgc, g.ready.trans h.ready, g.armt.trans h.armt, g.en.trans h.en,
    ⟨g.frame.act.trans h.frame.act, g.frame.pri.trans h.frame.pri, g.frame.stack.trans h.frame.stack,
      g.frame.par.trans h.frame.par, g.frame.stream.trans h.frame.stream,
      g.frame.xline.trans h.frame.xline⟩, ?_, fun q hq => (g.others q hq).trans (h.others q hq),
    v ++ w, by rw [List.length_append, List.length_append, hv, hw], ?_⟩
  · rw [g.effect, h.frame.par, h.effect, List.foldl_append]
  · rw [htw, htv, h.frame.par, List.append_assoc, List.map_append,
      List.zipWith_append (by rw [List.length_map, hv])]

theorem RegRun.accessible {p : Port} {b : Bus} {l : List MicroOp} {s t : State} (h : RegRun p l s t)
    (ha : Accessible p b s) : Accessible p b t := by
  obtain ⟨h1, h2, h3⟩ := ha
  refine ⟨fun hb => ?_, ?_, ?_⟩
  · rw [h.frame.par]
    exact h1 hb
  · rw [State.gateOn, h.rcgc]
    exact h2
  · rw [State.isReady, h.ready]
    exact h3

/-- A run of the sequencer over register micro-operations of one accessible port that stand in the middle of
its list: it ends at the micro-operation after them, or, where they end the list, with the command's
completion. -/
theorem seqRun_regOps {p : Port} {b : Bus} {cmd : Instr} (mid : List MicroOp) :
    ∀ {s : State} (pre post : List MicroOp), s.seq = .busy cmd (pre ++ mid ++ post) pre.length →
      (∀ op ∈ mid, RegOp p b op) → Accessible p b s → mid ≠ [] →
      RegRun p mid s (seqRun mid.length s) ∧
        (post ≠ [] →
          (seqRun mid.length s).seq = .busy cmd (pre ++ mid ++ post) (pre.length + mid.length)) ∧
        (post = [] → (seqRun mid.length s).seq = .idle ∧
          (seqRun mid.length s).resp = ⟨.ok, 0, 0, completionAux s.par cmd⟩) := by
  induction mid with
  | nil => intro s pre post _ _ _ h; exact absurd rfl h
  | cons op rest ih =>
    intro s pre post hs hops ha _
    have hget : (pre ++ (op :: rest) ++ post)[pre.length]? = some op := by simp
    obtain ⟨hrun, hmore, hlast⟩ := seqRun_regOp hs hget (hops op (List.mem_cons_self ..)) ha
    have hlen : (pre ++ (op :: rest) ++ post).length = pre.length + 1 + rest.length + post.length := by
      simp only [List.length_append, List.length_cons]
      omega
    cases rest with
    | nil =>
      refine ⟨hrun, fun hp => hmore ?_, fun hp => hlast ?_⟩
      · have := List.length_pos_iff.mpr hp
        rw [hlen, List.length_nil]
        omega
      · rw [hlen, hp]
        rfl
    | cons op' rest' =>
      have hs' : (seqRun 1 s).seq =
          .busy cmd ((pre ++ [op]) ++ (op' :: rest') ++ post) (pre ++ [op]).length := by
        have e : (pre ++ [op]) ++ (op' :: rest') ++ post = pre ++ (op :: op' :: rest') ++ post := by simp
        rw [e, List.length_append, List.length_singleton]
        refine hmore ?_
        rw [hlen, List.length_cons]
        omega
      obtain ⟨hrun', hmore', hlast'⟩ := ih (pre ++ [op]) post hs'
        (fun o ho => hops o (List.mem_cons_of_mem _ ho)) (hrun.accessible ha) (by simp)
      have hsplit : seqRun (op :: op' :: rest').length s = seqRun (op' :: rest').length (seqRun 1 s) := by
        rw [← seqRun_add, List.length_cons, Nat.add_comm]
      have e : (pre ++ [op]) ++ (op' :: rest') ++ post = pre ++ (op :: op' :: rest') ++ post := by simp
      rw [hsplit]
      refine ⟨hrun.trans hrun', fun hp => ?_, fun hp => ?_⟩
      · rw [hmore' hp, e]
        simp only [List.length_append, List.length_cons, List.length_nil]
        congr 1
        omega
      · obtain ⟨h1, h2⟩ := hlast' hp
        rw [hrun.frame.par] at h2
        exact ⟨h1, h2⟩

/-! ### Step 1 of a CFG: the clock gate and the wait (R184) -/

/-- At a WAITRDY whose port is not ready the sequencer holds (R51, R181). -/
theorem sequencerStep_wait {s : State} {cmd : Instr} {ops : List MicroOp} {i : Nat} {p : Port}
    (hs : s.seq = .busy cmd ops i) (ho : ops[i]? = some (.waitRdy p)) (hr : s.isReady p = false) :
    sequencerStep s = s :=
  sequencerStep_hold hs ho (by rw [runOp, hr]; rfl)

/-- At a WAITRDY whose port is ready the sequencer moves on (R51, R181). -/
theorem sequencerStep_ready {s : State} {cmd : Instr} {ops : List MicroOp} {i : Nat} {p : Port}
    (hs : s.seq = .busy cmd ops i) (ho : ops[i]? = some (.waitRdy p)) (hr : s.isReady p = true)
    (hl : i + 1 < ops.length) : sequencerStep s = { s with seq := .busy cmd ops (i + 1) } := by
  rw [sequencerStep_done hs ho (t := s) (by rw [runOp, hr]; rfl), advance_more hl]

/-- What the micro-operations of step 1 leave, from the `i`-th on. -/
structure ClockRun (p : Port) (i : Nat) (s t : State) : Prop where
  rcgc : t.rcgc = setBit s.rcgc p.index
  gate : t.gateOn p = true
  ready : t.isReady p = true
  armt : t.armt = s.armt
  en : t.en = s.en
  frame : RunFrame s t
  ports : ∀ q, erase (t.port q) = erase (s.port q)
  trace : t.trace = s.trace ++
    if i = 0 then [.write s.par.map.rcgcAddr ((setBit s.rcgc p.index).setWidth 32)] else []

theorem setBit_of_set {p : Port} {v : BitVec 6} (h : v.getLsbD p.index = true) : setBit v p.index = v := by
  apply BitVec.eq_of_getLsbD_eq
  intro k _
  rw [setBit_getLsbD _ _ _ (Port.index_lt p)]
  by_cases hk : k = p.index
  · rw [hk, h]
    rfl
  · simp [-BitVec.getLsbD_eq_getElem, hk]

/-- The wait of a port whose clock is ready. -/
theorem seqRun_wait {p : Port} {cmd : Instr} {rest : List MicroOp} {s : State}
    (hs : s.seq = .busy cmd (.clkSet p :: .waitRdy p :: rest) 1) (hrest : rest ≠ [])
    (hg : s.gateOn p = true) (hr : s.isReady p = true) :
    ClockRun p 1 s (seqRun 1 s) ∧ (seqRun 1 s).seq = .busy cmd (.clkSet p :: .waitRdy p :: rest) 2 := by
  have hlen : 1 + 1 < (MicroOp.clkSet p :: .waitRdy p :: rest).length := by
    have := List.length_pos_iff.mpr hrest
    simp only [List.length_cons]
    omega
  have e : seqRun 1 s = endOfStep _ :=
    congrArg endOfStep (sequencerStep_ready (s := beginStep s) hs rfl hr hlen)
  rw [e]
  refine ⟨⟨(setBit_of_set hg).symm, hg, hr, rfl, rfl, ⟨rfl, rfl, rfl, rfl, rfl, rfl⟩,
    fun q => erase_endOfStep _ q, ?_⟩, rfl⟩
  rw [if_neg (by decide), List.append_nil]
  rfl

/-- Step 1 of a CFG or an ARM that meets no wait (R184). -/
theorem seqRun_underway {p : Port} {cmd : Instr} {rest : List MicroOp} {s : State} {i : Nat}
    (h : Underway cmd p i s) (he : expand s.par cmd = .clkSet p :: .waitRdy p :: rest) (hrest : rest ≠ []) :
    ClockRun p i s (seqRun (2 - i) s) ∧
      (seqRun (2 - i) s).seq = .busy cmd (.clkSet p :: .waitRdy p :: rest) 2 := by
  obtain ⟨hs, hi⟩ := h
  rw [he] at hs
  rcases hi with ⟨rfl, hr⟩ | ⟨rfl, hg, hr⟩
  · have hp := Port.index_lt p
    have h1 : sequencerStep (beginStep s) = advance cmd (.clkSet p :: .waitRdy p :: rest) 0 _ :=
      sequencerStep_done (s := beginStep s) hs rfl rfl
    rw [advance_more (by simp)] at h1
    have hgate : (setBit s.rcgc p.index).getLsbD p.index = true := by
      rw [setBit_getLsbD _ _ _ hp]
      simp
    have hready : (gateSet p (beginStep s)).isReady p = true := by
      rw [State.isReady, gateSet]
      rcases hr with hr | hr
      · split
        · rw [setBit_getLsbD _ _ _ hp]
          simp
        · exact hr
      · rw [if_pos (show (beginStep s).par.clockReady = .immediate from hr), setBit_getLsbD _ _ _ hp]
        simp
    have e1 : seqRun 1 s = endOfStep _ := congrArg endOfStep h1
    obtain ⟨h2, h3⟩ := seqRun_wait (s := seqRun 1 s) (p := p) (cmd := cmd) (rest := rest)
      (by rw [e1]; rfl) hrest (by rw [e1]; exact hgate) (by rw [e1]; exact hready)
    have hrun : seqRun (2 - 0) s = seqRun 1 (seqRun 1 s) := seqRun_add 1 1 s
    rw [hrun]
    refine ⟨⟨?_, h2.gate, h2.ready, h2.armt.trans (by rw [e1]; rfl), h2.en.trans (by rw [e1]; rfl),
      ⟨h2.frame.act.trans (by rw [e1]; rfl), h2.frame.pri.trans (by rw [e1]; rfl),
        h2.frame.stack.trans (by rw [e1]; rfl), h2.frame.par.trans (by rw [e1]; rfl),
        h2.frame.stream.trans (by rw [e1]; rfl), h2.frame.xline.trans (by rw [e1]; rfl)⟩,
      fun q => (h2.ports q).trans (by rw [e1, erase_endOfStep]; rfl), ?_⟩, h3⟩
    · rw [h2.rcgc, e1]
      exact setBit_of_set hgate
    · rw [h2.trace, if_neg (by decide), List.append_nil, if_pos rfl, e1]
      rfl
  · exact seqRun_wait hs hrest hg hr

end Sys2Proof.Machine
end

