-- ==== Sys2Proof/Laws/Configuration.lean ====
section
/-! SUPPORT. What each step of a CFG's list leaves in its port's registers, RIS erased (R185 to R191). -/

namespace Sys2Proof.Machine

/-- `a` with bit `o` set to `v`. -/
def putBit (v : Bool) (a : Byte) (o : Off) : Byte := if v then setBit a o else clearBit a o

theorem putBit_bit (v : Bool) (a : Byte) (o k : Off) :
    (putBit v a o).getLsbD k = if k = o then v else a.getLsbD k := by
  unfold putBit
  cases v
  · rw [if_neg (by decide), clearBit_getLsbD _ _ _ o.isLt]
    by_cases h : k = o
    · simp [h]
    · simp [-BitVec.getLsbD_eq_getElem, h, mt Fin.ext h]
  · rw [if_pos rfl, setBit_getLsbD _ _ _ o.isLt]
    by_cases h : k = o
    · simp [h]
    · simp [-BitVec.getLsbD_eq_getElem, h, mt Fin.ext h]

theorem onlyBit_putBit (v : Bool) (a : Byte) (o : Off) : OnlyBit o v a (putBit v a o) := putBit_bit v a o

theorem zext_set (a : Byte) (o : Off) : (zext a ||| bitWord o).setWidth 8 = setBit a o := by
  apply byte_ext
  intro k
  rw [low_bit, BitVec.getLsbD_or, zext_bit, bitWord_getLsbD _ _ (by omega), setBit_getLsbD _ _ _ o.isLt]

theorem zext_clear (a : Byte) (o : Off) : (zext a &&& ~~~bitWord o).setWidth 8 = clearBit a o := by
  apply byte_ext
  intro k
  have hk : k.val < 32 := by omega
  rw [low_bit, BitVec.getLsbD_and, zext_bit, BitVec.getLsbD_not, bitWord_getLsbD _ _ (by omega),
    clearBit_getLsbD _ _ _ o.isLt]
  simp [-BitVec.getLsbD_eq_getElem, hk]

/-- The value `NIB` writes, field by field (R186). -/
theorem nibValue_field (v : Word) (o k : Off) (c : BitVec 4) :
    pctlField (nibValue v o c) k = if k = o then c else pctlField v k := by
  apply BitVec.eq_of_getLsbD_eq
  intro j hj
  have ho := o.isLt
  have hk := k.isLt
  have h15 : ∀ m, (0xF#32).getLsbD m = decide (m < 4) := by
    intro m
    by_cases hm : m < 32
    · have : ∀ m : Fin 32, (0xF#32).getLsbD m = decide (m.val < 4) := by decide
      exact this ⟨m, hm⟩
    · rw [BitVec.getLsbD_of_ge _ _ (by omega)]
      simp
      omega
  have hc : ∀ m, (zext c).getLsbD m = c.getLsbD m := by
    intro m
    rw [zext, BitVec.getLsbD_setWidth]
    by_cases hm : m < 32
    · simp [-BitVec.getLsbD_eq_getElem, hm]
    · rw [BitVec.getLsbD_of_ge c m (by omega)]
      simp
  have hjk : 4 * k.val + j < 32 := by omega
  rw [pctlField, BitVec.getLsbD_extractLsb', nibValue, BitVec.getLsbD_or, BitVec.getLsbD_and,
    BitVec.getLsbD_not, BitVec.getLsbD_shiftLeft, BitVec.getLsbD_shiftLeft, h15, hc]
  by_cases h : k = o
  · subst h
    simp [-BitVec.getLsbD_eq_getElem, hjk, hj]
  · rw [if_neg h, pctlField, BitVec.getLsbD_extractLsb']
    have hne : k.val ≠ o.val := fun hc => h (Fin.ext hc)
    by_cases hlt : 4 * k.val + j < 4 * o.val
    · simp [-BitVec.getLsbD_eq_getElem, hjk, hj, hlt]
    · have h4 : ¬ (4 * k.val + j - 4 * o.val < 4) := by omega
      have hz : c.getLsbD (4 * k.val + j - 4 * o.val) = false := BitVec.getLsbD_of_ge c _ (by omega)
      simp [-BitVec.getLsbD_eq_getElem, hjk, hj, hlt, h4, hz]

/-! ### The steps of the list -/

/-- The effect of a list of micro-operations on a port's registers. -/
def listEffect (prof : Profile) (ops : List MicroOp) (r : PortRegs) : PortRegs :=
  ops.foldl (fun r op => opEffect prof op r) r

theorem listEffect_append (prof : Profile) (l m : List MicroOp) (r : PortRegs) :
    listEffect prof (l ++ m) r = listEffect prof m (listEffect prof l r) := List.foldl_append

/-- Step 2 (R185). -/
theorem listEffect_dir (prof : Profile) (v : Bool) (p : Port) (b : Bus) (o : Off) (r : PortRegs) :
    listEffect prof [bitOp v p b .dir o] r = erase { r with dir := putBit v r.dir o } := by
  cases v
  · show erase { r with dir := (zext r.dir &&& ~~~bitWord o).setWidth 8 } = _
    rw [zext_clear]
    rfl
  · show erase { r with dir := (zext r.dir ||| bitWord o).setWidth 8 } = _
    rw [zext_set]
    rfl

/-- Step 3 (R186). -/
theorem listEffect_function (prof : Profile) (afen : Bool) (p : Port) (b : Bus) (o : Off) (c : BitVec 4)
    (r : PortRegs) :
    listEffect prof (if afen then [.bset p b .afsel o, .nib p b o c] else []) (erase r) =
      erase { r with
        afsel := if afen then merge (commitMask prof r) r.afsel (setBit r.afsel o) else r.afsel
        pctl := if afen then nibValue r.pctl o c else r.pctl } := by
  cases afen
  · rfl
  · show erase { r with
        afsel := merge (commitMask prof (erase r)) r.afsel ((zext r.afsel ||| bitWord o).setWidth 8)
        pctl := nibValue r.pctl o c } = _
    rw [zext_set]
    cases prof <;> rfl

/-- Step 4 (R187, R260). -/
theorem listEffect_drive (prof : Profile) (d : Drive) (p : Port) (b : Bus) (o : Off) (r : PortRegs) :
    listEffect prof [.bset p b (driveReg d) o] (erase r) =
      match d with
      | .ma2 => erase { r with
          dr2r := setBit r.dr2r o
          dr4r := r.dr4r &&& ~~~siblingClear prof (setBit r.dr2r o)
          dr8r := r.dr8r &&& ~~~siblingClear prof (setBit r.dr2r o) }
      | .ma4 => erase { r with
          dr4r := setBit r.dr4r o
          dr2r := r.dr2r &&& ~~~siblingClear prof (setBit r.dr4r o)
          dr8r := r.dr8r &&& ~~~siblingClear prof (setBit r.dr4r o) }
      | .ma8 => erase { r with
          dr8r := setBit r.dr8r o
          dr2r := r.dr2r &&& ~~~siblingClear prof (setBit r.dr8r o)
          dr4r := r.dr4r &&& ~~~siblingClear prof (setBit r.dr8r o) } := by
  cases d
  · simp only [← zext_set r.dr2r]; rfl
  · simp only [← zext_set r.dr4r]; rfl
  · simp only [← zext_set r.dr8r]; rfl

/-- Step 5 (R188, R261). -/
theorem listEffect_pull (prof : Profile) (x : Pull) (p : Port) (b : Bus) (o : Off) (r : PortRegs) :
    listEffect prof (match pullReg x with | some y => [.bset p b y o] | none => []) (erase r) =
      match x with
      | .none => erase r
      | .up => erase { r with
          pur := merge (commitMask prof r) r.pur (setBit r.pur o)
          pdr := r.pdr &&& ~~~siblingClear prof (setBit r.pur o &&& commitMask prof r) }
      | .down => erase { r with
          pdr := merge (commitMask prof r) r.pdr (setBit r.pdr o)
          pur := r.pur &&& ~~~siblingClear prof (setBit r.pdr o &&& commitMask prof r) }
      | .openDrain => erase { r with odr := setBit r.odr o } := by
  cases x
  · rfl
  · simp only [← zext_set r.pur]; cases prof <;> rfl
  · simp only [← zext_set r.pdr]; cases prof <;> rfl
  · simp only [← zext_set r.odr]; rfl

/-- Step 6 (R189). -/
theorem listEffect_sig (prof : Profile) (x : Sig) (p : Port) (b : Bus) (o : Off) (r : PortRegs) :
    listEffect prof [.bset p b (sigReg x) o] (erase r) =
      match x with
      | .digital => erase { r with den := merge (commitMask prof r) r.den (setBit r.den o) }
      | .analog => erase { r with amsel := setBit r.amsel o } := by
  cases x
  · simp only [← zext_set r.den]; cases prof <;> rfl
  · simp only [← zext_set r.amsel]; rfl

theorem setBit_clearBit (a : Byte) (o : Off) : setBit (clearBit a o) o = setBit a o := by
  apply byte_ext
  intro k
  rw [setBit_getLsbD _ _ _ o.isLt, clearBit_getLsbD _ _ _ o.isLt, setBit_getLsbD _ _ _ o.isLt]
  cases a.getLsbD k <;> cases decide (k.val = o.val) <;> rfl

theorem opEffect_im (prof : Profile) (v : Bool) (p : Port) (b : Bus) (o : Off) (r : PortRegs) :
    opEffect prof (bitOp v p b .im o) (erase r) = erase { r with im := putBit v r.im o } := by
  cases v
  · show erase { r with im := (zext r.im &&& ~~~bitWord o).setWidth 8 } = _
    rw [zext_clear]
    rfl
  · show erase { r with im := (zext r.im ||| bitWord o).setWidth 8 } = _
    rw [zext_set]
    rfl

theorem opEffect_is (prof : Profile) (v : Bool) (p : Port) (b : Bus) (o : Off) (r : PortRegs) :
    opEffect prof (bitOp v p b .is o) (erase r) = erase { r with is := putBit v r.is o } := by
  cases v
  · show erase { r with is := (zext r.is &&& ~~~bitWord o).setWidth 8 } = _
    rw [zext_clear]
    rfl
  · show erase { r with is := (zext r.is ||| bitWord o).setWidth 8 } = _
    rw [zext_set]
    rfl

theorem opEffect_ibe (prof : Profile) (v : Bool) (p : Port) (b : Bus) (o : Off) (r : PortRegs) :
    opEffect prof (bitOp v p b .ibe o) (erase r) = erase { r with ibe := putBit v r.ibe o } := by
  cases v
  · show erase { r with ibe := (zext r.ibe &&& ~~~bitWord o).setWidth 8 } = _
    rw [zext_clear]
    rfl
  · show erase { r with ibe := (zext r.ibe ||| bitWord o).setWidth 8 } = _
    rw [zext_set]
    rfl

theorem opEffect_iev (prof : Profile) (v : Bool) (p : Port) (b : Bus) (o : Off) (r : PortRegs) :
    opEffect prof (bitOp v p b .iev o) (erase r) = erase { r with iev := putBit v r.iev o } := by
  cases v
  · show erase { r with iev := (zext r.iev &&& ~~~bitWord o).setWidth 8 } = _
    rw [zext_clear]
    rfl
  · show erase { r with iev := (zext r.iev ||| bitWord o).setWidth 8 } = _
    rw [zext_set]
    rfl

/-- The list of step 7 as operations on single bits (R183). -/
theorem trigOps_eq (p : Port) (b : Bus) (o : Off) (x : Trig) :
    trigOps p b o x =
      match trigBits x with
      | none => []
      | some t =>
        bitOp false p b .im o :: bitOp t.is p b .is o :: bitOp t.ibe p b .ibe o ::
          ((match t.iev with | some v => [bitOp v p b .iev o] | none => [])
            ++ ((if t.icr then [.w1c p b o] else []) ++ [bitOp true p b .im o])) := by
  cases x <;> rfl

/-- Step 7 (R190, R191). -/
theorem listEffect_trig (prof : Profile) (x : Trig) (p : Port) (b : Bus) (o : Off) (r : PortRegs) :
    listEffect prof (trigOps p b o x) (erase r) =
      match trigBits x with
      | none => erase r
      | some t => erase { r with
          im := putBit true (putBit false r.im o) o
          is := putBit t.is r.is o
          ibe := putBit t.ibe r.ibe o
          iev := match t.iev with | some v => putBit v r.iev o | none => r.iev } := by
  rw [trigOps_eq]
  cases trigBits x with
  | none => rfl
  | some t =>
    obtain ⟨is, ibe, iev, icr⟩ := t
    have hw : ∀ q : PortRegs, opEffect prof (.w1c p b o) (erase q) = erase q := fun _ => rfl
    cases iev <;> cases icr <;>
      simp only [listEffect, List.foldl_cons, List.foldl_nil, List.foldl_append, opEffect_im, opEffect_is,
        opEffect_ibe, opEffect_iev, hw, if_true, Bool.false_eq_true, if_false]

/-! ### The list as a whole -/

/-- Steps 2 to 7 of a CFG, the part of its list that acts on its port's registers. -/
def cfgTail (p : Port) (o : Off) (dir : Dir) (afen : Bool) (afcode : BitVec 4) (pull : Pull)
    (drive : Drive) (sig : Sig) (trig : Trig) (b : Bus) : List MicroOp :=
  [bitOp (dir == .output) p b .dir o]
    ++ ((if afen then [.bset p b .afsel o, .nib p b o afcode] else [])
    ++ ([.bset p b (driveReg drive) o]
    ++ ((match pullReg pull with | some x => [.bset p b x o] | none => [])
    ++ ([.bset p b (sigReg sig) o]
    ++ trigOps p b o trig))))

/-- A CFG's list is step 1 and then the register micro-operations. -/
theorem cfgOps_eq_tail (p o dir afen afcode pull drive sig trig b) :
    cfgOps p o dir afen afcode pull drive sig trig b =
      .clkSet p :: .waitRdy p :: cfgTail p o dir afen afcode pull drive sig trig b := by
  cases afen <;> cases pull <;> rfl

/-- Every micro-operation after step 1 acts on a register of the command's own port. -/
theorem cfgTail_regOp (p o dir afen afcode pull drive sig trig b) :
    ∀ op ∈ cfgTail p o dir afen afcode pull drive sig trig b, RegOp p b op := by
  have hs : ∀ x, x ≠ .ris → x ≠ .mis → RegOp p b (.bset p b x o) :=
    fun x h1 h2 => .inl ⟨x, o, h1, h2, .inl rfl⟩
  have hb : ∀ v x, x ≠ .ris → x ≠ .mis → RegOp p b (bitOp v p b x o) := by
    intro v x h1 h2
    cases v
    · exact .inl ⟨x, o, h1, h2, .inr rfl⟩
    · exact hs x h1 h2
  intro op hop
  simp only [cfgTail, List.mem_append] at hop
  rcases hop with h | h | h | h | h | h
  · rw [List.mem_singleton.mp h]
    exact hb _ _ (by decide) (by decide)
  · cases afen
    · cases h
    · simp at h
      rcases h with rfl | rfl
      · exact hs _ (by decide) (by decide)
      · exact .inr (.inl ⟨o, _, rfl⟩)
  · rw [List.mem_singleton.mp h]
    exact hs _ (by cases drive <;> decide) (by cases drive <;> decide)
  · cases pull
    · cases h
    all_goals (rw [List.mem_singleton.mp h]; exact hs _ (by decide) (by decide))
  · rw [List.mem_singleton.mp h]
    exact hs _ (by cases sig <;> decide) (by cases sig <;> decide)
  · rw [trigOps_eq] at h
    cases ht : trigBits trig with
    | none => rw [ht] at h; cases h
    | some t =>
      rw [ht] at h
      obtain ⟨is, ibe, iev, icr⟩ := t
      simp only [List.mem_cons, List.mem_append] at h
      rcases h with rfl | rfl | rfl | h | h | rfl | h
      · exact hb _ _ (by decide) (by decide)
      · exact hb _ _ (by decide) (by decide)
      · exact hb _ _ (by decide) (by decide)
      · cases iev
        · cases h
        · rw [List.mem_singleton.mp h]
          exact hb _ _ (by decide) (by decide)
      · cases icr
        · cases h
        · rw [List.mem_singleton.mp h]
          exact .inr (.inr ⟨o, rfl⟩)
      · exact hb _ _ (by decide) (by decide)
      · cases h

end Sys2Proof.Machine
end

