-- ==== Sys2Proof/Laws/PerInstr.lean ====
section
/-! SUPPORT. Statements made of every instruction as syntax, one lemma for each constructor: the encoding has
as many words as its own opcode says (R121). -/

namespace Sys2Proof

/-- The number of words from the opcode's value. -/
theorem commandLength_of_opcode (w : Word) (op : Nat) :
    field w 28 4 = op → commandLength w = match op with | 9 => 2 | 10 => 2 | 11 => 3 | _ => 1 := by
  rintro rfl
  rfl

/-- A list of words that is as long as the opcode of its first word asks for (R121). -/
def SelfDelimiting (ws : List Word) : Prop :=
  ∃ w operands, ws = w :: operands ∧ commandLength w = operands.length + 1

end Sys2Proof

namespace Sys2Proof.Laws.EncodeLength

/-- The encoding of `i` is as long as its first word says (R121). -/
def Statement (i : Instr) : Prop := SelfDelimiting (encode i)

theorem nop : Statement .nop := ⟨0x00000000, [], rfl, by decide⟩

theorem cfg (pin dir afen afcode pull drive sig trig bus) :
    Statement (.cfg pin dir afen afcode pull drive sig trig bus) :=
  ⟨_, [], rfl, commandLength_of_opcode _ 1 (cfgWord_fields pin dir afen afcode pull drive sig trig bus).1⟩

theorem arm (pin trig bus) : Statement (.arm pin trig bus) :=
  ⟨_, [], rfl, commandLength_of_opcode _ 2 (armWord_fields pin trig bus).1⟩

theorem deinit (port) : Statement (.deinit port) :=
  ⟨_, [], rfl, commandLength_of_opcode _ 3 (portWord_fields 3 port (by decide)).1⟩

theorem resolve (sel bus kind) : Statement (.resolve sel bus kind) :=
  ⟨_, [], rfl, commandLength_of_opcode _ 4 (resolveWord_fields sel bus kind).1⟩

theorem clken (port) : Statement (.clken port) :=
  ⟨_, [], rfl, commandLength_of_opcode _ 5 (portWord_fields 5 port (by decide)).1⟩

theorem clkdis (port) : Statement (.clkdis port) :=
  ⟨_, [], rfl, commandLength_of_opcode _ 6 (portWord_fields 6 port (by decide)).1⟩

theorem rdarm (port) : Statement (.rdarm port) :=
  ⟨_, [], rfl, commandLength_of_opcode _ 7 (portWord_fields 7 port (by decide)).1⟩

theorem rdr (port off bus) : Statement (.rdr port off bus) :=
  ⟨_, [], rfl, commandLength_of_opcode _ 8 (accessWord_fields 8 port off bus (by decide)).1⟩

theorem wrr (port off bus data) : Statement (.wrr port off bus data) :=
  ⟨_, [data], rfl, commandLength_of_opcode _ 9 (accessWord_fields 9 port off bus (by decide)).1⟩

theorem rda (addr) : Statement (.rda addr) := ⟨0xA0000000, [addr], rfl, by rfl⟩

theorem wra (addr data) : Statement (.wra addr data) := ⟨0xB0000000, [addr, data], rfl, by rfl⟩

end Sys2Proof.Laws.EncodeLength
end

