-- ==== Sys2Proof/Machine/Assembler.lean ====
section
/-! DEFINITION. The assembler's view of the commands (R142 to R144): the pseudo-commands with their
expansions, and the text of a command. Nothing of the machine depends on it. -/

namespace Sys2Proof.Machine

/-- The pseudo-commands of R144; a pin is named by its identifier, a port by its field. -/
inductive Pseudo where
  | gpioOut (pin : BitVec 7)
  | gpioIn (pin : BitVec 7) (pull : Pull)
  | pinMux (pin : BitVec 7) (dir : Dir) (code : BitVec 4) (pull : Pull) (drive : Drive)
  | writePins (port : BitVec 3) (mask : Byte) (value : Word)
  | readPins (port : BitVec 3) (mask : Byte)
  | ackPin (port : BitVec 3) (o : Off)
  | irqEn (n : Nat)
  | irqDis (n : Nat)
  deriving DecidableEq, Repr

/-- The offset of the DATA word with a mask (R144, R257). -/
def dataOffset (mask : Byte) : BitVec 12 := mask.setWidth 12 <<< 2

/-- The one command a pseudo-command expands to (R144). -/
def Pseudo.expand (m : AddressMap) : Pseudo → Instr
  | .gpioOut pin => .cfg pin .output false 0 .none .ma2 .digital .none .apb
  | .gpioIn pin pull => .cfg pin .input false 0 pull .ma2 .digital .none .apb
  | .pinMux pin dir code pull drive => .cfg pin dir true code pull drive .digital .none .apb
  | .writePins port mask value => .wrr port (dataOffset mask) .apb value
  | .readPins port mask => .rdr port (dataOffset mask) .apb
  | .ackPin port o => .wrr port (regOffset m .icr) .apb (1#32 <<< o.val)
  | .irqEn n => .wra (nvAddr m .setEna (n / 32)) (1#32 <<< (n % 32))
  | .irqDis n => .wra (nvAddr m .clrEna (n / 32)) (1#32 <<< (n % 32))

/-- The letter of a port (R142). -/
def portLetter : Port → String
  | .A => "A" | .B => "B" | .C => "C" | .D => "D" | .E => "E" | .F => "F"

/-- The name of a register as an operand (R142). -/
def Reg.name : Reg → String
  | .dir => "DIR" | .is => "IS" | .ibe => "IBE" | .iev => "IEV" | .im => "IM" | .ris => "RIS"
  | .mis => "MIS" | .icr => "ICR" | .afsel => "AFSEL" | .dr2r => "DR2R" | .dr4r => "DR4R"
  | .dr8r => "DR8R" | .odr => "ODR" | .pur => "PUR" | .pdr => "PDR" | .slr => "SLR" | .den => "DEN"
  | .lock => "LOCK" | .cr => "CR" | .amsel => "AMSEL" | .pctl => "PCTL" | .adcctl => "ADCCTL"
  | .dmactl => "DMACTL"

/-- The name of a pin as an operand, `P<port><offset>` (R143). -/
def pinName (p : Port) (o : Off) : String := "P" ++ portLetter p ++ toString o.val

/-- The identifier a pin's name assembles to (R131, R143). -/
def pinNameId (scheme : PinScheme) (p : Port) (o : Off) : BitVec 7 := encodePin scheme p o

/-- A pin operand by its identifier, `#n` (R143). -/
def pinText (id : BitVec 7) : String := "#" ++ toString id.toNat

/-- A port operand (R142): its letter, or `#n` for an invalid value. -/
def portText (q : BitVec 3) : String :=
  match Port.all[q.toNat]? with
  | some p => portLetter p
  | none => "#" ++ toString q.toNat

/-- A register operand (R142): a name, `DATA+k`, or `#k`. -/
def offText (m : AddressMap) (off : BitVec 12) : String :=
  if off.toNat ≤ 0x3FC then "DATA+" ++ toString off.toNat
  else
    match regAt m off.toNat with
    | some x => x.name
    | none => "#" ++ toString off.toNat

/-- The optional bus operand, left out for the default `apb` (R142). -/
def busText : Bus → String
  | .apb => "" | .ahb => ", ahb"

/-- `<dir>` (R142). -/
def dirText : Dir → String
  | .input => "in" | .output => "out"

/-- `<af>` (R142). -/
def afText (afen : Bool) (code : BitVec 4) : String :=
  if afen then "af" ++ toString code.toNat else "none"

/-- `<pull>` (R142). -/
def pullText : Pull → String
  | .none => "none" | .up => "pu" | .down => "pd" | .openDrain => "od"

/-- `<drive>` (R142). -/
def driveText : Drive → String
  | .ma2 => "2ma" | .ma4 => "4ma" | .ma8 => "8ma"

/-- `<sig>` (R142). -/
def sigText : Sig → String
  | .digital => "dig" | .analog => "ana"

/-- `<trig>` (R142). -/
def trigText : Trig → String
  | .none => "none" | .rising => "rise" | .falling => "fall" | .both => "both" | .high => "high"
  | .low => "low"

/-- The line of assembler text of a command (R142). -/
def asmText (m : AddressMap) : Instr → String
  | .nop => "NOP"
  | .cfg pin dir afen afcode pull drive sig trig bus =>
    "CFG " ++ pinText pin ++ ", " ++ dirText dir ++ ", " ++ afText afen afcode ++ ", " ++ pullText pull
      ++ ", " ++ driveText drive ++ ", " ++ sigText sig ++ ", " ++ trigText trig ++ busText bus
  | .arm pin trig bus => "ARM " ++ pinText pin ++ ", " ++ trigText trig ++ busText bus
  | .deinit port => "DEINIT " ++ portText port
  | .resolve sel bus .pin => "RESOLVE " ++ pinText sel ++ busText bus
  | .resolve sel bus .port => "RESOLVE PORT " ++ portText (sel.setWidth 3) ++ busText bus
  | .clken port => "CLKEN " ++ portText port
  | .clkdis port => "CLKDIS " ++ portText port
  | .rdarm port => "RDARM " ++ portText port
  | .rdr port off bus => "RDR " ++ portText port ++ ", " ++ offText m off ++ busText bus
  | .wrr port off bus data =>
    "WRR " ++ portText port ++ ", " ++ offText m off ++ ", " ++ toString data.toNat ++ busText bus
  | .rda addr => "RDA " ++ toString addr.toNat
  | .wra addr data => "WRA " ++ toString addr.toNat ++ ", " ++ toString data.toNat

end Sys2Proof.Machine
end

