-- ==== Sys2Proof/Tests/Slice0.lean ====
section
/-! SUPPORT. Tests with results from the spec's own tables and vectors (30_encoding.md, 95_test_vectors.md), and
for each statement of Certificates/Slice0/Obligations.lean with premises a state and operands that meet
them. Vectors are named as 95_test_vectors.md names them. -/

namespace Sys2Proof.Tests

open Sys2Proof Sys2Proof.Machine

/-! ### Well-formedness: what the checks refuse and what they let pass -/

theorem test_wf_refuses_code_without_function :
    (Instr.cfg 41 .output false 1 .none .ma2 .digital .none .apb).wf = false := by decide

theorem test_wf_refuses_wide_port_selector : (Instr.resolve 8 .apb .port).wf = false := by decide

theorem test_wf_accepts_boundaries :
    (Instr.cfg 127 .output true 15 .openDrain .ma8 .analog .low .ahb).wf = true ∧
      (Instr.resolve 7 .ahb .port).wf = true ∧ (Instr.resolve 127 .apb .pin).wf = true := by decide

/-! ### Decoding: one word of each command from the format tables R122 to R128 (R145, V1) -/

theorem test_decode_nop : decodeStream [0x00000000, 7] = .command .nop [7] := by decide

/-- V3.2: opcode 1, pin 5, dir 1, afen 1, afcode 7, pull 3, drive 1, sig 0, trig 1, bus 0. -/
theorem test_decode_cfg :
    decodeStream [0b0001_0000101_1_1_0111_11_01_0_001_0_000000] =
      .command (.cfg 5 .output true 7 .openDrain .ma4 .digital .rising .apb) [] := by decide

/-- Opcode 2, pin 44, trig 5, bus 1. -/
theorem test_decode_arm :
    decodeStream [0b0010_0101100_00000000000_101_1_000000] = .command (.arm 44 .low .ahb) [] := by decide

theorem test_decode_deinit :
    decodeStream [0b0011_0000_101_000000000000000000000] = .command (.deinit 5) [] := by decide

/-- E8: RESOLVE #47, ahb; E7: RESOLVE PORT #7. -/
theorem test_decode_resolve :
    decodeStream [0b0100_0101111_00000000000000_1_0_00000] = .command (.resolve 47 .ahb .pin) [] ∧
      decodeStream [0x40E00020] = .command (.resolve 7 .apb .port) [] := by decide

theorem test_decode_clken :
    decodeStream [0b0101_0000_110_000000000000000000000] = .command (.clken 6) [] := by decide

theorem test_decode_clkdis :
    decodeStream [0b0110_0000_111_000000000000000000000] = .command (.clkdis 7) [] := by decide

theorem test_decode_rdarm :
    decodeStream [0b0111_0000_101_000000000000000000000] = .command (.rdarm 5) [] := by decide

/-- V6: RDR F, DATA+0x3FC; opcode 8, port 5, off 0x3FC, bus 0. -/
theorem test_decode_rdr :
    decodeStream [0b1000_0000_101_0_001111111100_0_0_000000] = .command (.rdr 5 0x3FC .apb) [] := by decide

theorem test_decode_wrr :
    decodeStream [0b1001_0000_101_0_010000011100_0_1_000000, 0x10, 9] =
      .command (.wrr 5 0x41C .ahb 0x10) [9] := by decide

theorem test_decode_rda :
    decodeStream [0xA0000000, 0x400FE608, 9] = .command (.rda 0x400FE608) [9] := by decide

theorem test_decode_wra :
    decodeStream [0xB0000000, 0xE000E100, 0x40000000, 9] = .command (.wra 0xE000E100 0x40000000) [9] := by
  decide

/-- V1: an illegal WRA consumes three words, a reserved opcode one; each illegal word by its reason. -/
theorem test_decode_illegal :
    decodeStream [0xB8000000, 1, 2, 3] = .illegal 0xB8000000 .reservedBits [3] ∧
      decodeStream [0xC0000000, 3] = .illegal 0xC0000000 .reservedOpcode [3] ∧
      decodeStream [0x10001800] = .illegal 0x10001800 .reservedDrive [] ∧
      decodeStream [0x25800380] = .illegal 0x25800380 .reservedTrigger [] ∧
      decodeStream [0x10008000] = .illegal 0x10008000 .codeWithoutFunction [] ∧
      decodeStream [0x41000020] = .illegal 0x41000020 .portSelectorBits [] ∧
      decodeStream [0x80A41880] = .illegal 0x80A41880 .reservedBits [] := by decide

/-- R140: a command whose last word is missing is not read. -/
theorem test_decode_waits : decodeStream [0xB0000000, 1] = .waiting := by decide

/-- R144: the pseudo-command writePins of port F, mask 0x0E, is the WRR of P1. -/
theorem test_pseudo_writePins : (Pseudo.writePins 5 0x0E 4).expand defaultMap = .wrr 5 0x038 .apb 4 := by decide

/-- R143, R145: PF1 is the name of identifier 41 under ZERO. -/
theorem test_pinName : pinName .F 1 = "PF1" ∧ pinNameId .zero .F 1 = 41 := by decide

/-! ### One step of each command -/

/-- What `f` reads in the next state. -/
def after {α : Type} (f : State → α) : Host.Outcome State Fault Refusal → Option α
  | .next s => some (f s)
  | .fault _ => none
  | .refused _ => none

/-- Reset, with every port clocked and ready. -/
def allOn : State := { State.reset with rcgc := 0x3F, ready := 0x3F }

/-- Reset, with the clock ready at once. -/
def immediate : State := State.resetWith { defaultParams .tm4c123 with clockReady := .immediate }

/-- Reset, with the sequencer loaded with `cmd`. -/
def loaded (cmd : Instr) (s : State) : State := { s with seq := .busy cmd (expand s.par cmd) 0 }

theorem test_nop : after (fun s => (s.resp, s.trace)) (exec .nop allOn) = some (⟨.ok, 0, 0, 0⟩, []) := by
  decide

/-- T1: the micro-operations of `CFG PF1, out, none, pd, 2mA, dig, none`. -/
theorem test_cfg :
    after State.seq (exec (.cfg 41 .output false 0 .down .ma2 .digital .none .apb) State.reset) =
      some (.busy (.cfg 41 .output false 0 .down .ma2 .digital .none .apb)
        [.clkSet .F, .waitRdy .F, .bset .F .apb .dir 1, .bset .F .apb .dr2r 1, .bset .F .apb .pdr 1,
          .bset .F .apb .den 1] 0) := by decide

/-- T2: the micro-operations of `ARM PF4, rise`. -/
theorem test_arm :
    after State.seq (exec (.arm 44 .rising .apb) State.reset) =
      some (.busy (.arm 44 .rising .apb)
        [.clkSet .F, .waitRdy .F, .bclr .F .apb .dir 4, .bset .F .apb .dr8r 4, .bset .F .apb .pur 4,
          .bset .F .apb .den 4, .bclr .F .apb .im 4, .bclr .F .apb .is 4, .bclr .F .apb .ibe 4,
          .bset .F .apb .iev 4, .w1c .F .apb 4, .bset .F .apb .im 4, .armSet .F 4, .irqEn 30] 0) := by
  decide

/-- V4.4: an invalid pin completes at once with `aux = 0`. -/
theorem test_arm_invalid :
    after (fun s => (s.seq, s.resp)) (exec (.arm 100 .rising .apb) State.reset) =
      some (.idle, ⟨.ok, 0, 0, 0⟩) := by decide

theorem test_deinit :
    after State.seq (exec (.deinit 5) State.reset) =
      some (.busy (.deinit 5) [.armClr .F, .clkClr .F] 0) := by decide

/-- E8: RESOLVE #47, ahb; E7: RESOLVE #100, ahb. -/
theorem test_resolve :
    after State.resp (exec (.resolve 47 .ahb .pin) State.reset) = some ⟨.ok, 0, 0x4005D000, 0xEF⟩ ∧
      after State.resp (exec (.resolve 100 .ahb .pin) State.reset) = some ⟨.ok, 0, 0x40058000, 0x40⟩ := by
  decide

/-- V2, LEGACY10: #45 is PD5, #18 is invalid. -/
theorem test_resolve_legacy :
    let s := State.resetWith { defaultParams .tm4c123 with pinScheme := .legacy10 }
    after State.resp (exec (.resolve 45 .apb .pin) s) = some ⟨.ok, 0, 0x40007000, 0x9D⟩ ∧
      after State.resp (exec (.resolve 18 .apb .pin) s) = some ⟨.ok, 0, 0x40004000, 0x00⟩ := by decide

/-- V5: CLKEN #6 falls back to port A. -/
theorem test_clken :
    after State.seq (exec (.clken 6) State.reset) = some (.busy (.clken 6) [.clkSet .A] 0) := by decide

theorem test_clkdis :
    after State.seq (exec (.clkdis 5) State.reset) = some (.busy (.clkdis 5) [.clkClr .F] 0) := by decide

/-- V4.7, V4.8 and T2: an invalid port, an empty slot, and offset 4. -/
theorem test_rdarm :
    let s := { State.reset with armt := State.reset.armt.set .F (some 4) }
    after State.resp (exec (.rdarm 7) s) = some ⟨.ok, 0, 0, 0⟩ ∧
      after State.resp (exec (.rdarm 0) s) = some ⟨.ok, 0, 0, 1⟩ ∧
      after State.resp (exec (.rdarm 5) s) = some ⟨.ok, 0, 0xC, 1⟩ := by decide

/-- V6 and V7: CR of port F; the faults GATED, NOT_READY, ALIGN and UNMAPPED. -/
theorem test_rdr :
    after State.resp (exec (.rdr 5 0x524 .apb) allOn) = some ⟨.ok, 0, 0xFE, 0⟩ ∧
      after State.resp (exec (.rdr 5 0x400 .apb) State.reset) = some ⟨.gated, 0x40025400, 0, 0⟩ ∧
      after State.resp (exec (.rdr 5 0x400 .apb) { State.reset with rcgc := 0x20 }) =
        some ⟨.notReady, 0x40025400, 0, 0⟩ ∧
      after State.resp (exec (.rdr 5 0x401 .apb) allOn) = some ⟨.align, 0x40025401, 0, 0⟩ ∧
      after State.resp (exec (.rdr 5 0x538 .apb) allOn) = some ⟨.unmapped, 0x40025538, 0, 0⟩ := by decide

/-- V6: the DEN write of port F is gated at PF0 by CR = 0xFE; the masked DATA write reaches one bit. -/
theorem test_wrr :
    after (fun s => (s.port .F).den) (exec (.wrr 5 0x51C .apb 0xFF) allOn) = some 0xFE ∧
      after (fun s => (s.port .F).data)
        (exec (.wrr 5 0x004 .apb 0)
          { allOn with regs := allOn.regs.set .F { resetNeutral with data := 0xA5 } }) = some 0xA4 := by
  decide

/-- V6 and P4: SETENA word 4 is the last, PRI ends at 0xE000_E4A0; port F through AHB. -/
theorem test_rda :
    after State.resp (exec (.rda 0xE000E110) allOn) = some ⟨.ok, 0, 0, 0⟩ ∧
      after State.resp (exec (.rda 0xE000E114) allOn) = some ⟨.unmapped, 0xE000E114, 0, 0⟩ ∧
      after State.resp (exec (.rda 0xE000E4A0) allOn) = some ⟨.unmapped, 0xE000E4A0, 0, 0⟩ ∧
      after State.resp (exec (.rda 0x4005D524) allOn) = some ⟨.ok, 0, 0xFE, 0⟩ := by decide

/-- V9.3: byte 2 of word 7 is line 30's priority. -/
theorem test_wra_priority :
    after (fun s => (s.priAt 30, s.priAt 29)) (exec (.wra 0xE000E41C 0x00E00000) allOn) = some (7, 0) := by
  decide +kernel

/-- R9, R269, R271: a build of 64 lines with 4 priority bits and its windows elsewhere. Byte 1 of priority word 0
is line 1's, in its top four bits, word 2 of SETENA does not exist, and port A's window is where it was put. -/
theorem test_other_parameters :
    let par : Params := { defaultParams .neutral with
      nIrq := 64, prioBits := 4
      map := { defaultMap with nvicBase := 0xF0000000, apbBase := defaultMap.apbBase.set .A 0x50000000 } }
    let s := { State.resetWith par with rcgc := 0x3F, ready := 0x3F }
    after (fun s => s.priAt 1) (exec (.wra 0xF0000400 0x00009F00) s) = some 9 ∧
      after (fun s => s.resp.data) (exec (.rda 0xF0000400) { s with pri := [0, 9] }) = some 0x9000 ∧
      after State.resp (exec (.rda 0xF0000108) s) = some ⟨.unmapped, 0xF0000108, 0, 0⟩ ∧
      after State.resp (exec (.wrr 0 0x400 .apb 0x1FF) s) = some ⟨.ok, 0, 0, 0⟩ ∧
      after (fun s => (s.port .A).dir) (exec (.wra 0x50000400 0x1FF) s) = some 0xFF ∧
      after State.resp (exec (.rda 0x40004400) s) = some ⟨.unmapped, 0x40004400, 0, 0⟩ := by decide +kernel

/-- R300, R52: the code of NOT_READY, and RESP's four bits after a gated access. -/
theorem test_status_codes :
    Status.notReady.code = 6 ∧ Status.ofCode 4 = some .ahbOff ∧ Status.ofCode 7 = none ∧
      after (fun s => s.resp.statusBits) (exec (.rdr 5 0x400 .apb) State.reset) = some 5 := by decide

/-- V5: bits 31:6 of the clock word are ignored, and the clock is ready at once. -/
theorem test_wra_clock :
    after (fun s => (s.rcgc, s.ready)) (exec (.wra 0x400FE608 0xFFFFFF01) immediate) =
      some (0x01, 0x01) := by decide

/-! ### One step of the sequencer, of detection and of the core -/

/-- T2: the drive write of PF4 clears DR2R bit 4. -/
theorem test_bset_drive :
    (sequencerStep { allOn with seq := .busy .nop [.bset .F .apb .dr8r 4, .waitRdy .F] 0 }).port .F =
      { resetPort .tm4c123 .F with dr2r := 0xEF, dr8r := 0x10 } := by decide

/-- V3.1: PCTL of port A after `NIB 5, 7` (V3.2). -/
theorem test_nib :
    ((sequencerStep { allOn with seq := .busy .nop [.nib .A .apb 5 7, .waitRdy .A] 0 }).port .A).pctl =
      0x00722211 := by decide

/-- T2: IRQEN of line 30 writes bit 30 of SETENA word 0. -/
theorem test_irqEn :
    let t := sequencerStep { allOn with seq := .busy .nop [.irqEn 30, .irqEn 30] 0 }
    t.trace = [.write 0xE000E100 0x40000000] ∧ t.en.testBit 30 = true := by decide

/-- V8: rise, fall, both, high and low, at `s, d = 0, 1` with RIS 0, and falling and low at `1, 0`. -/
theorem test_detect :
    detectBit false false true false false true = true ∧
      detectBit false false false false false true = false ∧
      detectBit false true false false false true = true ∧
      detectBit true false true false false true = true ∧
      detectBit true false false true false true = false ∧
      detectBit false false false false true false = true ∧
      detectBit true false false false true false = true := by decide

/-- V9.2: line 30 at priority 0 preempts active line 0 at priority 2; at equal priority it does not (V9.1). -/
theorem test_arbiter :
    let s := { State.reset with en := 0x40000001, pend := 0x40000000, act := 1, stack := [0] }
    arbiter { s with pri := s.pri.set 0 2 } = some 30 ∧ arbiter s = none := by decide +kernel

/-! ### Witnesses: for each statement with premises, what meets them -/

theorem witness_DecodeOfEncode :
    (Instr.cfg 127 .output true 15 .openDrain .ma8 .analog .low .ahb).WellFormed ∧
      (Instr.resolve 7 .ahb .port).WellFormed ∧ (Instr.wra 0xFFFFFFFF 0xFFFFFFFF).WellFormed := by decide

theorem witness_EncodeOfDecode :
    decodeStream [0x9FFFFFFF, 1, 2] = .illegal 0x9FFFFFFF .reservedBits [2] ∧
      decodeStream [0x90EFFF40, 1, 2] = .command (.wrr 7 0xFFF .ahb 1) [2] := by decide

theorem witness_DecoderAcceptsLegalWords :
    (∃ i, decodeCommand 0x1FFFF6C0 0 0 = .ok i) ∧ legalWord 0x1FFFF6C0 = true ∧
      legalWord 0x1FFFF700 = false :=
  ⟨⟨.cfg 127 .output true 15 .openDrain .ma8 .analog .low .ahb, by decide⟩, by decide, by decide⟩

/-- The command port's turn, with words on the stream. -/
def offered (ws : List Word) : State := { State.reset with stream := ws, turns := [.port] }

theorem witness_StepRunsCommand :
    (offered [0, 5]).seq = .idle ∧ nextTurn (offered [0, 5]) = .port ∧
      decodeStream (offered [0, 5]).stream = .command .nop [5] ∧
      exec .nop { beginStep (offered [0, 5]) with stream := [5] } =
        .next (complete 0 0 { beginStep (offered [0, 5]) with stream := [5] }) :=
  ⟨rfl, rfl, by decide, rfl⟩

theorem witness_IllegalCommandReported :
    let s := offered [0xB8000000, 1, 2]
    s.seq = .idle ∧ nextTurn s = .port ∧ s.stream = 0xB8000000 :: [1, 2] ∧
      commandLength 0xB8000000 - 1 ≤ [1, 2].length ∧ legalWord 0xB8000000 = false := by decide

theorem witness_CommandPortWaits_busy :
    let s := { offered [0] with seq := .busy .nop [.clkSet .A] 0 }
    nextTurn s = .port ∧ ∃ cmd ops i, s.seq = .busy cmd ops i := ⟨rfl, _, _, _, rfl⟩

theorem witness_CommandPortWaits_empty :
    nextTurn State.reset = .port ∧ State.reset.seq = .idle ∧ State.reset.stream = [] := by decide

theorem witness_CommandPortWaits_short :
    let s := offered [0xB0000000, 1]
    nextTurn s = .port ∧ s.seq = .idle ∧
      ∃ w operands, s.stream = w :: operands ∧ operands.length < commandLength w - 1 :=
  ⟨rfl, rfl, 0xB0000000, [1], rfl, by decide⟩

/-- Reset with a turn given. -/
def withTurn (t : Turn) (s : State) : State := { s with turns := [t] }

theorem witness_OtherAgentsStep :
    nextTurn (withTurn .sequencer State.reset) = .sequencer ∧
      nextTurn (withTurn (.environment (.const 0xFF) 1) State.reset) = .environment (.const 0xFF) 1 ∧
      nextTurn (withTurn (.clockReady .F) State.reset) = .clockReady .F ∧
      nextTurn (withTurn .ack State.reset) = .ack ∧ nextTurn (withTurn .eoi State.reset) = .eoi ∧
      nextTurn (withTurn (.host [0]) State.reset) = .host [0] ∧
      nextTurn (withTurn .reset State.reset) = .reset := by decide

/-- R360, R361: a reset in the middle of a command, with the clocks on and a line enabled and active. -/
theorem test_reset :
    let s := withTurn .reset { loaded (.clkdis 0) allOn with
      en := 1, act := 1, stack := [0], armt := .const (some 3), trace := [.ack 0]
      regs := .const { resetNeutral with im := 0xFF } }
    after (fun t => (t.seq, t.rcgc, t.ready)) (step s) = some (.idle, 0, 0) ∧
      after (fun t => (t.en, t.act, t.stack)) (step s) = some (0, 0, []) ∧
      after State.trace (step s) = some [] ∧
      after (fun t => (t.armt.get .F, (t.port .F).im, (t.port .F).cr)) (step s) =
        some (none, 0, 0xFE) := by decide +kernel

theorem witness_PlacedCommandRuns :
    decodeTableWord 96 0x4000_0000_E000E100_B0000000 = some (.wra 0xE000E100 0x40000000) ∧
      decodeTableWord 32 0xB0000000 = some (.wra 0 0) ∧
      decodeTableWord 32 0x15304000 = some (.cfg 41 .output false 0 .down .ma2 .digital .none .apb) := by
  decide

theorem witness_ResolverRoundTrip :
    decodePin .zero 47 = some (.F, 7) ∧ decodePin .zero 48 = none ∧
      decodePin .legacy10 10 = some (.A, 0) ∧ decodePin .legacy10 67 = some (.F, 7) ∧
      decodePin .legacy10 18 = none ∧ decodePin .legacy10 70 = none := by decide

theorem witness_ResolverFunctions :
    let zero := defaultParams .tm4c123
    let legacy := { zero with pinScheme := .legacy10 }
    zero.pinScheme = .zero ∧ (resolvePin zero 47 .apb).valid = true ∧
      (resolvePin zero 48 .ahb).valid = false ∧ (resolvePin legacy 67 .apb).valid = true ∧
      (resolvePin legacy 9 .apb).valid = false ∧ (resolvePort zero 5 .apb).port = .F ∧
      (resolvePort zero 6 .apb).valid = false := by decide

theorem witness_ResolveResult : State.reset.seq = .idle := rfl

theorem witness_NopAndRdarmResults :
    let s := { State.reset with armt := State.reset.armt.set .F (some 7) }
    s.seq = .idle ∧ (6 : BitVec 3).toNat > 5 ∧ (5 : BitVec 3).toNat = Port.F.index ∧
      s.armt.get .F = some 7 ∧ (0 : BitVec 3).toNat = Port.A.index ∧ s.armt.get .A = none := by decide

theorem witness_RdrReadsRegister :
    MapSound allOn.par ∧ allOn.seq = .idle ∧ allOn.gateOn .F = true ∧ allOn.isReady .F = true ∧
      State.reset.gateOn .F = false ∧ ({ State.reset with rcgc := 0x20 } : State).gateOn .F = true :=
  ⟨defaultParams_sound _, by decide⟩

/-- Port F's AHB aperture disabled (V3.7). -/
def ahbOffF (s : State) : State := { s with par := { s.par with ahbEnabled := s.par.ahbEnabled.set .F false } }

theorem witness_WrrWritesRegister :
    MapSound allOn.par ∧ allOn.seq = .idle ∧ (ahbOffF allOn).seq = .idle ∧
      (ahbOffF allOn).par.ahbEnabled.get (resolvePort allOn.par 5 .ahb).port = false :=
  ⟨defaultParams_sound _, by decide⟩

theorem allOn_accessible (p : Port) (b : Bus) : Accessible p b allOn := by
  cases p <;> exact ⟨fun _ => rfl, rfl, rfl⟩

/-- Each branch is met: a disabled aperture, a gated port, one that is not ready, and an accessible one. -/
theorem witness_DataWindow :
    (allOn.seq = .idle ∧ MapSound allOn.par ∧ (0x3FC : BitVec 12).toNat ≤ 0x3FC ∧
      (0x3FC : BitVec 12).extractLsb' 0 2 = 0 ∧ (0 : BitVec 12).extractLsb' 0 2 = 0) ∧
      (ahbOffF allOn).par.ahbEnabled.get (resolvePort allOn.par 5 .ahb).port = false ∧
      State.reset.gateOn .F = false ∧ ({ State.reset with rcgc := 0x20 } : State).gateOn .F = true ∧
      ({ State.reset with rcgc := 0x20 } : State).isReady .F = false ∧ allOn.isReady .F = true ∧
      allOn.gateOn .F = true :=
  ⟨⟨rfl, defaultParams_sound _, by decide⟩, by decide⟩

theorem witness_PortRelativeIsAbsolute : MapSound State.reset.par := defaultParams_sound _

theorem witness_DecodeWindows :
    ((0x3FC : BitVec 12).extractLsb' 0 2 = 0 ∧ (0x3FC : BitVec 12).toNat ≤ 0x3FC) ∧
      (regOffset defaultMap .dir = 0x400 ∧ regOffset defaultMap .dmactl = 0x534) ∧
      ((0x538 : BitVec 12).extractLsb' 0 2 = 0 ∧ 0x3FC < (0x538 : BitVec 12).toNat ∧
        ∀ x, regOffset defaultMap x ≠ 0x538) ∧
      ((0xFFC : BitVec 12).extractLsb' 0 2 = 0 ∧ ∀ x, regOffset defaultMap x ≠ 0xFFC) ∧
      MapSound (defaultParams .tm4c123) ∧ 4 < (defaultParams .tm4c123).nIrq / 32 ∧
      39 < (defaultParams .tm4c123).nIrq / 4 :=
  ⟨by decide, by decide, ⟨by decide, by decide, fun x => by cases x <;> decide⟩,
    ⟨by decide, fun x => by cases x <;> decide⟩, defaultParams_sound _, by decide, by decide⟩

/-- V6: what the windows' ends decode to under the default map: the first and last DATA words, the last listed
offset and the one after it, the last of the window, and the last words of the controller. -/
theorem test_decodeAddr :
    let decode := decodeAddr (defaultParams .tm4c123)
    decode 0x40004000 = .data .A .apb 0 ∧ decode 0x4005D3FC = .data .F .ahb 0xFF ∧
      decode 0x40025534 = .reg .F .apb .dmactl ∧ decode 0x40025538 = .fault .unmapped ∧
      decode 0x40025FFC = .fault .unmapped ∧ decode 0xE000E110 = .nv .setEna 4 ∧
      decode 0xE000E49C = .nv .pri 39 ∧ decode 0x400FE608 = .sysRcgc := by decide

theorem outside_windows (a : Word) (h : a.toNat < 0x40004000 ∨ 0xE0000000 ≤ a.toNat) :
    ∀ p b, ¬((apertureBase defaultMap p b).toNat ≤ a.toNat ∧
      a.toNat < (apertureBase defaultMap p b).toNat + 0x1000) := by
  intro p b
  have hb := apertureBase_default p b
  omega

/-- The premises of UnmappedElsewhere, for the default parameters. -/
def InNoWindow (a : Word) : Prop :=
  a.extractLsb' 0 2 = 0 ∧
    let par := defaultParams .tm4c123
    let nvic : Nat → Nat → Prop := fun off len =>
      par.map.nvicBase.toNat + off ≤ a.toNat ∧ a.toNat < par.map.nvicBase.toNat + off + len
    (∀ p b, ¬((apertureBase par.map p b).toNat ≤ a.toNat ∧
      a.toNat < (apertureBase par.map p b).toNat + 0x1000)) ∧
    a ≠ par.map.rcgcAddr ∧ a ≠ par.map.prAddr ∧
    ¬nvic 0x100 (4 * (par.nIrq / 32)) ∧ ¬nvic 0x180 (4 * (par.nIrq / 32)) ∧
    ¬nvic 0x200 (4 * (par.nIrq / 32)) ∧ ¬nvic 0x280 (4 * (par.nIrq / 32)) ∧
    ¬nvic 0x300 (4 * (par.nIrq / 32)) ∧ ¬nvic 0x400 par.nIrq

/-- The first address after the SETENA words and after the priority words (V6), and the last before port A. -/
theorem witness_UnmappedElsewhere :
    InNoWindow 0xE000E114 ∧ InNoWindow 0xE000E4A0 ∧ InNoWindow 0x40003FFC :=
  ⟨⟨by decide, outside_windows _ (.inr (by decide)), by decide⟩,
    ⟨by decide, outside_windows _ (.inr (by decide)), by decide⟩,
    ⟨by decide, outside_windows _ (.inl (by decide)), by decide⟩⟩

/-- One address for each code an access can meet (R300). -/
theorem witness_StatusCodes :
    State.reset.seq = .idle ∧ (0x40025402 : Word).extractLsb' 0 2 ≠ 0 ∧
      decodeAddr State.reset.par 0x40025424 = .fault .unmapped ∧
      decodeAddr State.reset.par 0x4005D400 = .reg .F .ahb .dir ∧
      decodeAddr State.reset.par 0x40025010 = .data .F .apb 4 ∧
      decodeAddr State.reset.par 0xE000E100 = .nv .setEna 0 := by decide

theorem witness_FaultingAddresses :
    MapSound State.reset.par ∧ State.reset.seq = .idle ∧
      decodeAddr State.reset.par 0x40025424 = .fault .unmapped ∧
      decodeAddr State.reset.par 0x40025402 = .fault .align ∧
      (0x40025402 : Word).extractLsb' 0 2 ≠ 0 ∧ (0x401 : BitVec 12).extractLsb' 0 2 ≠ 0 :=
  ⟨defaultParams_sound _, by decide⟩

theorem witness_ReadsChangeNothing :
    exec (.rda 0x400FE608) State.reset = .next (readCommand 0x400FE608 State.reset) ∧
      exec (.rdr 6 0x400 .ahb) State.reset =
        .next (readCommand (portRelative State.reset.par 6 0x400 .ahb) State.reset) := ⟨rfl, rfl⟩

theorem witness_ControllerWordReads :
    MapSound State.reset.par ∧ State.reset.seq = .idle ∧ 4 < State.reset.par.nIrq / 32 ∧
      NvKind.active ≠ .pri ∧ 39 < State.reset.par.nIrq / 4 ∧ 3 < 4 :=
  ⟨defaultParams_sound _, by decide⟩

theorem witness_ControllerWordWrites :
    MapSound State.reset.par ∧ State.reset.seq = .idle ∧ 0 < State.reset.par.nIrq / 32 ∧
      4 < State.reset.par.nIrq / 32 := ⟨defaultParams_sound _, by decide⟩

theorem witness_PriorityWrites :
    MapSound State.reset.par ∧ ParamsInRange State.reset.par ∧ State.reset.seq = .idle ∧
      39 < State.reset.par.nIrq / 4 ∧ 159 / 4 = 39 ∧ 155 / 4 ≠ 39 :=
  ⟨defaultParams_sound _, defaultParams_inRange _, by decide⟩

theorem witness_ClockWords : MapSound State.reset.par ∧ State.reset.seq = .idle :=
  ⟨defaultParams_sound _, rfl⟩

/-- Both sides of the profile and of the commit bit (R260 to R263). -/
theorem witness_CommitGating :
    State.reset.par.profile = .tm4c123 ∧ (State.reset.port .F).cr.getLsbD 0 = false ∧
      (State.reset.port .F).cr.getLsbD 1 = true ∧ (State.reset.port .F).locked = true ∧
      (State.resetWith (defaultParams .neutral)).par.profile = .neutral := by decide

/-- A port's registers for detection: pin 0 level-high, pin 1 rising, pin 2 falling, pin 3 both edges. -/
def sensing : PortRegs := { resetNeutral with is := 0x01, iev := 0x03, ibe := 0x08, den := 0x0F, ris := 0x01 }

/-- All ports on, port A sensing with its pins at `level`. -/
def sensingA (level : Byte) : State :=
  { allOn with regs := allOn.regs.set .A sensing, level := allOn.level.set .A level }

theorem witness_IcrClears :
    let s := sensingA 0x01
    s.isReady .A = true ∧ (s.port .A).is.getLsbD 0 = true ∧ (s.port .A).den.getLsbD 0 = true ∧
      (s.par.pinPresent.get .A).getLsbD 0 = true ∧
      ((endOfStep (regWrite .A .icr 0x01 s)).level.get .A).getLsbD 0 = (s.port .A).iev.getLsbD 0 := by
  decide

theorem witness_ReadOnlyWrites :
    allOn.seq = .idle ∧ MapSound allOn.par ∧ Accessible (resolvePort allOn.par 5 .ahb).port .ahb allOn ∧
      4 < allOn.par.nIrq / 32 :=
  ⟨rfl, defaultParams_sound _, allOn_accessible _ _, by decide⟩

theorem witness_WritesAreIdempotent :
    busWrite (.nv .setEna 4) 1 State.reset = .ok (nvWrite .setEna 4 1 State.reset) ∧
      busWrite (.reg .F .apb .is) 1 allOn = .ok (regWrite .F .is 1 allOn) := ⟨rfl, rfl⟩

theorem witness_AperturesShareState :
    MapSound State.reset.par ∧ State.reset.par.ahbEnabled.get .F = true ∧
      (0xFFC : BitVec 12).extractLsb' 0 2 = 0 := ⟨defaultParams_sound _, by decide⟩

theorem witness_EngineCommandsLoad :
    State.reset.seq = .idle ∧ (resolvePin State.reset.par 47 .ahb).valid = true ∧
      (resolvePin State.reset.par 48 .apb).valid = false ∧
      portOfNumber (5 : BitVec 3).toNat = some .F ∧ (6 : BitVec 3).toNat > 5 := by decide

theorem witness_MaskedReconfigurationOrder :
    (trigBits .both).isSome = true ∧ (trigBits .low).isSome = true ∧ trigBits .none = none := by decide

theorem immediate_sibling : SiblingInv immediate := fun _ p => by cases p <;> decide

theorem allOn_sibling : SiblingInv allOn := fun _ p => by cases p <;> decide

/-- V3.8: `CFG PF4, …, rise, ahb`, with the clock ready at once. -/
def cfgPF4 : Instr := .cfg 44 .input false 0 .up .ma8 .digital .rising .ahb

/-- The same pin's ARM. -/
def armPF4 : Instr := .arm 44 .rising .ahb

theorem cfgPF4_configures (par : Params) (h : par.pinScheme = .zero) :
    Configures par cfgPF4 .F 4 .rising .ahb := by
  refine ⟨44, ?_, ?_, .inl ⟨_, _, _, _, _, _, rfl⟩⟩ <;> (rw [resolvePin, h]; rfl)

theorem armPF4_configures (par : Params) (h : par.pinScheme = .zero) :
    Configures par armPF4 .F 4 .rising .ahb := by
  refine ⟨44, ?_, ?_, .inr ⟨?_, rfl⟩⟩ <;> (rw [resolvePin, h]; rfl)

/-- Reset with `cmd` loaded and the clock of port F off, as the default DEFERRED build has it. -/
theorem witness_WaitReadyHolds :
    let s := loaded armPF4 State.reset
    let w := { s with seq := .busy armPF4 (expand s.par armPF4) 1 }
    (w.seq = .busy armPF4 (expand w.par armPF4) 1 ∧
      (expand w.par armPF4)[1]? = some (.waitRdy .F) ∧ w.isReady .F = false ∧
      ({ w with ready := 0x20 } : State).isReady .F = true ∧ 1 + 1 < (expand w.par armPF4).length) ∧
      Configures s.par armPF4 .F 4 .rising .ahb ∧ s.seq = .busy armPF4 (expand s.par armPF4) 0 ∧
      s.par.clockReady = .deferred ∧ s.isReady .F = false :=
  ⟨by decide, armPF4_configures _ rfl, rfl, rfl, rfl⟩

/-- R181: WAITRDY holds an unready port's command, and lets it go on after the clock-ready agent's step. -/
theorem test_wait :
    let ops : List MicroOp := [.clkSet .F, .waitRdy .F, .bclr .F .apb .dir 4]
    let s := { State.reset with rcgc := 0x20, seq := .busy armPF4 ops 1 }
    (sequencerStep s).seq = .busy armPF4 ops 1 ∧
      (sequencerStep (clockBecomesReady .F s)).seq = .busy armPF4 ops 2 := by decide

/-- The three ways to be underway: the clock ready at once, ready already, and awaited. -/
theorem underway_immediate (cmd : Instr) : Underway cmd .F 0 (loaded cmd immediate) :=
  ⟨rfl, .inl ⟨rfl, .inr rfl⟩⟩

theorem underway_ready (cmd : Instr) : Underway cmd .F 0 (loaded cmd allOn) := 
  ⟨rfl, .inl ⟨rfl, .inl (show allOn.isReady .F = true by decide)⟩⟩

theorem underway_awaited (cmd : Instr) :
    Underway cmd .F 1 { allOn with seq := .busy cmd (expand allOn.par cmd) 1 } :=
  ⟨rfl, .inr ⟨rfl, (show allOn.gateOn .F = true by decide), (show allOn.isReady .F = true by decide)⟩⟩

theorem witness_CfgCompletes :
    let s := loaded cfgPF4 immediate
    let pn := resolvePin s.par 44 .ahb
    Underway cfgPF4 pn.port 0 s ∧ SiblingInv s ∧ (Bus.ahb = .ahb → s.par.ahbEnabled.get pn.port = true) :=
  ⟨underway_immediate _, immediate_sibling, fun _ => rfl⟩

/-- The same with a clock that is ready already, and with one that has been waited for. -/
theorem witness_CfgCompletes_ready :
    Underway cfgPF4 .F 0 (loaded cfgPF4 allOn) ∧ SiblingInv (loaded cfgPF4 allOn) ∧
      Underway cfgPF4 .F 1 { allOn with seq := .busy cfgPF4 (expand allOn.par cfgPF4) 1 } ∧
      SiblingInv { allOn with seq := .busy cfgPF4 (expand allOn.par cfgPF4) 1 } ∧
      (resolvePin allOn.par 44 .ahb).port = .F :=
  ⟨underway_ready _, allOn_sibling, underway_awaited _, allOn_sibling, rfl⟩

theorem witness_CfgTraceFollowsList :
    let s := loaded armPF4 immediate
    Configures s.par armPF4 .F 4 .rising .ahb ∧ Underway armPF4 .F 0 s ∧
      (Bus.ahb = .ahb → s.par.ahbEnabled.get .F = true) :=
  ⟨armPF4_configures _ rfl, underway_immediate _, fun _ => rfl⟩

theorem witness_CfgFaultsAhbOff :
    let s := ahbOffF immediate
    (Configures s.par cfgPF4 .F 4 .rising .ahb ∧ Underway cfgPF4 .F 0 (loaded cfgPF4 s)) ∧
      (Configures s.par armPF4 .F 4 .rising .ahb ∧ Underway armPF4 .F 0 (loaded armPF4 s)) ∧
      s.par.ahbEnabled.get .F = false :=
  ⟨⟨cfgPF4_configures _ rfl, rfl, .inl ⟨rfl, .inr rfl⟩⟩,
    ⟨armPF4_configures _ rfl, rfl, .inl ⟨rfl, .inr rfl⟩⟩, rfl⟩

/-- An edge and a level trigger, by a CFG and by an ARM. -/
theorem witness_RawStatusAfterTrigger :
    let high : Instr := .arm 44 .high .apb
    (Configures allOn.par cfgPF4 .F 4 .rising .ahb ∧ Underway cfgPF4 .F 0 (loaded cfgPF4 allOn) ∧
      (Bus.ahb = .ahb → allOn.par.ahbEnabled.get .F = true)) ∧
      Configures allOn.par high .F 4 .high .apb ∧ Underway high .F 0 (loaded high allOn) :=
  ⟨⟨cfgPF4_configures _ rfl, underway_ready _, fun _ => rfl⟩, ⟨44, rfl, rfl, .inr ⟨rfl, rfl⟩⟩,
    underway_ready _⟩

theorem witness_CfgIsIdempotent :
    let s := loaded cfgPF4 immediate
    let p := (resolvePin s.par 44 .ahb).port
    Underway cfgPF4 p 0 s ∧ SiblingInv s ∧ (Bus.ahb = .ahb → s.par.ahbEnabled.get p = true) :=
  ⟨underway_immediate _, immediate_sibling, fun _ => rfl⟩

theorem witness_ArmCompletes :
    let s := loaded armPF4 immediate
    let pn := resolvePin s.par 44 .ahb
    Underway armPF4 pn.port 0 s ∧ pn.valid = true ∧ SiblingInv s ∧
      (Bus.ahb = .ahb → s.par.ahbEnabled.get pn.port = true) :=
  ⟨underway_immediate _, rfl, immediate_sibling, fun _ => rfl⟩

theorem witness_DeinitCompletes :
    let s := loaded (.deinit 5) allOn
    portOfNumber (5 : BitVec 3).toNat = some .F ∧
      s.seq = .busy (.deinit 5) (expand s.par (.deinit 5)) 0 := by decide

theorem witness_ClockCommandsComplete :
    (loaded (.clken 7) allOn).seq = .busy (.clken 7) (expand allOn.par (.clken 7)) 0 ∧
      (loaded (.clkdis 7) allOn).seq = .busy (.clkdis 7) (expand allOn.par (.clkdis 7)) 0 := by decide

theorem witness_MicroOperationEffects : Accessible .F .ahb allOn := allOn_accessible _ _

theorem witness_EdgeDetection :
    let s := sensingA 0x0F
    s.isReady .A = true ∧ (s.port .A).is.getLsbD 1 = false ∧ (s.port .A).is.getLsbD 2 = false ∧
      (s.port .A).is.getLsbD 3 = false ∧ (s.port .A).iev.getLsbD 1 = true ∧
      (s.port .A).iev.getLsbD 2 = false ∧ (s.port .A).ibe.getLsbD 3 = true := by decide

theorem witness_LevelDetection :
    (sensingA 0x0F).isReady .A = true ∧ ((sensingA 0x0F).port .A).is.getLsbD 0 = true := by decide

theorem witness_Sampling :
    State.reset.isReady .A = false ∧ (sensingA 0x0F).isReady .A = true ∧
      ((sensingA 0x0F).port .A).den.getLsbD 3 = true ∧ ((sensingA 0x0F).port .A).den.getLsbD 4 = false ∧
      ((sensingA 0x0F).par.pinPresent.get .A).getLsbD 3 = true ∧
      (State.reset.par.pinPresent.get .F).getLsbD 5 = false := by decide

/-- Outputs: pins 0 and 1 push-pull, pins 2 and 3 open-drain, latching 1 and 0. -/
def driving : PortRegs := { resetNeutral with dir := 0x0F, den := 0x0F, odr := 0x0C, data := 0x05 }

theorem witness_PadConstraints :
    let s := { State.reset with regs := State.reset.regs.set .A driving }
    let driven : Off → Bool := fun o =>
      (s.par.pinPresent.get .A).getLsbD o && (s.port .A).dir.getLsbD o && (s.port .A).den.getLsbD o
        && !(s.port .A).afsel.getLsbD o
    (driven 0 = true ∧ (s.port .A).odr.getLsbD 0 = false) ∧
      (driven 3 = true ∧ (s.port .A).odr.getLsbD 3 = true ∧ (s.port .A).data.getLsbD 3 = false) ∧
      ((s.port .A).odr.getLsbD 2 = true ∧ (s.port .A).data.getLsbD 2 = true) ∧ driven 4 = false := by
  decide

theorem witness_PendingUpdate :
    0 < State.reset.par.nIrq ∧ 159 < State.reset.par.nIrq ∧ (∃ p, State.reset.par.irqLine.get p = 30) ∧
      ∀ p, State.reset.par.irqLine.get p ≠ 5 :=
  ⟨by decide, by decide, ⟨.F, rfl⟩, fun p => by cases p <;> decide⟩

/-- Lines 0 and 30 enabled and pending, line 1 active at priority 2 (V9.2). -/
def preempting : State :=
  { State.reset with en := 0x40000001, pend := 0x40000001, act := 2, stack := [1], pri := State.reset.pri.set 1 2 }

theorem preempting_lines : LineInv preempting := ⟨fun _ => by decide, by decide +kernel⟩

theorem witness_ArbiterChoosesMostUrgent :
    LineInv preempting ∧ arbiter preempting = some 0 ∧
      LineInv { preempting with pri := State.reset.pri } ∧
      arbiter { preempting with pri := State.reset.pri } = none :=
  ⟨preempting_lines, by decide +kernel, ⟨fun _ => by decide, by decide +kernel⟩, by decide +kernel⟩

theorem witness_AcknowledgeEffect :
    preempting.seq = .idle ∧ arbiter preempting = some 0 ∧ arbiter State.reset = none ∧
      (loaded (.clken 0) preempting).seq ≠ .idle := by decide +kernel

/-- Line 1 active while unready port B still asserts it (V10.1's case). -/
theorem witness_EndOfInterruptEffect :
    let s := { State.reset with
      regs := State.reset.regs.set .B { resetNeutral with ris := 1, im := 1 }
      act := 2, stack := [1] }
    s.seq = .idle ∧ s.stack = 1 :: [] ∧
      (lineLevels (endOfStep (endOfInterrupt s))).testBit 1 = true := by decide +kernel

theorem witness_StepKeepsInv : Inv allOn ∧ step allOn = .next (endOfStep (beginStep allOn)) :=
  ⟨⟨⟨fun p _ => by cases p <;> rfl, fun _ => rfl⟩, fun h => (by cases h), trivial,
    ⟨List.nodup_nil, fun n => by simp [allOn, State.reset, State.resetWith]⟩,
    ⟨fun _ => by decide, by decide +kernel⟩, allOn_sibling⟩, rfl⟩

/-- Each clause's change can occur: a step that changes ARMT, one that changes EN, one that changes PRI. -/
theorem witness_WritersOfControlState_armt :
    let s := withTurn .sequencer { allOn with seq := .busy (.arm 44 .none .apb) [.armSet .F 4] 0 }
    ∃ t, step s = .next t ∧ nextTurn s ≠ .reset ∧ t.armt ≠ s.armt := ⟨_, rfl, by decide, by decide⟩

theorem witness_WritersOfControlState_en :
    let s := withTurn .port { offered [0xB0000000, 0xE000E100, 1] with seq := .idle }
    MapSound s.par ∧ ∃ t, step s = .next t ∧ nextTurn s ≠ .reset ∧ t.en ≠ s.en :=
  ⟨defaultParams_sound _, _, rfl, by decide, by decide +kernel⟩

theorem witness_WritersOfControlState_pri :
    let s := offered [0xB0000000, 0xE000E400, 0x40]
    MapSound s.par ∧ ∃ t, step s = .next t ∧ nextTurn s ≠ .reset ∧ t.pri ≠ s.pri :=
  ⟨defaultParams_sound _, _, rfl, by decide, by decide +kernel⟩

/-- A pending bit set by its line and one set by SETPEND, and one cleared by each of its two writers. -/
theorem witness_WritersOfControlState_pend :
    MapSound State.reset.par ∧ MapSound preempting.par ∧ (∃ t, step 
      (withTurn (.environment (.const 0) 0x20) State.reset) = .next t ∧ t.pend.testBit 5 = true) ∧
      (∃ t, step (offered [0xB0000000, 0xE000E200, 0x20]) = .next t ∧ t.pend.testBit 5 = true) ∧
      (∃ t, step { offered [0xB0000000, 0xE000E280, 0x20] with pend := 0x20 } = .next t ∧
        t.pend.testBit 5 = false) ∧
      ∃ t, step (withTurn .ack preempting) = .next t ∧ t.pend.testBit 0 = false ∧
        t.act.testBit 0 = true :=
  ⟨defaultParams_sound _, defaultParams_sound _, ⟨_, rfl, by decide +kernel⟩, ⟨_, rfl, by decide +kernel⟩,
    ⟨_, rfl, by decide +kernel⟩,
    ⟨_, rfl, by decide +kernel⟩⟩

/-- An active bit cleared by its end of interrupt. -/
theorem witness_WritersOfControlState_act :
    ∃ t, step (withTurn .eoi preempting) = .next t ∧ preempting.act.testBit 1 = true ∧
      t.act.testBit 1 = false := ⟨_, rfl, by decide +kernel⟩

theorem witness_BusyCommandUndisturbed :
    let s := withTurn (.environment (.const 0xFF) 0) (loaded (.clken 0) allOn)
    s.seq ≠ .idle ∧ nextTurn s ≠ .sequencer ∧ nextTurn s ≠ .reset ∧
      step s = .next (endOfStep { beginStep s with level := .const 0xFF, xline := 0 }) :=
  ⟨by decide, by decide, by decide, rfl⟩

end Sys2Proof.Tests
end

section
/-! PROOF. The step of every agent but the command port (O8). -/

namespace Sys2Proof.Machine

/-- R15: a turn of an agent that is neither the command port nor a reset always answers a next state: that
agent's effect and then the end of the step. -/
theorem step_eq_agentEffect {s : State} {t : Turn} (h : nextTurn s = t) (hp : t ≠ .port) (hr : t ≠ .reset) :
    step s = .next (endOfStep (agentEffect t (beginStep s))) := by
  rw [step_eq h]
  cases t with
  | port => exact absurd rfl hp
  | reset => exact absurd rfl hr
  | _ => rfl

/-- R360: a reset turn resets the block, and no end of step follows. -/
theorem step_eq_resetBlock {s : State} (h : nextTurn s = .reset) :
    step s = .next (resetBlock (beginStep s)) := step_eq h

/-- The gate the clock-ready agent looks at is the one before its turn was taken. -/
theorem clockBecomesReady_beginStep (p : Port) (s : State) :
    clockBecomesReady p (beginStep s) =
      if s.gateOn p then { beginStep s with ready := setBit s.ready p.index } else beginStep s := rfl

/-- R56, R57, R360: what a reset turn leaves, field by field. -/
theorem resetBlock_beginStep (s : State) :
    resetBlock (beginStep s) =
      { s with
        regs := (State.resetWith s.par).regs
        sampled := .const 0, rcgc := 0, ready := 0, armt := .const none
        en := 0, pend := 0, act := 0, pri := List.replicate s.par.nIrq 0, stack := []
        seq := .idle, resp := ⟨.ok, 0, 0, 0⟩, trace := []
        turns := s.turns.tail, waited := 0, tick := s.tick + 1 } := rfl

/-- Settles O8: the turn of an agent is its `agentEffect` and the end of the step, written out per agent, and a
reset turn is `resetBlock`, written out field by field. -/
theorem otherAgentsStep : Obligations.OtherAgentsStep := by
  intro s
  refine ⟨fun h => ?sequencer, fun l x h => ?environment, fun p h => ?clockReady, fun h => ?ack,
    fun h => ?eoi, fun ws h => ?host, fun h => ?reset⟩
  case sequencer => rw [step_eq_agentEffect h nofun nofun, agentEffect]
  case environment => rw [step_eq_agentEffect h nofun nofun, agentEffect]
  case clockReady => rw [step_eq_agentEffect h nofun nofun, agentEffect, clockBecomesReady_beginStep]
  case ack => rw [step_eq_agentEffect h nofun nofun, agentEffect]
  case eoi => rw [step_eq_agentEffect h nofun nofun, agentEffect]
  case host => rw [step_eq_agentEffect h nofun nofun, agentEffect, beginStep_stream]
  case reset => rw [step_eq_resetBlock h, resetBlock_beginStep]

end Sys2Proof.Machine
end

section
/-! PROOF. The reset values and the invariant of the block (O56 to O58): each part of the invariant under the
operations that touch that part, then the whole under every agent's step. -/

namespace Sys2Proof.Machine

/-! ### What the command port and the sequencer can leave -/

/-- A command is accepted only from the idle sequencer, and leaves the state its meaning names (R104). -/
theorem accept_next {s u t : State} (h : accept s u = .next t) : s.seq = .idle ∧ t = u := by
  unfold accept at h
  split at h
  · injection h with h; exact ⟨‹_›, h.symm⟩
  · cases h

/-- What accepting a command can leave: a bus read, a bus write, the loaded sequencer or a completion. -/
theorem exec_next_cases {i : Instr} {s t : State} (h : exec i s = .next t) :
    s.seq = .idle ∧ ((∃ a, t = readCommand a s) ∨ (∃ a d, t = writeCommand a d s) ∨
      t = loadCommand i s ∨ ∃ d x, t = complete d x s) := by
  cases i with
  | nop | resolve | rdarm => exact (accept_next h).imp_right fun e => .inr (.inr (.inr ⟨_, _, e⟩))
  | rdr | rda => exact (accept_next h).imp_right fun e => .inl ⟨_, e⟩
  | wrr | wra => exact (accept_next h).imp_right fun e => .inr (.inl ⟨_, _, e⟩)
  | cfg | arm | deinit | clken | clkdis =>
    exact (accept_next h).imp_right fun e => .inr (.inr (.inl e))

/-- A WAITRDY that takes effect changes nothing (R181). -/
theorem runOp_waitRdy_done {p : Port} {s u : State} (h : runOp (.waitRdy p) s = .done u) : u = s := by
  simp only [runOp] at h
  split at h
  · injection h with h; exact h.symm
  · cases h

/-- What one step of the sequencer can leave (R51): nothing done, a fault, a completion, or the effect of the
micro-operation it stands at. -/
theorem sequencerStep_cases (s : State) :
    sequencerStep s = s ∨ (∃ c a, sequencerStep s = raiseFault c a s) ∨
      (∃ d x, sequencerStep s = complete d x s) ∨
      ∃ cmd ops i op u, s.seq = .busy cmd ops i ∧ ops[i]? = some op ∧ runOp op s = .done u ∧
        sequencerStep s = advance cmd ops i u := by
  cases hs : s.seq with
  | idle => exact .inl (sequencerStep_idle hs)
  | busy cmd ops i =>
    cases ho : ops[i]? with
    | none => exact .inr (.inr (.inl ⟨_, _, by rw [sequencerStep, hs]; simp only [ho]; rfl⟩))
    | some op =>
      cases hr : runOp op s with
      | done u => exact .inr (.inr (.inr ⟨cmd, ops, i, op, u, rfl, ho, hr, sequencerStep_done hs ho hr⟩))
      | hold => exact .inl (sequencerStep_hold hs ho hr)
      | fault c a => exact .inr (.inl ⟨c, a, sequencerStep_fault hs ho hr⟩)

/-! ### Clock gates and ready bits (R44) -/

theorem setBit_port (v : BitVec 6) (p q : Port) :
    (setBit v p.index).getLsbD q.index = (v.getLsbD q.index || decide (q = p)) := by
  simp only [setBit_getLsbD _ _ _ (Port.index_lt p), Port.index_inj]

theorem clearBit_port (v : BitVec 6) (p q : Port) :
    (clearBit v p.index).getLsbD q.index = (v.getLsbD q.index && !decide (q = p)) := by
  simp only [clearBit_getLsbD _ _ _ (Port.index_lt p), Port.index_inj]

theorem gateSet_gateOn (p q : Port) (s : State) :
    (gateSet p s).gateOn q = (s.gateOn q || decide (q = p)) := setBit_port s.rcgc p q

theorem gateSet_isReady (p q : Port) (s : State) :
    (gateSet p s).isReady q =
      (s.isReady q || (decide (s.par.clockReady = .immediate) && decide (q = p))) := by
  have e : (gateSet p s).ready =
      if s.par.clockReady = .immediate then setBit s.ready p.index else s.ready := rfl
  rw [State.isReady, e]
  split
  next h => rw [setBit_port, decide_eq_true h, Bool.true_and]; rfl
  next h => rw [decide_eq_false h, Bool.false_and, Bool.or_false]; rfl

theorem clockInv_gateSet {s : State} (h : ClockInv s) (p : Port) : ClockInv (gateSet p s) := by
  obtain ⟨hready, himm⟩ := h
  refine ⟨fun q hq => ?_, fun hi => ?_⟩
  · rw [gateSet_isReady] at hq
    rw [gateSet_gateOn]
    have := hready q
    grind
  · have hi' : s.par.clockReady = .immediate := hi
    rw [gateSet_rcgc, gateSet, if_pos hi', himm hi']

theorem clockInv_gateClear {s : State} (h : ClockInv s) (p : Port) : ClockInv (gateClear p s) := by
  obtain ⟨hready, himm⟩ := h
  refine ⟨fun q hq => ?_, fun hi => ?_⟩
  · simp only [State.isReady, gateClear_ready, clearBit_port, Bool.and_eq_true] at hq
    simp only [State.gateOn, gateClear_rcgc, clearBit_port, Bool.and_eq_true]
    exact ⟨hready q hq.1, hq.2⟩
  · rw [gateClear_rcgc, gateClear_ready, himm hi]

theorem clockInv_rcgcWrite {s : State} (h : ClockInv s) (d : Word) : ClockInv (rcgcWrite d s) := by
  obtain ⟨-, himm⟩ := h
  refine ⟨fun q hq => ?_, fun hi => six_ext fun q => ?_⟩
  · obtain ⟨hg, hr⟩ := rcgcWrite_bits d s q
    rw [hr, Bool.and_eq_true] at hq
    rw [hg, hq.1]
  · obtain ⟨hg, hr⟩ := rcgcWrite_bits d s q
    have hi' : s.par.clockReady = .immediate := hi
    have hsame : s.isReady q = s.gateOn q := by rw [State.isReady, himm hi, State.gateOn]
    rw [isReady_of_ready, gateOn_of_rcgc, hg, hr, hsame, hi']
    cases s.gateOn q <;> simp

theorem clockInv_clockBecomesReady {s : State} (h : ClockInv s) (p : Port) :
    ClockInv (clockBecomesReady p s) := by
  obtain ⟨hready, himm⟩ := h
  by_cases hg : s.gateOn p = true
  · rw [clockBecomesReady, if_pos hg]
    refine ⟨fun q hq => ?_, fun hi => ?_⟩
    · rw [State.isReady, setBit_port, Bool.or_eq_true, decide_eq_true_eq] at hq
      rcases hq with hq | rfl
      · exact hready q hq
      · exact hg
    · show setBit s.ready p.index = s.rcgc
      rw [himm hi]
      exact setBit_of_set hg
  · rw [clockBecomesReady, if_neg hg]
    exact ⟨hready, himm⟩

/-! ### The registers of a port (R39, R260, R261) -/

/-- What LockInv and SiblingInv ask of one port's registers. -/
structure PortInv (prof : Profile) (r : PortRegs) : Prop where
  unlocked : prof = .neutral → r.locked = false
  siblings : prof = .tm4c123 → r.dr2r &&& r.dr4r = 0 ∧ r.dr2r &&& r.dr8r = 0 ∧ r.dr4r &&& r.dr8r = 0 ∧
    r.pur &&& r.pdr = 0

theorem portInv_iff (s : State) :
    (∀ p, PortInv s.par.profile (s.port p)) ↔ LockInv s ∧ SiblingInv s :=
  ⟨fun h => ⟨fun hn p => (h p).unlocked hn, fun ht p => (h p).siblings ht⟩,
    fun ⟨hl, hs⟩ p => ⟨fun hn => hl hn p, fun ht => hs ht p⟩⟩

theorem and_andNot_self (v b : Byte) : v &&& (b &&& ~~~v) = 0 := by
  rw [BitVec.and_comm b, ← BitVec.and_assoc, BitVec.and_not_self]
  exact BitVec.zero_and

theorem andNot_self_and (v b : Byte) : (b &&& ~~~v) &&& v = 0 := by
  rw [BitVec.and_comm, and_andNot_self]

theorem andNot_disjoint {a b : Byte} (h : a &&& b = 0) (v : Byte) : (a &&& ~~~v) &&& (b &&& ~~~v) = 0 := by
  rw [BitVec.and_assoc, ← BitVec.and_assoc (~~~v), BitVec.and_comm (~~~v) b, BitVec.and_assoc b,
    BitVec.and_self, ← BitVec.and_assoc, h]
  exact BitVec.zero_and

/-- A gated write and the clearing of the sibling's same bits keep two pull registers disjoint (R261, R262). -/
theorem merge_disjoint {a b : Byte} (h : a &&& b = 0) (mask v : Byte) :
    merge mask a v &&& (b &&& ~~~(v &&& mask)) = 0 := by
  refine byte_ext fun o => ?_
  have ho : (a &&& b).getLsbD o = (0 : Byte).getLsbD o := by rw [h]
  simp only [BitVec.getLsbD_and, BitVec.getLsbD_not, merge_bit, BitVec.getLsbD_zero, BitVec.ofNat_eq_ofNat] at ho ⊢
  grind

/-- A write to CR changes CR alone, or nothing (R262). -/
theorem writeReg_cr_cases (prof : Profile) (noise : Byte) (v : Word) (r : PortRegs) :
    writeReg prof noise .cr v r = r ∨ ∃ c, writeReg prof noise .cr v r = { r with cr := c } := by
  simp only [writeReg]
  split
  · exact .inl rfl
  · exact .inr ⟨_, rfl⟩

theorem portInv_writeReg {prof : Profile} {r : PortRegs} (h : PortInv prof r) (noise : Byte) (x : Reg)
    (v : Word) : PortInv prof (writeReg prof noise x v r) := by
  obtain ⟨hlock, hsib⟩ := h
  cases prof with
  | neutral =>
    refine ⟨fun hn => ?_, nofun⟩
    cases x <;> exact hlock hn
  | tm4c123 =>
    refine ⟨nofun, fun ht => ?_⟩
    obtain ⟨h24, h28, h48, hp⟩ := hsib ht
    cases x with
    | dr2r => exact ⟨and_andNot_self _ _, and_andNot_self _ _, andNot_disjoint h48 _, hp⟩
    | dr4r => exact ⟨andNot_self_and _ _, andNot_disjoint h28 _, and_andNot_self _ _, hp⟩
    | dr8r => exact ⟨andNot_disjoint h24 _, andNot_self_and _ _, andNot_self_and _ _, hp⟩
    | pur => exact ⟨h24, h28, h48, merge_disjoint hp _ _⟩
    | pdr =>
      refine ⟨h24, h28, h48, ?_⟩
      rw [BitVec.and_comm] at hp ⊢
      exact merge_disjoint hp _ _
    | cr =>
      obtain e | ⟨c, e⟩ := writeReg_cr_cases .tm4c123 noise v r
      · rw [e]; exact ⟨h24, h28, h48, hp⟩
      · rw [e]; exact ⟨h24, h28, h48, hp⟩
    | _ => exact ⟨h24, h28, h48, hp⟩

/-! ### The sequencer's list (R51, R102, R182) -/

theorem trigOps_length_le (p : Port) (b : Bus) (o : Off) (trig : Trig) : (trigOps p b o trig).length ≤ 6 := by
  cases trig <;> simp [trigOps, trigBits]

theorem cfgOps_length_le (p : Port) (o : Off) (dir : Dir) (afen : Bool) (afcode : BitVec 4) (pull : Pull)
    (drive : Drive) (sig : Sig) (trig : Trig) (b : Bus) :
    (cfgOps p o dir afen afcode pull drive sig trig b).length ≤ (if afen then 14 else 12) := by
  have := trigOps_length_le p b o trig
  cases afen <;> cases pull <;> simp [cfgOps, pullReg] <;> omega

/-- No command has more than 14 micro-operations (R102). -/
theorem expand_length_le (par : Params) (cmd : Instr) : (expand par cmd).length ≤ 14 := by
  cases cmd with
  | cfg pin dir afen afcode pull drive sig trig bus =>
    refine (cfgOps_length_le ..).trans ?_
    split <;> decide
  | arm pin trig bus =>
    simp only [expand]
    split
    · have := cfgOps_length_le (resolvePin par pin bus).port (resolvePin par pin bus).off .input false 0 .up
        .ma8 .digital trig bus
      simp only [armOps, List.length_append, List.length_cons, List.length_nil]
      simp only [Bool.false_eq_true, if_false] at this
      omega
    · exact Nat.zero_le _
  | deinit port =>
    simp only [expand]
    split <;> simp
  | _ => simp [expand]

theorem irqEn_not_mem_cfgOps {n : Nat} {p o dir afen afcode pull drive sig trig b} :
    .irqEn n ∉ cfgOps p o dir afen afcode pull drive sig trig b := by
  intro hm
  rw [cfgOps_eq_tail] at hm
  simp only [List.mem_cons, reduceCtorEq, false_or] at hm
  rcases cfgTail_regOp _ _ _ _ _ _ _ _ _ _ _ hm with ⟨_, _, _, _, e | e⟩ | ⟨_, _, e⟩ | ⟨_, e⟩ <;> cases e

/-- An IRQEN of a command's list is that of a port's own line (R222, R225). -/
theorem irqEn_mem_expand {par : Params} {cmd : Instr} {n : Nat} (h : .irqEn n ∈ expand par cmd) :
    ∃ p, n = par.irqLine.get p := by
  cases cmd with
  | cfg => exact absurd h irqEn_not_mem_cfgOps
  | arm pin trig bus =>
    simp only [expand] at h
    split at h
    · rcases List.mem_append.mp h with h | h
      · exact absurd h irqEn_not_mem_cfgOps
      · simp only [List.mem_cons, reduceCtorEq, MicroOp.irqEn.injEq, List.not_mem_nil, or_false, false_or] at h
        exact ⟨_, h⟩
    · cases h
  | deinit port =>
    simp only [expand] at h
    split at h <;> simp at h
  | _ => simp [expand] at h

/-! ### Lines (R46 to R49) -/

theorem addLine_lt {v : LineBits} {N n : Nat} (hv : v < 2 ^ N) (hn : n < N) : addLine v n < 2 ^ N := by
  rw [lines_lt_iff] at hv ⊢
  intro m hm
  rw [addLine_testBit, Bool.or_eq_true, decide_eq_true_eq] at hm
  rcases hm with hm | rfl
  · exact hv m hm
  · exact hn

theorem removeLines_lt {v : LineBits} {N : Nat} (hv : v < 2 ^ N) (m : LineBits) : removeLines v m < 2 ^ N :=
  (removeLines_le v m).trans_lt hv

theorem lineMask_lt (par : Params) (k : Nat) (d : Word) : lineMask par k d < 2 ^ par.nIrq :=
  existingLines_lt _ _

/-- The priority in a byte of a word has `PRIO_BITS` bits, whatever `PRIO_BITS` is (R271). -/
theorem priOfByte_lt (par : Params) (d : Word) (c : Nat) : (priOfByte par d c).toNat < 2 ^ par.prioBits := by
  rw [priOfByte, BitVec.toNat_ushiftRight, Nat.shiftRight_eq_div_pow]
  apply Nat.div_lt_of_lt_mul
  rw [← Nat.pow_add]
  exact (BitVec.isLt _).trans_le (Nat.pow_le_pow_right (by decide) (by omega))

theorem priAt_lt {s : State} (h : LineInv s) (n : Nat) : (s.priAt n).toNat < 2 ^ s.par.prioBits := by
  obtain ⟨-, -, -, -, hp⟩ := h
  rw [State.priAt, List.getD_eq_getElem?_getD]
  cases hg : s.pri[n]? with
  | none => exact Nat.two_pow_pos _
  | some v => exact hp v (List.mem_of_getElem? hg)

theorem priWrite_lt {s : State} (h : LineInv s) (k : Nat) (d : Word) {v : Byte} (hv : v ∈ priWrite k d s) :
    v.toNat < 2 ^ s.par.prioBits := by
  obtain ⟨n, -, rfl⟩ := List.mem_map.mp hv
  split
  · exact priOfByte_lt _ _ _
  · exact priAt_lt h n

theorem lineInv_nvWrite {s : State} (h : LineInv s) (kind : NvKind) (k : Nat) (d : Word) :
    LineInv (nvWrite kind k d s) := by
  obtain ⟨hen, hpend, hact, hlen, hpri⟩ := id h
  have hm := lineMask_lt s.par k d
  cases kind with
  | setEna => exact ⟨fun hl => Nat.or_lt_two_pow (hen hl) hm, hpend, hact, hlen, hpri⟩
  | clrEna => exact ⟨fun hl => removeLines_lt (hen hl) _, hpend, hact, hlen, hpri⟩
  | setPend => exact ⟨hen, Nat.or_lt_two_pow hpend hm, hact, hlen, hpri⟩
  | clrPend => exact ⟨hen, removeLines_lt hpend _, hact, hlen, hpri⟩
  | active => exact h
  | pri => exact ⟨hen, hpend, hact, priWrite_length k d s, fun v hv => priWrite_lt h k d hv⟩

theorem lineInv_endOfStep {s : State} (h : LineInv s) : LineInv (endOfStep s) := by
  obtain ⟨hen, hpend, hact, hlen, hpri⟩ := h
  refine ⟨hen, ?_, hact, hlen, hpri⟩
  rw [endOfStep_pend]
  exact Nat.or_lt_two_pow hpend (removeLines_lt (existingLines_lt _ _) _)

/-! ### The active stack (R320, R321) -/

/-- A deliverable line is not active: its priority would have to be below itself (R317). -/
theorem not_active_of_deliverable {s : State} {n : Nat} (hn : n < s.par.nIrq) (hd : deliverable s n = true) :
    s.act.testBit n = false := by
  simp only [deliverable, Bool.and_eq_true, decide_eq_true_eq] at hd
  by_contra hc
  exact lt_irrefl _ (((lt_runningPriority s _).mp hd.2).2 n hn (by simpa using hc))

theorem addLine_zero_testBit (n m : Nat) : (addLine 0 n).testBit m = decide (m = n) := by
  rw [addLine_testBit, Nat.zero_testBit, Bool.false_or]

/-- The line the core takes was not active, so it enters the stack once. -/
theorem stackInv_push {s u : State} {n : Nat} (h : StackInv s) (hn : s.act.testBit n = false)
    (ha : u.act = addLine s.act n) (hs : u.stack = n :: s.stack) : StackInv u := by
  obtain ⟨hnodup, hact⟩ := h
  have hnot : n ∉ s.stack := by rw [hact] at hn; simpa using hn
  refine ⟨by rw [hs]; exact List.nodup_cons.mpr ⟨hnot, hnodup⟩, fun m => ?_⟩
  rw [ha, hs, addLine_testBit, hact]
  simp only [List.mem_cons, Bool.decide_or, Bool.or_comm]

/-- The line that ends is the top of the stack, and stands in it no second time. -/
theorem stackInv_pop {s u : State} {n : Nat} {rest : List Nat} (h : StackInv s) (hs : s.stack = n :: rest)
    (ha : u.act = removeLines s.act (addLine 0 n)) (hu : u.stack = rest) : StackInv u := by
  obtain ⟨hnodup, hact⟩ := h
  rw [hs, List.nodup_cons] at hnodup
  refine ⟨by rw [hu]; exact hnodup.2, fun m => ?_⟩
  rw [ha, hu, removeLines_testBit, addLine_zero_testBit, hact, hs]
  by_cases hm : m = n
  · subst hm; simp [hnodup.1]
  · simp [hm]

/-! ### The whole invariant under the shared operations -/

theorem inv_emit {s : State} (h : Inv s) (e : Event) : Inv (emit e s) := h

theorem inv_setSeq {s : State} (h : Inv s) {q : Seq} (hq : SeqInv { s with seq := q }) :
    Inv { s with seq := q } := by
  obtain ⟨hc, hl, -, hst, hli, hsi⟩ := h
  exact ⟨hc, hl, hq, hst, hli, hsi⟩

theorem inv_complete {s : State} (h : Inv s) (d x : Word) : Inv (complete d x s) :=
  inv_setSeq (s := s) (q := .idle) h trivial

theorem inv_raiseFault {s : State} (h : Inv s) (c : Status) (a : Word) : Inv (raiseFault c a s) :=
  inv_setSeq (s := s) (q := .idle) h trivial

theorem inv_clockInv {s : State} (h : Inv s) : ClockInv s := h.1

theorem inv_clock {s : State} (h : Inv s) {rcgc ready : BitVec 6}
    (hc : ClockInv { s with rcgc := rcgc, ready := ready }) : Inv { s with rcgc := rcgc, ready := ready } := by
  obtain ⟨-, hl, hseq, hst, hli, hsi⟩ := h
  exact ⟨hc, hl, hseq, hst, hli, hsi⟩

theorem inv_setPort {s : State} (h : Inv s) (p : Port) {r : PortRegs} (hr : PortInv s.par.profile r) :
    Inv (s.setPort p r) := by
  obtain ⟨hc, hl, hseq, hst, hli, hsi⟩ := h
  have hports : ∀ q, PortInv s.par.profile ((s.setPort p r).port q) := by
    intro q
    rw [State.port, State.setPort_regs, PerPort.get_set]
    split
    · exact hr
    · exact (portInv_iff s).mpr ⟨hl, hsi⟩ q
  obtain ⟨hl', hsi'⟩ := (portInv_iff (s.setPort p r)).mp hports
  exact ⟨hc, hl', hseq, hst, hli, hsi'⟩

theorem inv_portInv {s : State} (h : Inv s) (p : Port) : PortInv s.par.profile (s.port p) := by
  obtain ⟨-, hl, -, -, -, hsi⟩ := h
  exact (portInv_iff s).mpr ⟨hl, hsi⟩ p

theorem inv_regWrite {s : State} (h : Inv s) (p : Port) (x : Reg) (v : Word) : Inv (regWrite p x v s) :=
  inv_setPort h p (portInv_writeReg (inv_portInv h p) _ x v)

theorem inv_dataWrite {s : State} (h : Inv s) (p : Port) (m : Byte) (v : Word) : Inv (dataWrite p m v s) := by
  obtain ⟨hlock, hsib⟩ := inv_portInv h p
  exact inv_setPort h p ⟨hlock, hsib⟩

theorem inv_rcgcWrite {s : State} (h : Inv s) (d : Word) : Inv (rcgcWrite d s) :=
  inv_clock h (clockInv_rcgcWrite (inv_clockInv h) d)

theorem inv_gateSet {s : State} (h : Inv s) (p : Port) : Inv (gateSet p s) :=
  inv_clock h (clockInv_gateSet (inv_clockInv h) p)

theorem inv_gateClear {s : State} (h : Inv s) (p : Port) : Inv (gateClear p s) :=
  inv_clock h (clockInv_gateClear (inv_clockInv h) p)

theorem inv_clockBecomesReady {s : State} (h : Inv s) (p : Port) : Inv (clockBecomesReady p s) := by
  have hc := clockInv_clockBecomesReady (inv_clockInv h) p
  rw [clockBecomesReady] at hc ⊢
  split at hc
  · rw [if_pos ‹_›]; exact inv_clock h hc
  · rw [if_neg ‹_›]; exact h

theorem inv_nvWrite {s : State} (h : Inv s) (kind : NvKind) (k : Nat) (d : Word) :
    Inv (nvWrite kind k d s) := by
  obtain ⟨hc, hl, hseq, hst, hli, hsi⟩ := h
  have hli' := lineInv_nvWrite hli kind k d
  cases kind <;> exact ⟨hc, hl, hseq, hst, hli', hsi⟩

/-! ### The commands -/

theorem inv_busWrite {t : Target} {d : Word} {s u : State} (h : Inv s) (hb : busWrite t d s = .ok u) : Inv u := by
  cases t with
  | fault c => cases hb
  | data p b m =>
    simp only [busWrite] at hb
    split at hb
    · cases hb
    · injection hb with hb; subst hb; exact inv_dataWrite h p m d
  | reg p b x =>
    simp only [busWrite] at hb
    split at hb
    · cases hb
    · injection hb with hb; subst hb; exact inv_regWrite h p x d
  | sysRcgc => injection hb with hb; subst hb; exact inv_rcgcWrite h d
  | sysReady => injection hb with hb; subst hb; exact h
  | nv kind k => injection hb with hb; subst hb; exact inv_nvWrite h kind k d

theorem inv_readCommand {s : State} (h : Inv s) (a : Word) : Inv (readCommand a s) := by
  unfold readCommand
  split
  · exact inv_complete (inv_emit h _) _ _
  · exact inv_raiseFault h _ _

theorem inv_writeCommand {s : State} (h : Inv s) (a d : Word) : Inv (writeCommand a d s) := by
  unfold writeCommand
  split
  next u hb => exact inv_complete (inv_emit (inv_busWrite h hb) _) _ _
  next => exact inv_raiseFault h _ _

theorem inv_loadCommand {s : State} (h : Inv s) (cmd : Instr) : Inv (loadCommand cmd s) := by
  have hlen := expand_length_le s.par cmd
  cases he : expand s.par cmd with
  | nil => simp only [loadCommand, he]; exact inv_complete h _ _
  | cons op ops =>
    rw [he] at hlen
    simp only [loadCommand, he]
    exact inv_setSeq h ⟨he.symm, Nat.succ_pos _, hlen⟩

theorem inv_exec {i : Instr} {s t : State} (h : Inv s) (he : exec i s = .next t) : Inv t := by
  obtain ⟨-, ⟨a, rfl⟩ | ⟨a, d, rfl⟩ | rfl | ⟨d, x, rfl⟩⟩ := exec_next_cases he
  · exact inv_readCommand h a
  · exact inv_writeCommand h a d
  · exact inv_loadCommand h i
  · exact inv_complete h d x

theorem inv_portStep {s t : State} (h : Inv s) (hp : portStep s = .next t) : Inv t := by
  obtain rfl | ⟨-, w, -, rest, -, rfl⟩ | ⟨-, i, rest, -, he⟩ := portStep_cases hp
  · exact h
  · exact h
  · exact inv_exec (s := { s with stream := rest }) h he

/-! ### The sequencer -/

/-- A micro-operation of the running command's list keeps the invariant; that it is of the list is what keeps
IRQEN to the ports' own lines. -/
theorem inv_runOp {op : MicroOp} {s u : State} {cmd : Instr} (h : Inv s) (hop : op ∈ expand s.par cmd)
    (hr : runOp op s = .done u) : Inv u := by
  cases op with
  | clkSet p => injection hr with hr; subst hr; exact inv_gateSet h p
  | clkClr p => injection hr with hr; subst hr; exact inv_gateClear h p
  | waitRdy p => rw [runOp_waitRdy_done hr]; exact h
  | bset p b x o => rw [opWrite_done hr]; exact inv_regWrite h p x _
  | bclr p b x o => rw [opWrite_done hr]; exact inv_regWrite h p x _
  | nib p b o c => rw [opWrite_done hr]; exact inv_regWrite h p .pctl _
  | w1c p b o => rw [opWrite_done hr]; exact inv_regWrite h p .icr _
  | armSet p o => injection hr with hr; subst hr; exact h
  | armClr p => injection hr with hr; subst hr; exact h
  | irqEn n =>
    injection hr with hr
    subst hr
    obtain ⟨p, rfl⟩ := irqEn_mem_expand hop
    obtain ⟨hc, hl, hseq, hst, ⟨hen, hlines⟩, hsi⟩ := h
    exact ⟨hc, hl, hseq, hst, ⟨fun hirq => addLine_lt (hen hirq) (hirq p), hlines⟩, hsi⟩

theorem inv_advance {cmd : Instr} {ops : List MicroOp} {i : Nat} {s : State} (h : Inv s)
    (he : ops = expand s.par cmd) (hlen : ops.length ≤ 14) : Inv (advance cmd ops i s) := by
  unfold advance
  split
  next hi => exact inv_setSeq h ⟨he, hi, hlen⟩
  next => exact inv_complete h _ _

theorem inv_sequencerStep {s : State} (h : Inv s) : Inv (sequencerStep s) := by
  obtain e | ⟨c, a, e⟩ | ⟨d, x, e⟩ | ⟨cmd, ops, i, op, u, hs, ho, hr, e⟩ := sequencerStep_cases s
  · rwa [e]
  · rw [e]; exact inv_raiseFault h c a
  · rw [e]; exact inv_complete h d x
  · obtain ⟨-, -, hseq, -⟩ := id h
    rw [SeqInv, hs] at hseq
    obtain ⟨hops, -, hlen⟩ := hseq
    have hop : op ∈ expand s.par cmd := hops ▸ List.mem_of_getElem? ho
    rw [e]
    exact inv_advance (inv_runOp h hop hr) (by rw [(runOp_frame hr).par, hops]) hlen

/-! ### The core, the end of a step, reset -/

theorem acknowledge_cases (s : State) :
    acknowledge s = s ∨ ∃ n, s.seq = .idle ∧ arbiter s = some n ∧
      acknowledge s = emit (.ack n)
        { s with pend := removeLines s.pend (addLine 0 n), act := addLine s.act n, stack := n :: s.stack } := by
  unfold acknowledge
  split
  · exact .inl rfl
  · split
    · exact .inl rfl
    · exact .inr ⟨_, ‹_›, ‹_›, rfl⟩

theorem endOfInterrupt_cases (s : State) :
    endOfInterrupt s = s ∨ ∃ n rest, s.seq = .idle ∧ s.stack = n :: rest ∧
      endOfInterrupt s =
        emit (.eoi n) { s with act := removeLines s.act (addLine 0 n), stack := rest } := by
  unfold endOfInterrupt
  split
  · exact .inl rfl
  · split
    · exact .inl rfl
    · exact .inr ⟨_, _, ‹_›, ‹_›, rfl⟩

theorem inv_acknowledge {s : State} (h : Inv s) : Inv (acknowledge s) := by
  obtain e | ⟨n, -, harb, e⟩ := acknowledge_cases s
  · rwa [e]
  · rw [e]
    obtain ⟨hn, hd, -⟩ := arbiter_some harb
    obtain ⟨hc, hl, hseq, hst, ⟨hen, hpend, hact, hpri⟩, hsi⟩ := h
    exact ⟨hc, hl, hseq, stackInv_push hst (not_active_of_deliverable hn hd) rfl rfl,
      ⟨hen, removeLines_lt hpend _, addLine_lt hact hn, hpri⟩, hsi⟩

theorem inv_endOfInterrupt {s : State} (h : Inv s) : Inv (endOfInterrupt s) := by
  obtain e | ⟨n, rest, -, hs, e⟩ := endOfInterrupt_cases s
  · rwa [e]
  · rw [e]
    obtain ⟨hc, hl, hseq, hst, ⟨hen, hpend, hact, hpri⟩, hsi⟩ := h
    exact ⟨hc, hl, hseq, stackInv_pop hst hs rfl rfl, ⟨hen, hpend, removeLines_lt hact _, hpri⟩, hsi⟩

theorem inv_endOfStep {s : State} (h : Inv s) : Inv (endOfStep s) := by
  have hports : ∀ p, PortInv s.par.profile ((endOfStep s).port p) := by
    intro p
    obtain ⟨hlock, hsib⟩ := inv_portInv h p
    rw [endOfStep_port]
    exact ⟨hlock, hsib⟩
  obtain ⟨hl, hsi⟩ := (portInv_iff (endOfStep s)).mp hports
  obtain ⟨hc, -, hseq, hst, hli, -⟩ := h
  exact ⟨hc, hl, hseq, hst, lineInv_endOfStep hli, hsi⟩

theorem portInv_resetPort (prof : Profile) (p : Port) : PortInv prof (resetPort prof p) := by
  cases prof with
  | neutral => exact ⟨fun _ => rfl, nofun⟩
  | tm4c123 => exact ⟨nofun, fun _ => by cases p <;> decide⟩

theorem resetWith_port (par : Params) (p : Port) :
    (State.resetWith par).port p = resetPort par.profile p := PerPort.get_ofFn _ p

theorem resetWith_clock_off (par : Params) (p : Port) :
    (State.resetWith par).gateOn p = false ∧ (State.resetWith par).isReady p = false :=
  ⟨BitVec.getLsbD_zero, BitVec.getLsbD_zero⟩

/-- The invariant holds after reset, for every choice of the parameters (R56, R57). -/
theorem inv_resetWith (par : Params) : Inv (State.resetWith par) := by
  have hports : ∀ p, PortInv par.profile ((State.resetWith par).port p) := by
    intro p
    rw [resetWith_port]
    exact portInv_resetPort _ p
  obtain ⟨hl, hsi⟩ := (portInv_iff (State.resetWith par)).mp hports
  have hclock : ClockInv (State.resetWith par) := ⟨fun p h => by simp [resetWith_clock_off] at h, fun _ => rfl⟩
  have hstack : StackInv (State.resetWith par) := ⟨List.nodup_nil, fun n => Nat.zero_testBit n⟩
  have hlines : LineInv (State.resetWith par) := by
    refine ⟨fun _ => Nat.two_pow_pos _, Nat.two_pow_pos _, Nat.two_pow_pos _, List.length_replicate, ?_⟩
    intro v hv
    rw [List.eq_of_mem_replicate hv]
    exact Nat.two_pow_pos _
  exact ⟨hclock, hl, trivial, hstack, hlines, hsi⟩

theorem inv_resetBlock (s : State) : Inv (resetBlock s) := inv_resetWith s.par

theorem inv_beginStep {s : State} (h : Inv s) : Inv (beginStep s) := h

theorem inv_agentEffect {s : State} (h : Inv s) (t : Turn) : Inv (agentEffect t s) := by
  cases t with
  | sequencer => exact inv_sequencerStep h
  | clockReady p => exact inv_clockBecomesReady h p
  | ack => exact inv_acknowledge h
  | eoi => exact inv_endOfInterrupt h
  | port | environment | host | reset => exact h

/-! ### The obligations -/

/-- Settles O56: what a step does, by whose turn it is, keeps each part of the invariant. -/
theorem stepKeepsInv : Obligations.StepKeepsInv := by
  intro s t h hstep
  obtain ⟨-, rfl⟩ | ⟨-, u, hu, rfl⟩ | ⟨-, -, rfl⟩ := step_cases hstep
  · exact inv_resetBlock _
  · exact inv_endOfStep (inv_portStep (inv_beginStep h) hu)
  · exact inv_endOfStep (inv_agentEffect (inv_beginStep h) _)

/-- Settles O57: `State.reset` is the reset state of the default parameters. -/
theorem resetHasInv : Obligations.ResetHasInv :=
  ⟨inv_resetWith _, defaultParams_inRange _, defaultParams_sound _, inv_resetWith⟩

/-- Settles O58: the reset state and the default parameters, field by field and port by port. -/
theorem resetValues : Obligations.ResetValues := by
  refine ⟨fun par => ?block, ⟨rfl, fun prof => ?defaults⟩, fun par p hp => ?target, fun par p hp => ?neutral⟩
  case block =>
    exact ⟨fun p => ⟨PerPort.get_const _ p, PerPort.get_const _ p, resetWith_clock_off par p⟩, rfl, rfl, rfl,
      fun n hn => by simp [State.resetWith, hn], List.length_replicate, rfl, rfl, rfl, rfl⟩
  case defaults =>
    refine ⟨rfl, rfl, rfl, fun p => PerPort.get_const _ p, fun p => ?_, fun p => ?_, rfl, rfl⟩
    · cases prof <;> cases p <;> rfl
    · cases p <;> rfl
  case target =>
    rw [resetWith_port, hp]
    cases p <;> decide
  case neutral =>
    rw [resetWith_port, hp]
    cases p <;> decide

end Sys2Proof.Machine
end

section
/-! PROOF. The wait of a command for its port's clock (O38). -/

namespace Sys2Proof.Machine

/-- What steps of the sequencer that hold leave: all but RIS, the samples, the levels, the pending bits and the
step count. -/
structure Held (s t : State) : Prop where
  seq : t.seq = s.seq
  resp : t.resp = s.resp
  trace : t.trace = s.trace
  rcgc : t.rcgc = s.rcgc
  ready : t.ready = s.ready
  armt : t.armt = s.armt
  en : t.en = s.en
  frame : RunFrame s t
  ports : ∀ q, erase (t.port q) = erase (s.port q)

theorem Held.refl (s : State) : Held s s :=
  ⟨rfl, rfl, rfl, rfl, rfl, rfl, rfl, ⟨rfl, rfl, rfl, rfl, rfl, rfl⟩, fun _ => rfl⟩

/-- A step in which the agent does nothing of its own. -/
theorem Held.idleStep {s t : State} (h : Held s t) : Held s (endOfStep (beginStep t)) := by
  obtain ⟨hseq, hresp, htrace, hrcgc, hready, harmt, hen, ⟨hact, hpri, hstack, hpar, hstream, hxline⟩, hports⟩ := h
  refine ⟨hseq, hresp, htrace, hrcgc, hready, harmt, hen, ⟨hact, hpri, hstack, hpar, hstream, hxline⟩, ?_⟩
  intro q
  rw [erase_endOfStep]
  exact hports q

/-- Over any number of steps the sequencer stays at a WAITRDY whose port is not ready (R51, R181). -/
theorem seqRun_hold {s : State} {cmd : Instr} {ops : List MicroOp} {i : Nat} {p : Port}
    (hs : s.seq = .busy cmd ops i) (ho : ops[i]? = some (.waitRdy p)) (hr : s.isReady p = false) (k : Nat) :
    Held s (seqRun k s) := by
  induction k with
  | zero => exact Held.refl s
  | succ k ih =>
    have hseq : (beginStep (seqRun k s)).seq = .busy cmd ops i := ih.seq.trans hs
    have hready : (beginStep (seqRun k s)).isReady p = false := by
      rw [State.isReady, beginStep_ready, ih.ready]
      exact hr
    rw [seqRun_add k 1 s, seqRun, seqRun, sequencerStep_wait hseq ho hready]
    exact ih.idleStep

/-- A command that configures a pin begins with step 1, and more follows (R183, R184, R222). -/
theorem expand_of_configures {par : Params} {cmd : Instr} {p : Port} {o : Off} {trig : Trig} {bus : Bus}
    (h : Configures par cmd p o trig bus) :
    ∃ rest, rest ≠ [] ∧ expand par cmd = .clkSet p :: .waitRdy p :: rest := by
  obtain ⟨pin, rfl, rfl, ⟨dir, afen, afcode, pull, drive, sig, rfl⟩ | ⟨hv, rfl⟩⟩ := h
  · exact ⟨_, by simp [cfgTail], cfgOps_eq_tail ..⟩
  · have he : expand par (.arm pin trig bus) = _ := if_pos hv
    rw [armOps, cfgOps_eq_tail, List.cons_append, List.cons_append] at he
    exact ⟨_, by simp, he⟩

/-- The gate micro-operation of a DEFERRED build leaves the port clocked but not ready, at the next
micro-operation (R44, R184). -/
theorem seqRun_clkSet_deferred {s : State} {cmd : Instr} {p : Port} {rest : List MicroOp} (hrest : rest ≠ [])
    (hs : s.seq = .busy cmd (.clkSet p :: rest) 0) (hd : s.par.clockReady = .deferred)
    (hr : s.isReady p = false) :
    (seqRun 1 s).seq = .busy cmd (.clkSet p :: rest) 1 ∧ (seqRun 1 s).gateOn p = true ∧
      (seqRun 1 s).isReady p = false ∧ (seqRun 1 s).par = s.par ∧
      (seqRun 1 s).trace = s.trace ++ [.write s.par.map.rcgcAddr ((setBit s.rcgc p.index).setWidth 32)] := by
  have hlen : 0 + 1 < (MicroOp.clkSet p :: rest).length := Nat.succ_lt_succ (List.length_pos_iff.mpr hrest)
  have hstep : sequencerStep (beginStep s) = advance cmd (.clkSet p :: rest) 0 _ :=
    sequencerStep_done (s := beginStep s) hs rfl rfl
  rw [advance_more hlen] at hstep
  have hrun : seqRun 1 s = endOfStep _ := congrArg endOfStep hstep
  rw [hrun]
  refine ⟨rfl, ?gate, ?ready, rfl, rfl⟩
  case gate =>
    show (gateSet p (beginStep s)).gateOn p = true
    rw [gateSet_gateOn, decide_eq_true rfl, Bool.or_true]
  case ready =>
    show (gateSet p (beginStep s)).isReady p = false
    rw [gateSet_isReady, beginStep_par, hd]
    exact (Bool.or_false _).trans hr

/-- Once its gate is on, the clock-ready agent's step makes a port ready and leaves the sequencer at its wait
(R44, R304). -/
theorem underway_of_clockReady {t : State} {cmd : Instr} {p : Port} (hs : t.seq = .busy cmd (expand t.par cmd) 1)
    (hg : t.gateOn p = true) : Underway cmd p 1 (endOfStep (clockBecomesReady p (beginStep t))) := by
  rw [clockBecomesReady_beginStep, if_pos hg]
  refine ⟨hs, .inr ⟨rfl, hg, ?_⟩⟩
  show (setBit t.ready p.index).getLsbD p.index = true
  rw [setBit_port, decide_eq_true rfl, Bool.or_true]

/-- Settles O38: the hold by induction on the number of steps, and the wait a DEFERRED build's command comes to
as the gate micro-operation's step followed by such a hold. -/
theorem waitReadyHolds : Obligations.WaitReadyHolds := by
  refine ⟨fun s cmd ops i p hs ho => ⟨fun hr => ⟨sequencerStep_wait hs ho hr, fun k => ?hold⟩,
    sequencerStep_ready hs ho⟩, fun s cmd p o trig bus k hc hs hd hr => ?deferred⟩
  case hold =>
    obtain ⟨hseq, hresp, htrace, hrcgc, hready, harmt, hen, hframe, hports⟩ := seqRun_hold hs ho hr k
    exact ⟨hseq, hresp, htrace, hrcgc, hready, harmt, hen, hframe, fun q => (erase_eq_iff _ _).mp (hports q)⟩
  case deferred =>
    obtain ⟨rest, -, he⟩ := expand_of_configures hc
    rw [he] at hs
    obtain ⟨hseq, hgate, hready, hpar, htrace⟩ := seqRun_clkSet_deferred (List.cons_ne_nil _ _) hs hd hr
    have hheld := seqRun_hold hseq rfl hready k
    have hgate' : (seqRun k (seqRun 1 s)).gateOn p = true := by
      rw [State.gateOn, hheld.rcgc]
      exact hgate
    have hready' : (seqRun k (seqRun 1 s)).isReady p = false := by
      rw [State.isReady, hheld.ready]
      exact hready
    have hseq' : (seqRun k (seqRun 1 s)).seq = .busy cmd (expand s.par cmd) 1 := by
      rw [hheld.seq, hseq, he]
    have hpar' : (seqRun k (seqRun 1 s)).par = s.par := hheld.frame.par.trans hpar
    rw [Nat.add_comm k 1, seqRun_add 1 k s]
    refine ⟨hseq', hgate', hready', hheld.trace.trans htrace, underway_of_clockReady ?_ hgate'⟩
    rw [hpar', hseq']

end Sys2Proof.Machine
end

section
/-! PROOF. The writers of the control state (O59). What an agent's turn can do to it is said once, as
`ControlMove`; each clause of the statement is read off its cases. -/

namespace Sys2Proof.Machine

/-! ### The terms of the statement -/

/-- The sequencer has the turn and stands at the micro-operation `op`. -/
def SequencerRuns (s : State) (op : MicroOp) : Prop :=
  nextTurn s = .sequencer ∧ ∃ cmd ops i, s.seq = .busy cmd ops i ∧ ops[i]? = some op

/-- The command port has the turn and accepts the command `i`. -/
def Accepts (s : State) (i : Instr) : Prop :=
  nextTurn s = .port ∧ s.seq = .idle ∧ ∃ rest, decodeStream s.stream = .command i rest

/-- A WRA is accepted whose word of the window `kind` names line `n`. -/
def NamesLine (s : State) (kind : NvKind) (n : Nat) : Prop :=
  ∃ a d, Accepts s (.wra a d) ∧ decodeAddr s.par a = .nv kind (n / 32) ∧ d.getLsbD (n % 32) = true

/-- The core has the turn and takes line `n`. -/
def Acknowledges (s : State) (n : Nat) : Prop := nextTurn s = .ack ∧ s.seq = .idle ∧ arbiter s = some n

/-! ### What an agent's turn does to the control state -/

/-- What the micro-operation `op` does to the control state: ARMSET and ARMCLR write the arming table, IRQEN the
enable bits, and nothing else of it changes (R181). -/
structure OpControl (op : MicroOp) (s u : State) : Prop where
  par : u.par = s.par
  act : u.act = s.act
  pend : u.pend = s.pend
  pri : u.pri = s.pri
  armt : u.armt = s.armt ∨ (∃ p, op = .armClr p) ∨ ∃ p o, op = .armSet p o
  en : u.en = s.en ∨ ∃ n, op = .irqEn n

theorem runOp_control {op : MicroOp} {s u : State} (h : runOp op s = .done u) : OpControl op s u := by
  obtain ⟨-, hpend, hact, hpri, -, -, -, hpar, -, -, -, -, -, -⟩ := runOp_frame h
  refine ⟨hpar, hact, hpend, hpri, ?armt, ?en⟩
  case armt =>
    cases op with
    | armSet p o => exact .inr (.inr ⟨p, o, rfl⟩)
    | armClr p => exact .inr (.inl ⟨p, rfl⟩)
    | waitRdy p => rw [runOp_waitRdy_done h]; exact .inl rfl
    | bset | bclr | nib | w1c => rw [opWrite_done h]; exact .inl rfl
    | clkSet | clkClr | irqEn => injection h with h; subst h; exact .inl rfl
  case en =>
    cases op with
    | irqEn n => exact .inr ⟨n, rfl⟩
    | waitRdy p => rw [runOp_waitRdy_done h]; exact .inl rfl
    | bset | bclr | nib | w1c => rw [opWrite_done h]; exact .inl rfl
    | clkSet | clkClr | armSet | armClr => injection h with h; subst h; exact .inl rfl

/-- How the control state can change in a step that is no reset, before the end of the step. -/
inductive ControlMove (s u : State) : Prop
  | kept : ControlKept s u → LinesKept s u → ControlMove s u
  | accepted (i : Instr) : Accepts s i → ControlKept s u →
      (MapSound s.par → LinesKept s u ∨
        ∃ a d kind k, i = .wra a d ∧ decodeAddr s.par a = .nv kind k ∧ LinesKept (nvWrite kind k d s) u) →
      ControlMove s u
  | performed (op : MicroOp) : SequencerRuns s op → OpControl op s u → ControlMove s u
  | acknowledged (n : Nat) : Acknowledges s n →
      u = emit (.ack n) { beginStep s with
        pend := removeLines s.pend (addLine 0 n), act := addLine s.act n, stack := n :: s.stack } →
      ControlMove s u
  | ended (n : Nat) (rest : List Nat) : nextTurn s = .eoi → s.seq = .idle → s.stack = n :: rest →
      u = emit (.eoi n) { beginStep s with act := removeLines s.act (addLine 0 n), stack := rest } →
      ControlMove s u

/-- A word of the interrupt controller is written the same whatever the step's number and the stream are. -/
theorem linesKept_nvWrite_beginStep {s u : State} {kind : NvKind} {k : Nat} {d : Word} {rest : List Word}
    (h : LinesKept (nvWrite kind k d { beginStep s with stream := rest }) u) :
    LinesKept (nvWrite kind k d s) u := by
  obtain ⟨hen, hpend, hpri⟩ := h
  cases kind <;> exact ⟨hen, hpend, hpri⟩

theorem portStep_controlMove {s u : State} (hn : nextTurn s = .port) (h : portStep (beginStep s) = .next u) :
    ControlMove s u := by
  obtain rfl | ⟨-, w, -, rest, -, rfl⟩ | ⟨hq, i, rest, hd, he⟩ := portStep_cases h
  · exact .kept ⟨rfl, rfl, rfl, rfl⟩ ⟨rfl, rfl, rfl⟩
  · exact .kept ⟨rfl, rfl, rfl, rfl⟩ ⟨rfl, rfl, rfl⟩
  · obtain ⟨⟨hpar, harmt, hact, hstack⟩, hlines⟩ := exec_control he
    refine .accepted i ⟨hn, hq, rest, hd⟩ ⟨hpar, harmt, hact, hstack⟩ fun hm => ?_
    obtain ⟨hen, hpend, hpri⟩ | ⟨a, d, kind, k, hi, ha, hl⟩ := hlines hm
    · exact .inl ⟨hen, hpend, hpri⟩
    · exact .inr ⟨a, d, kind, k, hi, ha, linesKept_nvWrite_beginStep hl⟩

theorem sequencerStep_controlMove {s : State} (hn : nextTurn s = .sequencer) :
    ControlMove s (sequencerStep (beginStep s)) := by
  obtain e | ⟨c, a, e⟩ | ⟨d, x, e⟩ | ⟨cmd, ops, i, op, u, hs, ho, hr, e⟩ := sequencerStep_cases (beginStep s)
  · rw [e]; exact .kept ⟨rfl, rfl, rfl, rfl⟩ ⟨rfl, rfl, rfl⟩
  · rw [e]; exact .kept ⟨rfl, rfl, rfl, rfl⟩ ⟨rfl, rfl, rfl⟩
  · rw [e]; exact .kept ⟨rfl, rfl, rfl, rfl⟩ ⟨rfl, rfl, rfl⟩
  · obtain ⟨hpar, hact, hpend, hpri, harmt, hen⟩ := runOp_control hr
    rw [e, advance]
    refine .performed op ⟨hn, cmd, ops, i, hs, ho⟩ ?_
    split <;> exact ⟨hpar, hact, hpend, hpri, harmt, hen⟩

theorem agentEffect_controlMove {s : State} {t : Turn} (hn : nextTurn s = t) :
    ControlMove s (agentEffect t (beginStep s)) := by
  cases t with
  | sequencer => exact sequencerStep_controlMove hn
  | ack =>
    obtain e | ⟨n, hq, harb, e⟩ := acknowledge_cases (beginStep s)
    · rw [agentEffect, e]; exact .kept ⟨rfl, rfl, rfl, rfl⟩ ⟨rfl, rfl, rfl⟩
    · exact .acknowledged n ⟨hn, hq, harb⟩ e
  | eoi =>
    obtain e | ⟨n, rest, hq, hs, e⟩ := endOfInterrupt_cases (beginStep s)
    · rw [agentEffect, e]; exact .kept ⟨rfl, rfl, rfl, rfl⟩ ⟨rfl, rfl, rfl⟩
    · exact .ended n rest hn hq hs e
  | clockReady p =>
    rw [agentEffect, clockBecomesReady_beginStep]
    split <;> exact .kept ⟨rfl, rfl, rfl, rfl⟩ ⟨rfl, rfl, rfl⟩
  | port | environment | host | reset => exact .kept ⟨rfl, rfl, rfl, rfl⟩ ⟨rfl, rfl, rfl⟩

/-- A step that is no reset is a move of the control state and then the end of the step. -/
theorem step_controlMove {s t : State} (h : step s = .next t) (hr : nextTurn s ≠ .reset) :
    ∃ u, t = endOfStep u ∧ ControlMove s u := by
  obtain ⟨hn, -⟩ | ⟨hn, u, hu, rfl⟩ | ⟨-, -, rfl⟩ := step_cases h
  · exact absurd hn hr
  · exact ⟨u, rfl, portStep_controlMove hn hu⟩
  · exact ⟨_, rfl, agentEffect_controlMove rfl⟩

/-! ### The writers, field by field -/

theorem ControlMove.par_eq {s u : State} (h : ControlMove s u) : u.par = s.par := by
  cases h with
  | kept hc => exact hc.par
  | accepted i _ hc => exact hc.par
  | performed op _ hop => exact hop.par
  | acknowledged n _ e => subst e; rfl
  | ended n rest _ _ _ e => subst e; rfl

theorem ControlMove.armt_writer {s u : State} (h : ControlMove s u) (hne : u.armt ≠ s.armt) :
    ∃ p, SequencerRuns s (.armClr p) ∨ ∃ o, SequencerRuns s (.armSet p o) := by
  cases h with
  | kept hc => exact absurd hc.armt hne
  | accepted i _ hc => exact absurd hc.armt hne
  | performed op hrun hop =>
    obtain e | ⟨p, rfl⟩ | ⟨p, o, rfl⟩ := hop.armt
    · exact absurd e hne
    · exact ⟨p, .inl hrun⟩
    · exact ⟨p, .inr ⟨o, hrun⟩⟩
  | acknowledged n _ e => subst e; exact absurd rfl hne
  | ended n rest _ _ _ e => subst e; exact absurd rfl hne

/-- The active bits change only at an acknowledgement, which adds its line, and at an end of interrupt, which
removes its line. -/
theorem ControlMove.act_cases {s u : State} (h : ControlMove s u) :
    u.act = s.act ∨ (∃ n, Acknowledges s n ∧ u.act = addLine s.act n) ∨
      ∃ n, (nextTurn s = .eoi ∧ s.seq = .idle ∧ ∃ rest, s.stack = n :: rest) ∧
        u.act = removeLines s.act (addLine 0 n) := by
  cases h with
  | kept hc => exact .inl hc.act
  | accepted i _ hc => exact .inl hc.act
  | performed op _ hop => exact .inl hop.act
  | acknowledged n ha e => exact .inr (.inl ⟨n, ha, by rw [e]; rfl⟩)
  | ended n rest hn hq hs e => exact .inr (.inr ⟨n, ⟨hn, hq, rest, hs⟩, by rw [e]; rfl⟩)

theorem ControlMove.act_set_writer {s u : State} (h : ControlMove s u) {n : Nat}
    (h0 : s.act.testBit n = false) (h1 : u.act.testBit n = true) : Acknowledges s n := by
  obtain e | ⟨m, ha, e⟩ | ⟨m, -, e⟩ := h.act_cases
  · rw [e, h0] at h1; cases h1
  · rw [e, addLine_testBit, h0, Bool.false_or, decide_eq_true_eq] at h1
    exact h1 ▸ ha
  · rw [e, removeLines_testBit, h0] at h1; cases h1

theorem ControlMove.act_clear_writer {s u : State} (h : ControlMove s u) {n : Nat}
    (h1 : s.act.testBit n = true) (h0 : u.act.testBit n = false) :
    nextTurn s = .eoi ∧ s.seq = .idle ∧ ∃ rest, s.stack = n :: rest := by
  obtain e | ⟨m, -, e⟩ | ⟨m, heoi, e⟩ := h.act_cases
  · rw [e, h1] at h0; cases h0
  · rw [e, addLine_testBit, h1] at h0; cases h0
  · rw [e, removeLines_testBit, h1, addLine_zero_testBit] at h0
    have hm : n = m := by simpa using h0
    exact hm ▸ heoi

/-- Under a sound map the enable bits, pending bits and priorities change only by a WRA to a word of the
interrupt controller, by IRQEN, and by an acknowledgement. -/
theorem ControlMove.lines_cases {s u : State} (h : ControlMove s u) (hm : MapSound s.par) :
    LinesKept s u ∨
      (∃ a d kind k, Accepts s (.wra a d) ∧ decodeAddr s.par a = .nv kind k ∧
        LinesKept (nvWrite kind k d s) u) ∨
      ((∃ n, SequencerRuns s (.irqEn n)) ∧ u.pend = s.pend ∧ u.pri = s.pri) ∨
      ∃ n, Acknowledges s n ∧ u.en = s.en ∧ u.pri = s.pri ∧ u.pend = removeLines s.pend (addLine 0 n) := by
  cases h with
  | kept _ hl => exact .inl hl
  | accepted i hacc _ hl =>
    obtain hl | ⟨a, d, kind, k, rfl, ha, hl⟩ := hl hm
    · exact .inl hl
    · exact .inr (.inl ⟨a, d, kind, k, hacc, ha, hl⟩)
  | performed op hrun hop =>
    obtain e | ⟨n, rfl⟩ := hop.en
    · exact .inl ⟨e, hop.pend, hop.pri⟩
    · exact .inr (.inr (.inl ⟨⟨n, hrun⟩, hop.pend, hop.pri⟩))
  | acknowledged n ha e => exact .inr (.inr (.inr ⟨n, ha, by rw [e]; exact ⟨rfl, rfl, rfl⟩⟩))
  | ended n rest _ _ _ e => exact .inl (by rw [e]; exact ⟨rfl, rfl, rfl⟩)

theorem nvWrite_en_cases (kind : NvKind) (k : Nat) (d : Word) (s : State) :
    (nvWrite kind k d s).en = s.en ∨ kind = .setEna ∨ kind = .clrEna := by
  cases kind <;> simp [nvWrite]

theorem nvWrite_pri_cases (kind : NvKind) (k : Nat) (d : Word) (s : State) :
    (nvWrite kind k d s).pri = s.pri ∨ kind = .pri := by
  cases kind <;> simp [nvWrite]

/-- The pending bit of line `n` after a controller word is written (R270). -/
theorem nvWrite_pend_testBit (kind : NvKind) (k : Nat) (d : Word) (s : State) (n : Nat) :
    (nvWrite kind k d s).pend.testBit n =
      match kind with
      | .setPend => s.pend.testBit n || (lineMask s.par k d).testBit n
      | .clrPend => s.pend.testBit n && !(lineMask s.par k d).testBit n
      | .setEna | .clrEna | .active | .pri => s.pend.testBit n := by
  cases kind with
  | setPend => exact Nat.testBit_or ..
  | clrPend => exact removeLines_testBit ..
  | setEna | clrEna | active | pri => rfl

/-- A line a set or clear word touches is one the word names. -/
theorem of_lineMask_testBit {par : Params} {k : Nat} {d : Word} {n : Nat}
    (h : (lineMask par k d).testBit n = true) : k = n / 32 ∧ d.getLsbD (n % 32) = true := by
  rw [lineMask_bit, Bool.and_eq_true, Bool.and_eq_true, beq_iff_eq] at h
  exact ⟨h.2.1.symm, h.2.2⟩

theorem ControlMove.en_writer {s u : State} (h : ControlMove s u) (hm : MapSound s.par) (hne : u.en ≠ s.en) :
    (∃ n, SequencerRuns s (.irqEn n)) ∨ ∃ a d k, Accepts s (.wra a d) ∧
      (decodeAddr s.par a = .nv .setEna k ∨ decodeAddr s.par a = .nv .clrEna k) := by
  obtain hl | ⟨a, d, kind, k, hacc, ha, hl⟩ | ⟨hrun, -⟩ | ⟨n, -, hen, -⟩ := h.lines_cases hm
  · exact absurd hl.en hne
  · obtain e | rfl | rfl := nvWrite_en_cases kind k d s
    · exact absurd (hl.en.trans e) hne
    · exact .inr ⟨a, d, k, hacc, .inl ha⟩
    · exact .inr ⟨a, d, k, hacc, .inr ha⟩
  · exact .inl hrun
  · exact absurd hen hne

theorem ControlMove.pri_writer {s u : State} (h : ControlMove s u) (hm : MapSound s.par) (hne : u.pri ≠ s.pri) :
    ∃ a d k, Accepts s (.wra a d) ∧ decodeAddr s.par a = .nv .pri k := by
  obtain hl | ⟨a, d, kind, k, hacc, ha, hl⟩ | ⟨-, -, hpri⟩ | ⟨n, -, -, hpri, -⟩ := h.lines_cases hm
  · exact absurd hl.pri hne
  · obtain e | rfl := nvWrite_pri_cases kind k d s
    · exact absurd (hl.pri.trans e) hne
    · exact ⟨a, d, k, hacc, ha⟩
  · exact absurd hpri hne
  · exact absurd hpri hne

theorem ControlMove.pend_clear_writer {s u : State} (h : ControlMove s u) (hm : MapSound s.par) {n : Nat}
    (h1 : s.pend.testBit n = true) (h0 : u.pend.testBit n = false) :
    Acknowledges s n ∨ NamesLine s .clrPend n := by
  obtain hl | ⟨a, d, kind, k, hacc, ha, hl⟩ | ⟨-, hpend, -⟩ | ⟨m, hack, -, -, hpend⟩ := h.lines_cases hm
  · rw [hl.pend, h1] at h0; cases h0
  · rw [hl.pend, nvWrite_pend_testBit, h1] at h0
    cases kind with
    | clrPend =>
      obtain ⟨rfl, hd⟩ := of_lineMask_testBit (by simpa using h0)
      exact .inr ⟨a, d, hacc, ha, hd⟩
    | setEna | clrEna | setPend | active | pri => cases h0
  · rw [hpend, h1] at h0; cases h0
  · rw [hpend, removeLines_testBit, h1, addLine_zero_testBit] at h0
    have hnm : n = m := by simpa using h0
    exact .inl (hnm ▸ hack)

theorem ControlMove.pend_set_writer {s u : State} (h : ControlMove s u) (hm : MapSound s.par) {n : Nat}
    (h0 : s.pend.testBit n = false) (h1 : u.pend.testBit n = true) : NamesLine s .setPend n := by
  obtain hl | ⟨a, d, kind, k, hacc, ha, hl⟩ | ⟨-, hpend, -⟩ | ⟨m, -, -, -, hpend⟩ := h.lines_cases hm
  · rw [hl.pend, h0] at h1; cases h1
  · rw [hl.pend, nvWrite_pend_testBit, h0] at h1
    cases kind with
    | setPend =>
      obtain ⟨rfl, hd⟩ := of_lineMask_testBit (by simpa using h1)
      exact ⟨a, d, hacc, ha, hd⟩
    | setEna | clrEna | clrPend | active | pri => cases h1
  · rw [hpend, h0] at h1; cases h1
  · rw [hpend, removeLines_testBit, h0] at h1; cases h1

/-- The pending bit of a line after the end of a step (R307). -/
theorem endOfStep_pend_testBit (s : State) (n : Nat) :
    (endOfStep s).pend.testBit n =
      (s.pend.testBit n || ((lineLevels (endOfStep s)).testBit n && !s.act.testBit n)) := by
  rw [endOfStep_pend, Nat.testBit_or, removeLines_testBit]

theorem step_par {s t : State} (h : step s = .next t) : t.par = s.par := by
  by_cases hr : nextTurn s = .reset
  · rw [step_eq_resetBlock hr] at h
    injection h with h
    subst h
    rfl
  · obtain ⟨u, rfl, hmove⟩ := step_controlMove h hr
    exact hmove.par_eq

/-- Settles O59: the step is a `ControlMove` and the end of the step, which adds to the pending bits only the
lines asserted and not active. -/
theorem writersOfControlState : Obligations.WritersOfControlState := by
  intro s t h
  refine ⟨step_par h, fun hr => ?_⟩
  obtain ⟨u, rfl, hmove⟩ := step_controlMove h hr
  refine ⟨hmove.armt_writer, fun n => hmove.act_set_writer, fun n => hmove.act_clear_writer,
    fun hm => ⟨hmove.en_writer hm, hmove.pri_writer hm, fun n h1 h0 => ?clear, fun n h0 h1 => ?set⟩⟩
  case clear =>
    rw [endOfStep_pend_testBit, Bool.or_eq_false_iff] at h0
    exact hmove.pend_clear_writer hm h1 h0.1
  case set =>
    rw [endOfStep_pend_testBit, Bool.or_eq_true, Bool.and_eq_true, Bool.not_eq_true'] at h1
    obtain h1 | h1 := h1
    · exact .inr (hmove.pend_set_writer hm h0 h1)
    · exact .inl h1

end Sys2Proof.Machine
end

section
/-! PROOF. What an address of the register bus names, and what an access to an address without a meaning does
(O19, O20, O22). -/

namespace Sys2Proof.Machine

/-! ### Addresses in no window (R91) -/

theorem nvWindow_none (par : Params) (a : Word) (h : ¬InNvWindow par a.toNat) : nvWindow par a = none := by
  rw [nvWindow, List.find?_eq_none]
  intro kind _ hw
  exact h ⟨kind, (inWindow_iff _ _ _).mp hw⟩

/-- `Decode` of an aligned address outside every window, for any choice of the addresses (R87, R91). -/
theorem decodeAddr_unmapped {par : Params} {a : Word} (hal : a.extractLsb' 0 2 = 0)
    (hp : ¬InPortWindow par.map a.toNat) (hr : a ≠ par.map.rcgcAddr) (hq : a ≠ par.map.prAddr)
    (hn : ¬InNvWindow par a.toNat) : decodeAddr par a = .fault .unmapped := by
  rw [decodeAddr, if_neg (by rw [hal]; decide), portWindow_none _ _ hp]
  simp only [beq_eq_false_iff_ne.mpr hr, beq_eq_false_iff_ne.mpr hq, Bool.false_eq_true, if_false,
    nvWindow_none par a hn]

/-! ### Commands at a faulting address (R82, R301) -/

/-- From the idle sequencer, a read and a write at an address that decodes to a fault both do no more than
raise it. -/
theorem exec_access_fault {s : State} (h : s.seq = .idle) {a : Word} {c : Status}
    (ha : decodeAddr s.par a = .fault c) (d : Word) :
    exec (.rda a) s = .next { s with resp := ⟨c, a, 0, 0⟩, trace := s.trace ++ [.fault c a] } ∧
      exec (.wra a d) s = .next { s with resp := ⟨c, a, 0, 0⟩, trace := s.trace ++ [.fault c a] } :=
  ⟨exec_rda_error h (by rw [ha]; rfl), exec_wra_error h (by rw [ha]; rfl)⟩

/-! ### The obligations -/

/-- Settles O19: the default tables by evaluation; under a sound map a port window by its offset, and the other
windows by the model's `decodeAddr` laws. -/
theorem decodeWindows : Obligations.DecodeWindows := by
  refine ⟨fun prof => ?defaults, fun par hm => ⟨fun p b off hal => ?window, decodeAddr_rcgc hm, decodeAddr_pr hm,
    fun k hk => ?lines, fun j hj => ?priorities⟩⟩
  case defaults =>
    cases prof <;> decide
  case window =>
    simp only [decodeAddr_aperture hm p b off hal]
    refine ⟨portTarget_data par.map p b off, ?_, portTarget_unmapped par.map p b off⟩
    rintro x rfl
    exact portTarget_reg hm p b x
  case lines =>
    have hlen : 4 * k < 4 * (par.nIrq / 32) := by omega
    exact ⟨decodeAddr_nv hm .setEna k hlen, decodeAddr_nv hm .clrEna k hlen, decodeAddr_nv hm .setPend k hlen,
      decodeAddr_nv hm .clrPend k hlen, decodeAddr_nv hm .active k hlen⟩
  case priorities =>
    have hlen : 4 * j < par.nIrq := by omega
    exact decodeAddr_nv hm .pri j hlen

/-- Settles O20: such an address lies in no window `Decode` tries. -/
theorem unmappedElsewhere : Obligations.UnmappedElsewhere := by
  intro par a hal nvic hp hr hq hse hce hsp hcp hac hpr
  refine decodeAddr_unmapped hal (fun ⟨p, b, hw⟩ => hp p b hw) hr hq ?_
  rintro ⟨kind, hw⟩
  cases kind with
  | setEna => exact hse hw
  | clrEna => exact hce hw
  | setPend => exact hsp hw
  | clrPend => exact hcp hw
  | active => exact hac hw
  | pri => exact hpr hw

/-- Settles O22: all three kinds of address decode to a fault, and the port-relative commands are the absolute
ones at base plus offset. -/
theorem faultingAddresses : Obligations.FaultingAddresses := by
  refine fun s h => ⟨fun a d c ha => exec_access_fault h ha d,
    fun a d hal => exec_access_fault h (decodeAddr_misaligned hal) d, fun hm q off bus d hal => ?portRelative⟩
  rw [exec_rdr, exec_wrr]
  exact exec_access_fault h (decodeAddr_aperture_misaligned hm _ bus off hal) d

end Sys2Proof.Machine
end

section
/-! PROOF. What a read leaves unchanged, that a write can be repeated, and that a port's two apertures reach the
same registers (O23, O34, O35). -/

namespace Sys2Proof.Machine

/-! ### Reads (R93) -/

/-- From the idle sequencer a read command writes RESP and the trace alone, whether or not it faults. -/
theorem readCommand_idle {s : State} (h : s.seq = .idle) (a : Word) :
    ∃ r l, readCommand a s = { s with resp := r, trace := l } := by
  unfold readCommand
  split
  next v _ => exact ⟨_, _, complete_idle (s := emit (.read a v) s) h v 0⟩
  next c _ => exact ⟨_, _, raiseFault_idle h c a⟩

theorem exec_rda_frame {s t : State} {a : Word} (h : exec (.rda a) s = .next t) :
    t = { s with resp := t.resp, trace := t.trace } := by
  rw [exec_rda] at h
  obtain ⟨hs, rfl⟩ := accept_next h
  obtain ⟨r, l, e⟩ := readCommand_idle hs a
  rw [e]

/-! ### A register written twice (R94) -/

theorem merge_merge (mask old v : Byte) : merge mask (merge mask old v) v = merge mask old v := by
  refine byte_ext fun o => ?_
  simp only [merge_bit]
  split <;> rfl

theorem andNot_andNot (a v : Byte) : a &&& ~~~v &&& ~~~v = a &&& ~~~v := by
  rw [BitVec.and_assoc, BitVec.and_self]

/-- A sense bit that does not change draws no status (R265). -/
theorem spurious_self (v noise ris : Byte) : spurious (v ^^^ v) noise ris = ris := by
  rw [spurious, BitVec.xor_self, BitVec.zero_and, BitVec.or_zero]

/-- A write to CR leaves the lock that gates it, so the second meets the lock the first met (R40, R262). -/
theorem writeReg_cr_twice (prof : Profile) (n m : Byte) (v : Word) (r : PortRegs) :
    writeReg prof m .cr v (writeReg prof n .cr v r) = writeReg prof n .cr v r := by
  cases prof <;> cases h : r.locked <;> simp [writeReg, h]

/-- Writing a register twice leaves what writing it once leaves, whatever the second write draws (R94, R265). -/
theorem writeReg_twice (prof : Profile) (n m : Byte) (x : Reg) (v : Word) (r : PortRegs) :
    writeReg prof m x v (writeReg prof n x v r) = writeReg prof n x v r := by
  cases x with
  | is | ibe | iev => simp only [writeReg, spurious_self]
  | afsel | den | pur | pdr =>
    cases prof <;> simp only [writeReg, commitMask, merge_merge, andNot_andNot]
  | dr2r | dr4r | dr8r | icr => simp only [writeReg, andNot_andNot]
  | cr => exact writeReg_cr_twice prof n m v r
  | lock => cases prof <;> rfl
  | _ => rfl

/-! ### A bus write repeated on the state it left (R94)

Each write is said to change nothing in a state that already holds what it writes. -/

theorem setPort_port (s : State) (p : Port) : s.setPort p (s.port p) = s := by
  rw [State.setPort, State.port, PerPort.set_get]

theorem port_setPort (s : State) (p : Port) (r : PortRegs) : (s.setPort p r).port p = r :=
  PerPort.get_set_self s.regs p r

theorem dataWrite_eq_self {p : Port} {m : Byte} {d : Word} {s : State}
    (h : merge m (s.port p).data (d.setWidth 8) = (s.port p).data) : dataWrite p m d s = s := by
  have e : dataWrite p m d s =
      s.setPort p { s.port p with data := merge m (s.port p).data (d.setWidth 8) } := rfl
  rw [e, h]
  exact setPort_port s p

theorem regWrite_eq_self {p : Port} {x : Reg} {d : Word} {s : State}
    (h : writeReg s.par.profile (s.draw .spurious) x d (s.port p) = s.port p) : regWrite p x d s = s := by
  rw [regWrite, h, setPort_port]

theorem dataWrite_twice (p : Port) (m : Byte) (d : Word) (s : State) (k : Nat) :
    dataWrite p m d { dataWrite p m d s with tick := k } = { dataWrite p m d s with tick := k } := by
  refine dataWrite_eq_self ?_
  show merge m ((dataWrite p m d s).port p).data (d.setWidth 8) = ((dataWrite p m d s).port p).data
  rw [dataWrite, port_setPort]
  exact merge_merge m _ _

theorem regWrite_twice (p : Port) (x : Reg) (d : Word) (s : State) (k : Nat) :
    regWrite p x d { regWrite p x d s with tick := k } = { regWrite p x d s with tick := k } := by
  refine regWrite_eq_self ?_
  show writeReg s.par.profile (Config.freeByte k .spurious) x d ((regWrite p x d s).port p) =
    (regWrite p x d s).port p
  rw [regWrite, port_setPort, writeReg_twice]

/-- A clock gate word that keeps the gates leaves each gated port's ready bit (R268). -/
theorem rcgcWrite_eq_self {d : Word} {s : State} (hg : s.rcgc = d.setWidth 6)
    (hr : s.ready &&& d.setWidth 6 = s.ready) : rcgcWrite d s = s := by
  have hnew : (d.setWidth 6 : BitVec 6) &&& ~~~d.setWidth 6 = 0 := BitVec.and_not_self _
  have hready : (s.ready &&& d.setWidth 6) |||
      (if s.par.clockReady = .immediate then d.setWidth 6 &&& ~~~s.rcgc else 0) = s.ready := by
    rw [hg, hnew, ite_self, hr]
    exact BitVec.or_zero
  rw [rcgcWrite, hready, ← hg]

theorem rcgcWrite_ready_and (d : Word) (s : State) :
    (rcgcWrite d s).ready &&& d.setWidth 6 = (rcgcWrite d s).ready := by
  refine six_ext fun p => ?_
  have hg : (d.setWidth 6 : BitVec 6).getLsbD p.index = d.getLsbD p.index := (rcgcWrite_bits d s p).1
  rw [BitVec.getLsbD_and, hg, isReady_of_ready, (rcgcWrite_bits d s p).2]
  cases d.getLsbD p.index <;> simp

theorem rcgcWrite_twice (d : Word) (s : State) (k : Nat) :
    rcgcWrite d { rcgcWrite d s with tick := k } = { rcgcWrite d s with tick := k } :=
  rcgcWrite_eq_self rfl (rcgcWrite_ready_and d s)

theorem removeLines_removeLines (v m : LineBits) : removeLines (removeLines v m) m = removeLines v m := by
  refine Nat.eq_of_testBit_eq fun i => ?_
  simp only [removeLines_testBit, Bool.and_assoc, Bool.and_self]

theorem or_or_self (v m : LineBits) : v ||| m ||| m = v ||| m := by
  rw [Nat.or_assoc, Nat.or_self]

/-- Writing a priority word into priorities that already hold it (R271). -/
theorem priWrite_eq_self {k : Nat} {d : Word} {s t : State} (hpar : t.par = s.par)
    (hpri : t.pri = priWrite k d s) : priWrite k d t = t.pri := by
  have hkept : ∀ n ∈ List.range s.par.nIrq, ¬n / 4 = k → t.priAt n = s.priAt n := fun n hn hne => by
    rw [State.priAt, hpri, priWrite_get k d s (List.mem_range.mp hn), if_neg hne]
  rw [hpri]
  simp only [priWrite, hpar]
  refine List.map_congr_left fun n hn => ?_
  split
  · rfl
  · exact hkept n hn ‹_›

theorem nvWrite_twice (kind : NvKind) (j : Nat) (d : Word) (s : State) (k : Nat) :
    nvWrite kind j d { nvWrite kind j d s with tick := k } = { nvWrite kind j d s with tick := k } := by
  cases kind with
  | setEna | setPend => simp only [nvWrite, or_or_self]
  | clrEna | clrPend => simp only [nvWrite, removeLines_removeLines]
  | active => rfl
  | pri =>
    have hpri := priWrite_eq_self (k := j) (d := d) (s := s)
      (t := { nvWrite .pri j d s with tick := k }) rfl rfl
    exact congrArg (fun v => { nvWrite .pri j d s with tick := k, pri := v }) hpri

/-! ### The access check of a bus write (R255) -/

theorem busWrite_data_ok {p : Port} {b : Bus} {m : Byte} {d : Word} {s u : State}
    (h : busWrite (.data p b m) d s = .ok u) : Accessible p b s ∧ u = dataWrite p m d s := by
  simp only [busWrite] at h
  split at h
  · cases h
  · injection h with h
    exact ⟨(accessFault_none p b s).mp ‹_›, h.symm⟩

theorem busWrite_reg_ok {p : Port} {b : Bus} {x : Reg} {d : Word} {s u : State}
    (h : busWrite (.reg p b x) d s = .ok u) : Accessible p b s ∧ u = regWrite p x d s := by
  simp only [busWrite] at h
  split at h
  · cases h
  · injection h with h
    exact ⟨(accessFault_none p b s).mp ‹_›, h.symm⟩

/-! ### The two apertures (R83, R85) -/

/-- An enabled AHB aperture meets the faults the APB aperture meets. -/
theorem accessFault_ahb {p : Port} {s : State} (h : s.par.ahbEnabled.get p = true) :
    accessFault p .ahb s = accessFault p .apb s := by
  simp [accessFault, h]

/-- At one offset of a port's two windows the bus answers alike. -/
theorem bus_portTarget_ahb {p : Port} {s : State} (h : s.par.ahbEnabled.get p = true) (m : AddressMap)
    (off : Nat) (d : Word) :
    busRead (portTarget m p .ahb off) s = busRead (portTarget m p .apb off) s ∧
      busWrite (portTarget m p .ahb off) d s = busWrite (portTarget m p .apb off) d s := by
  unfold portTarget
  split
  · simp only [busRead, busWrite, accessFault_ahb h, and_self]
  · split
    · simp only [busRead, busWrite, accessFault_ahb h, and_self]
    · exact ⟨rfl, rfl⟩

/-! ### The obligations -/

/-- Settles O23: a read is accepted from the idle sequencer only, and a port-relative read is an absolute one. -/
theorem readsChangeNothing : Obligations.ReadsChangeNothing := by
  refine fun s t => ⟨fun a h => exec_rda_frame h, fun q off bus h => ?_⟩
  rw [exec_rdr] at h
  exact exec_rda_frame h

/-- Settles O34: by the target, the second write meets a state that already holds what it writes; the free
values are drawn for changed sense bits only, and none changes. -/
theorem writesAreIdempotent : Obligations.WritesAreIdempotent := by
  intro t d s s' k h
  cases t with
  | fault c => cases h
  | data p b m =>
    obtain ⟨hacc, rfl⟩ := busWrite_data_ok h
    exact (busWrite_data (s := { dataWrite p m d s with tick := k }) hacc m d).trans
      (congrArg Except.ok (dataWrite_twice p m d s k))
  | reg p b x =>
    obtain ⟨hacc, rfl⟩ := busWrite_reg_ok h
    exact (busWrite_reg (s := { regWrite p x d s with tick := k }) hacc x d).trans
      (congrArg Except.ok (regWrite_twice p x d s k))
  | sysRcgc =>
    injection h with h
    subst h
    exact congrArg Except.ok (rcgcWrite_twice d s k)
  | sysReady => rfl
  | nv kind j =>
    injection h with h
    subst h
    exact congrArg Except.ok (nvWrite_twice kind j d s k)

/-- Settles O35: the two addresses name the same target but for the aperture, which the access check alone
looks at. -/
theorem aperturesShareState : Obligations.AperturesShareState := by
  intro s p off d hm he hal at_
  simp only [at_, decodeAddr_aperture hm p _ off hal]
  exact bus_portTarget_ahb he s.par.map off.toNat d

end Sys2Proof.Machine
end

section
/-! PROOF. The command port's waiting turn, and the other agents' turns while a command is in progress (O7,
O60). -/

namespace Sys2Proof.Machine

/-- A command one of whose words has not arrived is not read (R140). -/
theorem decodeStream_short {w : Word} {operands : List Word} (h : operands.length < commandLength w - 1) :
    decodeStream (w :: operands) = .waiting := if_pos h

/-- What no agent but the sequencer and reset changes while a command is in progress (R104): a step's own part
leaves these fields as they are. -/
structure CommandKept (s u : State) : Prop where
  seq : u.seq = s.seq
  resp : u.resp = s.resp
  rcgc : u.rcgc = s.rcgc
  trace : u.trace = s.trace
  regs : u.regs = s.regs

/-- While the sequencer is busy the core takes no line (R320). -/
theorem acknowledge_busy {s : State} (h : s.seq ≠ .idle) : acknowledge s = s := by
  obtain e | ⟨-, hs, -⟩ := acknowledge_cases s
  · exact e
  · exact absurd hs h

/-- While the sequencer is busy the core ends no interrupt (R321). -/
theorem endOfInterrupt_busy {s : State} (h : s.seq ≠ .idle) : endOfInterrupt s = s := by
  obtain e | ⟨-, -, hs, -⟩ := endOfInterrupt_cases s
  · exact e
  · exact absurd hs h

theorem agentEffect_commandKept {s : State} {t : Turn} (h : s.seq ≠ .idle) (ht : t ≠ .sequencer) :
    CommandKept s (agentEffect t s) := by
  cases t with
  | sequencer => exact absurd rfl ht
  | ack => rw [agentEffect, acknowledge_busy h]; exact ⟨rfl, rfl, rfl, rfl, rfl⟩
  | eoi => rw [agentEffect, endOfInterrupt_busy h]; exact ⟨rfl, rfl, rfl, rfl, rfl⟩
  | clockReady p =>
    rw [agentEffect, clockBecomesReady]
    split <;> exact ⟨rfl, rfl, rfl, rfl, rfl⟩
  | port | environment | host | reset => exact ⟨rfl, rfl, rfl, rfl, rfl⟩

/-- A step of an agent but the sequencer and reset, while a command is in progress: the agent's own part, which
keeps the command, and the end of the step. -/
theorem step_commandKept {s t : State} (h : s.seq ≠ .idle) (hq : nextTurn s ≠ .sequencer)
    (hr : nextTurn s ≠ .reset) (hstep : step s = .next t) :
    ∃ u, t = endOfStep u ∧ CommandKept (beginStep s) u := by
  obtain ⟨hn, -⟩ | ⟨-, u, hu, rfl⟩ | ⟨-, -, rfl⟩ := step_cases hstep
  · exact absurd hn hr
  · rw [portStep_busy (s := beginStep s) h] at hu
    injection hu with hu
    subst hu
    exact ⟨_, rfl, rfl, rfl, rfl, rfl, rfl⟩
  · exact ⟨_, rfl, agentEffect_commandKept h hq⟩

/-! ### The obligations -/

/-- Settles O60: the agent's own part keeps the command, and the end of the step changes no register but RIS. -/
theorem busyCommandUndisturbed : Obligations.BusyCommandUndisturbed := by
  intro s t h hq hr hstep
  obtain ⟨u, rfl, hseq, hresp, hrcgc, htrace, hregs⟩ := step_commandKept h hq hr hstep
  refine ⟨hseq, hresp, hrcgc, htrace, fun p => ?_⟩
  have hport : u.port p = s.port p := congrArg (·.get p) hregs
  rw [endOfStep_port, hport]

/-- Settles O7: in each of the three cases the command port's own part changes nothing. -/
theorem commandPortWaits : Obligations.CommandPortWaits := by
  intro s hn hwait
  have hport : portStep (beginStep s) = .next (beginStep s) := by
    obtain ⟨cmd, ops, i, hb⟩ | ⟨hi, he | ⟨w, operands, he, hl⟩⟩ := hwait
    · exact portStep_busy (by rw [beginStep_seq, hb]; nofun)
    · exact portStep_waiting hi (by rw [beginStep_stream, he]; rfl)
    · exact portStep_waiting hi (by rw [beginStep_stream, he]; exact decodeStream_short hl)
  rw [step_eq hn, runTurn, hport, finish]

end Sys2Proof.Machine
end

section
/-! PROOF. What the decoder reads, opcode by opcode; that it inverts the encoder; and that it accepts the legal
words (O1 to O4). -/

namespace Sys2Proof.Machine

/-! ### What the decoder reads (R121, R133) -/

/-- Word 0 `w` with operand words `w1` and `w2` is a command of the opcode table, which is `i`: the opcode, and
what the decoder of its format gives. -/
inductive ReadAs (w w1 w2 : Word) : Instr → Prop
  | nop (op : field w 28 4 = 0) (zero : field w 0 28 = 0) : ReadAs w w1 w2 .nop
  | cfg {i : Instr} (op : field w 28 4 = 1) (format : decodeCfg w = .ok i) : ReadAs w w1 w2 i
  | arm {i : Instr} (op : field w 28 4 = 2) (format : decodeArm w = .ok i) : ReadAs w w1 w2 i
  | deinit {q : BitVec 3} (op : field w 28 4 = 3) (format : decodePort w = .ok q) : ReadAs w w1 w2 (.deinit q)
  | resolve {i : Instr} (op : field w 28 4 = 4) (format : decodeResolve w = .ok i) : ReadAs w w1 w2 i
  | clken {q : BitVec 3} (op : field w 28 4 = 5) (format : decodePort w = .ok q) : ReadAs w w1 w2 (.clken q)
  | clkdis {q : BitVec 3} (op : field w 28 4 = 6) (format : decodePort w = .ok q) : ReadAs w w1 w2 (.clkdis q)
  | rdarm {q : BitVec 3} (op : field w 28 4 = 7) (format : decodePort w = .ok q) : ReadAs w w1 w2 (.rdarm q)
  | rdr {q : BitVec 3} {off : BitVec 12} {bus : Bus} (op : field w 28 4 = 8)
      (format : decodeAccess w = .ok (q, off, bus)) : ReadAs w w1 w2 (.rdr q off bus)
  | wrr {q : BitVec 3} {off : BitVec 12} {bus : Bus} (op : field w 28 4 = 9)
      (format : decodeAccess w = .ok (q, off, bus)) : ReadAs w w1 w2 (.wrr q off bus w1)
  | rda (op : field w 28 4 = 10) (zero : field w 0 28 = 0) : ReadAs w w1 w2 (.rda w1)
  | wra (op : field w 28 4 = 11) (zero : field w 0 28 = 0) : ReadAs w w1 w2 (.wra w1 w2)

theorem checked_zeroField_ok {w : Word} {lo len : Nat} {why : Reject} {i j : Instr} :
    checked (zeroField w lo len) why (.ok i) = .ok j ↔ field w lo len = 0 ∧ i = j := by
  rw [checked_ok, zeroField_iff, Except.ok.injEq]

theorem readAs_of_decodeCommand {w w1 w2 : Word} {i : Instr} (h : decodeCommand w w1 w2 = .ok i) :
    ReadAs w w1 w2 i := by
  unfold decodeCommand at h
  split at h
  next op => obtain ⟨zero, rfl⟩ := checked_zeroField_ok.mp h; exact .nop op zero
  next op => exact .cfg op h
  next op => exact .arm op h
  next op => obtain ⟨q, format, rfl⟩ := (map_ok _ _ _).mp h; exact .deinit op format
  next op => exact .resolve op h
  next op => obtain ⟨q, format, rfl⟩ := (map_ok _ _ _).mp h; exact .clken op format
  next op => obtain ⟨q, format, rfl⟩ := (map_ok _ _ _).mp h; exact .clkdis op format
  next op => obtain ⟨q, format, rfl⟩ := (map_ok _ _ _).mp h; exact .rdarm op format
  next op => obtain ⟨f, format, rfl⟩ := (map_ok _ _ _).mp h; exact .rdr op format
  next op => obtain ⟨f, format, rfl⟩ := (map_ok _ _ _).mp h; exact .wrr op format
  next op => obtain ⟨zero, rfl⟩ := checked_zeroField_ok.mp h; exact .rda op zero
  next op => obtain ⟨zero, rfl⟩ := checked_zeroField_ok.mp h; exact .wra op zero
  next => cases h

theorem ReadAs.decodeCommand_eq {w w1 w2 : Word} {i : Instr} (h : ReadAs w w1 w2 i) :
    decodeCommand w w1 w2 = .ok i := by
  cases h with
  | nop op zero | rda op zero | wra op zero =>
    simp only [decodeCommand, opcode, op]
    exact checked_zeroField_ok.mpr ⟨zero, rfl⟩
  | cfg op format | arm op format | resolve op format =>
    simp only [decodeCommand, opcode, op]
    exact format
  | deinit op format | clken op format | clkdis op format | rdarm op format | rdr op format | wrr op format =>
    simp only [decodeCommand, opcode, op, format]
    rfl

/-! ### Well-formed commands (R126, R137) -/

theorem wellFormed_cfg {pin dir afen afcode pull drive sig trig bus} :
    (Instr.cfg pin dir afen afcode pull drive sig trig bus).WellFormed ↔ afen = true ∨ afcode = 0 := by
  rw [Instr.WellFormed, Instr.wf, Bool.or_eq_true, beq_iff_eq]

theorem wellFormed_resolve {sel bus kind} :
    (Instr.resolve sel bus kind).WellFormed ↔ kind = .pin ∨ sel.extractLsb' 3 4 = 0 := by
  rw [Instr.WellFormed, Instr.wf, Bool.or_eq_true, beq_iff_eq, beq_iff_eq]

/-- The upper bits of a selector, which a port selector leaves zero (R126). -/
theorem pinField_upper (w : Word) : (pinField w).extractLsb' 3 4 = w.extractLsb' 24 4 := by
  ext k hk
  rw [pinField, BitVec.getElem_extractLsb', BitVec.getElem_extractLsb', BitVec.getLsbD_extractLsb',
    decide_eq_true (by omega), Bool.true_and, ← Nat.add_assoc]

/-! ### Each format of word 0, read back from its encoding (R123 to R127) -/

theorem decodeCfg_cfgWord {pin dir afen afcode pull drive sig trig bus} (h : afen = true ∨ afcode = 0) :
    decodeCfg (cfgWord pin dir afen afcode pull drive sig trig bus) =
      .ok (.cfg pin dir afen afcode pull drive sig trig bus) := by
  obtain ⟨-, zero, hpin, hdir, hafen, hafcode, hpull, hdrive, hsig, htrig, hbus⟩ :=
    cfgWord_fields pin dir afen afcode pull drive sig trig bus
  have hflag : (!zeroField (cfgWord pin dir afen afcode pull drive sig trig bus) 19 1) = afen := by
    rw [zeroField, hafen]
    cases afen <;> rfl
  refine (decodeCfg_ok _ _).mpr ⟨zero, ?_, drive, trig, driveField_of _ _ hdrive, trigField_of _ _ htrig, ?_⟩
  · rw [hafen, hafcode]
    exact h.imp (by rintro rfl; decide) (by rintro rfl; rfl)
  · rw [pinField, extract_eq _ _ _ _ hpin, dirField_of _ _ hdir, hflag, extract_eq _ _ _ _ hafcode,
      pullField_of _ _ hpull, sigField_of _ _ hsig, busField_of _ _ hbus]

theorem decodeArm_armWord (pin trig bus) : decodeArm (armWord pin trig bus) = .ok (.arm pin trig bus) := by
  obtain ⟨-, zero, zero', hpin, htrig, hbus⟩ := armWord_fields pin trig bus
  refine (decodeArm_ok _ _).mpr ⟨zero, zero', trig, trigField_of _ _ htrig, ?_⟩
  rw [pinField, extract_eq _ _ _ _ hpin, busField_of _ _ hbus]

theorem decodePort_portWord (op : Nat) (port) (h : op < 16) : decodePort (portWord op port) = .ok port := by
  obtain ⟨-, zero, zero', hport⟩ := portWord_fields op port h
  exact (decodePort_ok _ _).mpr ⟨zero, zero', (extract_eq _ _ _ _ hport).symm⟩

theorem decodeResolve_resolveWord {sel bus kind} (h : kind = .pin ∨ sel.extractLsb' 3 4 = 0) :
    decodeResolve (resolveWord sel bus kind) = .ok (.resolve sel bus kind) := by
  obtain ⟨-, zero, zero', hsel, -, hbus, hkind⟩ := resolveWord_fields sel bus kind
  have hpin : pinField (resolveWord sel bus kind) = sel := extract_eq _ _ _ _ hsel
  refine (decodeResolve_ok _ _).mpr ⟨zero, zero', h.imp ?_ fun h => ?_, ?_⟩
  · rintro rfl
    exact hkind
  · rw [field, ← pinField_upper, hpin, h]
    rfl
  · rw [hpin, busField_of _ _ hbus, kindField_of _ _ hkind]

theorem decodeAccess_accessWord (op : Nat) (port off bus) (h : op < 16) :
    decodeAccess (accessWord op port off bus) = .ok (port, off, bus) := by
  obtain ⟨-, z1, z2, z3, z4, hport, hoff, hbus⟩ := accessWord_fields op port off bus h
  refine (decodeAccess_ok _ _).mpr ⟨z1, z2, z3, z4, ?_⟩
  rw [portField, extract_eq _ _ _ _ hport, extract_eq _ _ _ _ hoff, busField_of _ _ hbus]

/-! ### Each format of word 0, encoded back from what is read (R123 to R127) -/

/-- A field on top of the bits below it: with it a word is taken apart into the fields of its format. -/
theorem mod_field (w : Word) (lo len : Nat) :
    w.toNat % 2 ^ (lo + len) = w.toNat % 2 ^ lo + 2 ^ lo * field w lo len := by
  rw [pow_add, Nat.mod_mul, field_eq]

theorem cfgWord_of_fields {w : Word} {drive : Drive} {trig : Trig} (op : field w 28 4 = 1)
    (zero : field w 0 6 = 0) (hdrive : driveField w = some drive) (htrig : trigField w = some trig) :
    cfgWord (pinField w) (dirField w) (!zeroField w 19 1) (w.extractLsb' 15 4) (pullField w) drive
      (sigField w) trig (busField w) = w := by
  have hpin : (pinField w).toNat = field w 21 7 := rfl
  have hcode : (w.extractLsb' 15 4).toNat = field w 15 4 := rfl
  apply BitVec.eq_of_toNat_eq
  rw [cfgWord_toNat, hpin, dirField_code, afen_code, hcode, pullField_code, driveField_code w drive hdrive,
    sigField_code, trigField_code w trig htrig, busField_code]
  rw [← Nat.mod_eq_of_lt w.isLt, mod_field w 28 4, mod_field w 21 7, mod_field w 20 1, mod_field w 19 1,
    mod_field w 15 4, mod_field w 13 2, mod_field w 11 2, mod_field w 10 1, mod_field w 7 3, mod_field w 6 1,
    mod_field w 0 6, op, zero, pow_zero, Nat.mod_one]
  ring

theorem armWord_of_fields {w : Word} {trig : Trig} (op : field w 28 4 = 2) (zero : field w 10 11 = 0)
    (zero' : field w 0 6 = 0) (htrig : trigField w = some trig) :
    armWord (pinField w) trig (busField w) = w := by
  have hpin : (pinField w).toNat = field w 21 7 := rfl
  apply BitVec.eq_of_toNat_eq
  rw [armWord_toNat, hpin, trigField_code w trig htrig, busField_code]
  rw [← Nat.mod_eq_of_lt w.isLt, mod_field w 28 4, mod_field w 21 7, mod_field w 10 11, mod_field w 7 3,
    mod_field w 6 1, mod_field w 0 6, op, zero, zero', pow_zero, Nat.mod_one]
  ring

theorem portWord_of_fields {w : Word} {op : Nat} (hop : field w 28 4 = op) (zero : field w 24 4 = 0)
    (zero' : field w 0 21 = 0) : portWord op (portField w) = w := by
  have hport : (portField w).toNat = field w 21 3 := rfl
  apply BitVec.eq_of_toNat_eq
  rw [portWord_toNat op _ (hop ▸ field_lt w 28 4), hport]
  rw [← Nat.mod_eq_of_lt w.isLt, mod_field w 28 4, mod_field w 24 4, mod_field w 21 3, mod_field w 0 21, hop,
    zero, zero', pow_zero, Nat.mod_one]
  ring

theorem resolveWord_of_fields {w : Word} (op : field w 28 4 = 4) (zero : field w 7 14 = 0)
    (zero' : field w 0 5 = 0) : resolveWord (pinField w) (busField w) (kindField w) = w := by
  have hsel : (pinField w).toNat = field w 21 7 := rfl
  apply BitVec.eq_of_toNat_eq
  rw [resolveWord_toNat, hsel, busField_code, kindField_code]
  rw [← Nat.mod_eq_of_lt w.isLt, mod_field w 28 4, mod_field w 21 7, mod_field w 7 14, mod_field w 6 1,
    mod_field w 5 1, mod_field w 0 5, op, zero, zero', pow_zero, Nat.mod_one]
  ring

theorem accessWord_of_fields {w : Word} {op : Nat} (hop : field w 28 4 = op) (z1 : field w 24 4 = 0)
    (z2 : field w 20 1 = 0) (z3 : field w 7 1 = 0) (z4 : field w 0 6 = 0) :
    accessWord op (portField w) (w.extractLsb' 8 12) (busField w) = w := by
  have hport : (portField w).toNat = field w 21 3 := rfl
  have hoff : (w.extractLsb' 8 12).toNat = field w 8 12 := rfl
  apply BitVec.eq_of_toNat_eq
  rw [accessWord_toNat op _ _ _ (hop ▸ field_lt w 28 4), hport, hoff, busField_code]
  rw [← Nat.mod_eq_of_lt w.isLt, mod_field w 28 4, mod_field w 24 4, mod_field w 21 3, mod_field w 20 1,
    mod_field w 8 12, mod_field w 7 1, mod_field w 6 1, mod_field w 0 6, hop, z1, z2, z3, z4, pow_zero,
    Nat.mod_one]
  ring

/-- A word 0 of a format without fields (R122, R128). -/
theorem word_of_opcode {w : Word} {op : Nat} (hop : field w 28 4 = op) (zero : field w 0 28 = 0) :
    BitVec.ofNat 32 (op * 2 ^ 28) = w := by
  have hlt : op < 2 ^ 4 := hop ▸ field_lt w 28 4
  apply BitVec.eq_of_toNat_eq
  rw [BitVec.toNat_ofNat, Nat.mod_eq_of_lt (by omega), ← Nat.mod_eq_of_lt w.isLt, mod_field w 28 4,
    mod_field w 0 28, hop, zero, pow_zero, Nat.mod_one]
  ring

/-! ### The words of an encoded command (R121) -/

theorem encode_selfDelimiting : ∀ i : Instr, SelfDelimiting (encode i)
  | .nop => Laws.EncodeLength.nop
  | .cfg .. => Laws.EncodeLength.cfg ..
  | .arm .. => Laws.EncodeLength.arm ..
  | .deinit .. => Laws.EncodeLength.deinit ..
  | .resolve .. => Laws.EncodeLength.resolve ..
  | .clken .. => Laws.EncodeLength.clken ..
  | .clkdis .. => Laws.EncodeLength.clkdis ..
  | .rdarm .. => Laws.EncodeLength.rdarm ..
  | .rdr .. => Laws.EncodeLength.rdr ..
  | .wrr .. => Laws.EncodeLength.wrr ..
  | .rda .. => Laws.EncodeLength.rda ..
  | .wra .. => Laws.EncodeLength.wra ..

theorem readAs_of_encode {i : Instr} {w : Word} {operands : List Word} (hwf : i.WellFormed)
    (h : encode i = w :: operands) : ReadAs w (operands.getD 0 0) (operands.getD 1 0) i := by
  cases i <;> cases h
  case nop => exact .nop rfl rfl
  case cfg pin dir afen afcode pull drive sig trig bus =>
    exact .cfg (cfgWord_fields ..).1 (decodeCfg_cfgWord (wellFormed_cfg.mp hwf))
  case arm pin trig bus => exact .arm (armWord_fields ..).1 (decodeArm_armWord ..)
  case deinit port => exact .deinit (portWord_fields _ port (by decide)).1 (decodePort_portWord _ port (by decide))
  case resolve sel bus kind =>
    exact .resolve (resolveWord_fields ..).1 (decodeResolve_resolveWord (wellFormed_resolve.mp hwf))
  case clken port => exact .clken (portWord_fields _ port (by decide)).1 (decodePort_portWord _ port (by decide))
  case clkdis port => exact .clkdis (portWord_fields _ port (by decide)).1 (decodePort_portWord _ port (by decide))
  case rdarm port => exact .rdarm (portWord_fields _ port (by decide)).1 (decodePort_portWord _ port (by decide))
  case rdr port off bus =>
    exact .rdr (accessWord_fields _ port off bus (by decide)).1 (decodeAccess_accessWord _ port off bus (by decide))
  case wrr port off bus data =>
    exact .wrr (accessWord_fields _ port off bus (by decide)).1 (decodeAccess_accessWord _ port off bus (by decide))
  case rda addr => exact .rda rfl rfl
  case wra addr data => exact .wra rfl rfl

/-- A command is read from a stream that holds its words. -/
theorem ReadAs.decodeStream_eq {w : Word} {operands : List Word} {i : Instr}
    (h : ReadAs w (operands.getD 0 0) (operands.getD 1 0) i) (hlen : commandLength w = operands.length + 1) :
    decodeStream (w :: operands) = .command i [] := by
  have hl : commandLength w - 1 = operands.length := by omega
  rw [decodeStream_cons w operands hl.le, h.decodeCommand_eq, hl]
  simp only [List.drop_length]

/-! ### A command that is read (R121, R140) -/

/-- A command is encoded in the words it was read from, as many as its opcode asks for. -/
theorem ReadAs.encode_eq {w w1 w2 : Word} {i : Instr} (h : ReadAs w w1 w2 i) :
    encode i = [w, w1, w2].take (commandLength w) := by
  cases h with
  | nop op zero | rda op zero | wra op zero =>
    rw [commandLength_of_opcode w _ op, ← word_of_opcode op zero]
    rfl
  | cfg op format =>
    obtain ⟨zero, -, drive, trig, hdrive, htrig, rfl⟩ := (decodeCfg_ok w _).mp format
    rw [commandLength_of_opcode w _ op, encode, cfgWord_of_fields op zero hdrive htrig]
    rfl
  | arm op format =>
    obtain ⟨zero, zero', trig, htrig, rfl⟩ := (decodeArm_ok w _).mp format
    rw [commandLength_of_opcode w _ op, encode, armWord_of_fields op zero zero' htrig]
    rfl
  | resolve op format =>
    obtain ⟨zero, zero', -, rfl⟩ := (decodeResolve_ok w _).mp format
    rw [commandLength_of_opcode w _ op, encode, resolveWord_of_fields op zero zero']
    rfl
  | deinit op format | clken op format | clkdis op format | rdarm op format =>
    obtain ⟨zero, zero', rfl⟩ := (decodePort_ok w _).mp format
    rw [commandLength_of_opcode w _ op, encode, portWord_of_fields op zero zero']
    rfl
  | rdr op format | wrr op format =>
    obtain ⟨z1, z2, z3, z4, e⟩ := (decodeAccess_ok w _).mp format
    cases e
    rw [commandLength_of_opcode w _ op, encode, accessWord_of_fields op z1 z2 z3 z4]
    rfl

/-- What is read is well-formed: a function code without a function and a wide port selector are not read. -/
theorem ReadAs.wellFormed {w w1 w2 : Word} {i : Instr} (h : ReadAs w w1 w2 i) : i.WellFormed := by
  cases h with
  | cfg op format =>
    obtain ⟨-, hcode, drive, trig, -, -, rfl⟩ := (decodeCfg_ok w _).mp format
    refine wellFormed_cfg.mpr (hcode.imp (fun h => ?_) (extract_eq w 15 4 0))
    rw [zeroField, beq_eq_false_iff_ne.mpr h, Bool.not_false]
  | resolve op format =>
    obtain ⟨-, -, hupper, rfl⟩ := (decodeResolve_ok w _).mp format
    refine wellFormed_resolve.mpr (hupper.imp (kindField_of w .pin) fun h => ?_)
    rw [pinField_upper]
    exact extract_eq w 24 4 0 h
  | arm op format =>
    obtain ⟨-, -, trig, -, rfl⟩ := (decodeArm_ok w _).mp format
    rfl
  | nop | deinit | clken | clkdis | rdarm | rdr | wrr | rda | wra => rfl

/-- Where a command is read, its words have arrived and are taken from the stream. -/
theorem decodeStream_command {ws rest : List Word} {i : Instr} (h : decodeStream ws = .command i rest) :
    ∃ w operands, ws = w :: operands ∧ commandLength w - 1 ≤ operands.length ∧
      rest = operands.drop (commandLength w - 1) ∧
      ReadAs w (operands.getD 0 0) (operands.getD 1 0) i := by
  cases ws with
  | nil => cases h
  | cons w operands =>
    by_cases hl : operands.length < commandLength w - 1
    · rw [decodeStream, if_pos hl] at h
      cases h
    · rw [decodeStream_cons w operands (by omega)] at h
      cases hd : decodeCommand w (operands.getD 0 0) (operands.getD 1 0) with
      | error why => rw [hd] at h; cases h
      | ok j =>
        rw [hd] at h
        cases h
        exact ⟨w, operands, rfl, by omega, rfl, readAs_of_decodeCommand hd⟩

theorem commandLength_le (w : Word) : commandLength w ≤ 3 := by
  unfold commandLength
  split <;> decide

/-- The first words of a stream, as the decoder names them, and the words after them. -/
theorem take_append_drop_operands (w : Word) (operands : List Word) {n : Nat} (h0 : 1 ≤ n) (h3 : n ≤ 3)
    (hl : n - 1 ≤ operands.length) :
    w :: operands = [w, operands.getD 0 0, operands.getD 1 0].take n ++ operands.drop (n - 1) := by
  match n, operands, hl with
  | 1, _, _ => rfl
  | 2, _ :: _, _ => rfl
  | 3, _ :: _ :: _, _ => rfl

/-! ### Legal words (R139) -/

theorem exists_decodeCfg (w : Word) :
    (∃ i, decodeCfg w = .ok i) ↔
      field w 0 6 = 0 ∧ field w 11 2 ≠ 3 ∧ field w 7 3 ≤ 5 ∧ (field w 19 1 = 1 ∨ field w 15 4 = 0) := by
  have hflag : field w 19 1 ≠ 0 ↔ field w 19 1 = 1 := by have := field_lt w 19 1; omega
  rw [← driveField_some, ← trigField_some, ← hflag]
  constructor
  · rintro ⟨i, h⟩
    obtain ⟨zero, hcode, drive, trig, hdrive, htrig, -⟩ := (decodeCfg_ok w i).mp h
    exact ⟨zero, ⟨drive, hdrive⟩, ⟨trig, htrig⟩, hcode⟩
  · rintro ⟨zero, ⟨drive, hdrive⟩, ⟨trig, htrig⟩, hcode⟩
    exact ⟨_, (decodeCfg_ok w _).mpr ⟨zero, hcode, drive, trig, hdrive, htrig, rfl⟩⟩

theorem exists_decodeArm (w : Word) :
    (∃ i, decodeArm w = .ok i) ↔ field w 10 11 = 0 ∧ field w 0 6 = 0 ∧ field w 7 3 ≤ 5 := by
  rw [← trigField_some]
  constructor
  · rintro ⟨i, h⟩
    obtain ⟨zero, zero', trig, htrig, -⟩ := (decodeArm_ok w i).mp h
    exact ⟨zero, zero', trig, htrig⟩
  · rintro ⟨zero, zero', trig, htrig⟩
    exact ⟨_, (decodeArm_ok w _).mpr ⟨zero, zero', trig, htrig, rfl⟩⟩

theorem ReadAs.legal {w w1 w2 : Word} {i : Instr} (h : ReadAs w w1 w2 i) : legalWord w = true := by
  cases h with
  | nop op zero | rda op zero | wra op zero => simp [legalWord, op, zero]
  | cfg op format =>
    obtain ⟨zero, hdrive, htrig, hcode⟩ := (exists_decodeCfg w).mp ⟨_, format⟩
    simp [legalWord, op, zero, hdrive, htrig, hcode]
  | arm op format =>
    obtain ⟨zero, zero', htrig⟩ := (exists_decodeArm w).mp ⟨_, format⟩
    simp [legalWord, op, zero, zero', htrig]
  | resolve op format =>
    obtain ⟨zero, zero', hupper, -⟩ := (decodeResolve_ok w _).mp format
    simp [legalWord, op, zero, zero', hupper]
  | deinit op format | clken op format | clkdis op format | rdarm op format =>
    obtain ⟨zero, zero', -⟩ := (decodePort_ok w _).mp format
    simp [legalWord, op, zero, zero']
  | rdr op format | wrr op format =>
    obtain ⟨z1, z2, z3, z4, -⟩ := (decodeAccess_ok w _).mp format
    simp [legalWord, op, z1, z2, z3, z4]

theorem exists_readAs {w : Word} (h : legalWord w = true) (w1 w2 : Word) : ∃ i, ReadAs w w1 w2 i := by
  unfold legalWord at h
  split at h <;>
    simp only [Bool.and_eq_true, Bool.or_eq_true, beq_iff_eq, bne_iff_ne, decide_eq_true_eq,
      Bool.false_eq_true] at h
  next op => exact ⟨_, .nop op h⟩
  next op =>
    obtain ⟨⟨⟨zero, hdrive⟩, htrig⟩, hcode⟩ := h
    obtain ⟨i, format⟩ := (exists_decodeCfg w).mpr ⟨zero, hdrive, htrig, hcode⟩
    exact ⟨i, .cfg op format⟩
  next op =>
    obtain ⟨⟨zero, zero'⟩, htrig⟩ := h
    obtain ⟨i, format⟩ := (exists_decodeArm w).mpr ⟨zero, zero', htrig⟩
    exact ⟨i, .arm op format⟩
  next op => exact ⟨_, .deinit op ((decodePort_ok w _).mpr ⟨h.1, h.2, rfl⟩)⟩
  next op => exact ⟨_, .clken op ((decodePort_ok w _).mpr ⟨h.1, h.2, rfl⟩)⟩
  next op => exact ⟨_, .clkdis op ((decodePort_ok w _).mpr ⟨h.1, h.2, rfl⟩)⟩
  next op => exact ⟨_, .rdarm op ((decodePort_ok w _).mpr ⟨h.1, h.2, rfl⟩)⟩
  next op =>
    obtain ⟨⟨zero, zero'⟩, hupper⟩ := h
    exact ⟨_, .resolve op ((decodeResolve_ok w _).mpr ⟨zero, zero', hupper, rfl⟩)⟩
  next op =>
    obtain ⟨⟨⟨z1, z2⟩, z3⟩, z4⟩ := h
    exact ⟨_, .rdr op ((decodeAccess_ok w _).mpr ⟨z1, z2, z3, z4, rfl⟩)⟩
  next op =>
    obtain ⟨⟨⟨z1, z2⟩, z3⟩, z4⟩ := h
    exact ⟨_, .wrr op ((decodeAccess_ok w _).mpr ⟨z1, z2, z3, z4, rfl⟩)⟩
  next op => exact ⟨_, .rda op h⟩
  next op => exact ⟨_, .wra op h⟩

/-! ### The obligations on the encoding -/

/-- Settles O1: the decoder is run on each of the words. -/
theorem specWordsDecode : Obligations.SpecWordsDecode := by
  unfold Obligations.SpecWordsDecode
  decide

/-- Settles O2: what is encoded is as long as its opcode says, and each format's decoder reads its word 0 back. -/
theorem decodeOfEncode : Obligations.DecodeOfEncode := by
  intro i rest hwf
  obtain ⟨w, operands, e, hlen⟩ := encode_selfDelimiting i
  rw [e]
  exact decodeStream_append ((readAs_of_encode hwf e).decodeStream_eq hlen)

/-- Settles O3: a command that is read is encoded in the words it was read from. -/
theorem encodeOfDecode : Obligations.EncodeOfDecode := by
  intro ws i rest h
  obtain ⟨w, operands, rfl, hl, rfl, hread⟩ := decodeStream_command h
  rw [hread.encode_eq]
  exact ⟨take_append_drop_operands w operands (commandLength_pos w) (commandLength_le w) hl, hread.wellFormed⟩

/-- Settles O4: by the opcode, the conditions of the format's decoder are those of R139. -/
theorem decoderAcceptsLegalWords : Obligations.DecoderAcceptsLegalWords := by
  intro w w1 w2
  constructor
  · rintro ⟨i, h⟩
    exact (readAs_of_decodeCommand h).legal
  · intro h
    obtain ⟨i, hread⟩ := exists_readAs h w1 w2
    exact ⟨i, hread.decodeCommand_eq⟩

end Sys2Proof.Machine
end

section
/-! PROOF. The command port's step on a command and on an illegal word, and on a command the host has placed (O5,
O6, O9). -/

namespace Sys2Proof.Machine

/-- The step of an idle command port that has the turn runs the command it reads (R140, R250). -/
theorem step_command {s : State} {i : Instr} {rest : List Word} (h : s.seq = .idle) (hn : nextTurn s = .port)
    (hd : decodeStream s.stream = .command i rest) :
    step s = finish (exec i { beginStep s with stream := rest }) := by
  rw [step_eq hn, runTurn, portStep_command (s := beginStep s) h hd]

/-- A word 0 that is not legal is reported, once all its command's words have arrived (R134). -/
theorem decodeStream_illegal {w : Word} {operands : List Word} (hw : legalWord w = false)
    (hl : commandLength w - 1 ≤ operands.length) :
    ∃ why, decodeStream (w :: operands) = .illegal w why (operands.drop (commandLength w - 1)) := by
  rw [decodeStream_cons w operands hl]
  cases hd : decodeCommand w (operands.getD 0 0) (operands.getD 1 0) with
  | error why => exact ⟨why, rfl⟩
  | ok i =>
    rw [(readAs_of_decodeCommand hd).legal] at hw
    cases hw

/-! ### A command placed by the host (log entry 19) -/

/-- Nothing is left of a stream that holds one command's words. -/
theorem rest_eq_nil {ws rest : List Word} {i : Instr} (hws : SelfDelimiting ws)
    (h : decodeStream ws = .command i rest) : rest = [] := by
  obtain ⟨w, operands, rfl, hlen⟩ := hws
  obtain ⟨w', operands', e, -, rfl, -⟩ := decodeStream_command h
  cases e
  exact List.drop_eq_nil_of_le (by omega)

theorem commandWords_selfDelimiting (nbits w : Nat) : SelfDelimiting (commandWords nbits w) := by
  obtain ⟨n, hn⟩ := Nat.exists_eq_add_of_le' (commandLength_pos (BitVec.ofNat 32 (w % 2 ^ nbits)))
  refine ⟨BitVec.ofNat 32 (w % 2 ^ nbits),
    (List.range n).map fun k => BitVec.ofNat 32 ((w % 2 ^ nbits) >>> (32 * (k + 1))), ?_, ?_⟩
  · simp only [commandWords, hn, List.range_succ_eq_map, List.map_cons, List.map_map]
    rfl
  · rw [hn, List.length_map, List.length_range]

theorem decodeStream_commandWords {nbits w : Nat} {i : Instr} (h : decodeTableWord nbits w = some i) :
    decodeStream (commandWords nbits w) = .command i [] := by
  unfold decodeTableWord at h
  split at h
  next j rest hd =>
    cases h
    rw [hd, rest_eq_nil (commandWords_selfDelimiting nbits w) hd]
  next => cases h
  next => cases h

/-! ### The obligations -/

/-- Settles O5: the command port's turn runs the command that is read. -/
theorem stepRunsCommand : Obligations.StepRunsCommand := by
  intro s i rest h hn hd
  have hstep := step_command h hn hd
  refine ⟨hstep, fun t ht => ?_⟩
  rw [hstep, ht, finish]

/-- Settles O6: the decoder refuses what is not legal, and the command port reports what the decoder refuses. -/
theorem illegalCommandReported : Obligations.IllegalCommandReported := by
  intro s w operands h hn hs hl hw
  obtain ⟨why, hd⟩ := decodeStream_illegal hw hl
  rw [step_eq hn, runTurn, portStep_illegal (s := beginStep s) h (by rw [beginStep_stream, hs, hd])]
  rfl

/-- Settles O9: the placed words are one whole command, so the command is read and the stream is as it was. -/
theorem placedCommandRuns : Obligations.PlacedCommandRuns := by
  intro s nbits w i h
  have hd : decodeStream (s.withFetchWord nbits w).stream = .command i s.stream :=
    decodeStream_append (decodeStream_commandWords h)
  rw [step_command rfl rfl hd]
  rfl

end Sys2Proof.Machine
end

section
/-! PROOF. The resolver's arithmetic, and the port-relative commands as absolute ones (O12, O18). -/

namespace Sys2Proof.Machine

/-! ### Ports and offsets from their numbers (R130, R131) -/

theorem portOfNumber_some {k : Nat} {p : Port} : portOfNumber k = some p ↔ p.index = k := by
  constructor
  · intro h
    obtain ⟨hk, e⟩ := List.getElem?_eq_some_iff.mp h
    rw [← e]
    have : k < 6 := hk
    interval_cases k <;> rfl
  · rintro rfl
    cases p <;> rfl

theorem portOfNumber_none {k : Nat} : portOfNumber k = none ↔ 6 ≤ k := List.getElem?_eq_none_iff

theorem offOfNumber_val {k : Nat} (h : k ≤ 7) : (offOfNumber k).val = k := Nat.mod_eq_of_lt (by omega)

/-! ### The two pin schemes (R131) -/

theorem decodePin_zero_some {id : BitVec 7} {p : Port} {o : Off} (h : decodePin .zero id = some (p, o)) :
    p.index = id.toNat / 8 ∧ o.val = id.toNat % 8 := by
  obtain ⟨q, hq, e⟩ := Option.map_eq_some_iff.mp h
  cases e
  exact ⟨portOfNumber_some.mp hq, offOfNumber_val (by omega)⟩

theorem decodePin_zero_none {id : BitVec 7} : decodePin .zero id = none ↔ 48 ≤ id.toNat := by
  rw [decodePin, Option.map_eq_none_iff, portOfNumber_none]
  omega

theorem decodePin_legacy_some {id : BitVec 7} {p : Port} {o : Off} (h : decodePin .legacy10 id = some (p, o)) :
    1 ≤ id.toNat / 10 ∧ id.toNat % 10 ≤ 7 ∧ p.index = id.toNat / 10 - 1 ∧ o.val = id.toNat % 10 := by
  rw [decodePin] at h
  split at h
  next hid =>
    obtain ⟨q, hq, e⟩ := Option.map_eq_some_iff.mp h
    cases e
    exact ⟨hid.1, hid.2, portOfNumber_some.mp hq, offOfNumber_val hid.2⟩
  next => cases h

theorem decodePin_legacy_none {id : BitVec 7} :
    decodePin .legacy10 id = none ↔ ¬(1 ≤ id.toNat / 10 ∧ id.toNat / 10 ≤ 6 ∧ id.toNat % 10 ≤ 7) := by
  rw [decodePin]
  split
  next hid => rw [Option.map_eq_none_iff, portOfNumber_none]; omega
  next hid => simp only [true_iff]; omega

/-! ### The resolver (R161 to R164) -/

/-- A pin identifier is valid and names its port and offset, or falls back to port A, offset 0. -/
theorem resolvePin_cases (par : Params) (id : BitVec 7) (bus : Bus) :
    let r := resolvePin par id bus
    (r.valid = true ∧ decodePin par.pinScheme id = some (r.port, r.off)) ∨
      (r.valid = false ∧ decodePin par.pinScheme id = none ∧ r.port = .A ∧ r.off = 0) := by
  unfold resolvePin
  split
  next h => exact .inl ⟨rfl, h⟩
  next h => exact .inr ⟨rfl, h, rfl, rfl⟩

theorem resolvePin_handle (par : Params) (id : BitVec 7) (bus : Bus) :
    (resolvePin par id bus).handle = apertureBase par.map (resolvePin par id bus).port bus := by
  unfold resolvePin
  split <;> rfl

theorem resolvePort_handle (par : Params) (q : BitVec 3) (bus : Bus) :
    (resolvePort par q bus).handle = apertureBase par.map (resolvePort par q bus).port bus := by
  unfold resolvePort
  split <;> rfl

/-- A port field is valid and is its port's index, or falls back to port A. -/
theorem resolvePort_cases (par : Params) (q : BitVec 3) (bus : Bus) :
    let r := resolvePort par q bus
    (r.valid = true ∧ r.port.index = q.toNat) ∨ (r.valid = false ∧ 6 ≤ q.toNat ∧ r.port = .A) := by
  unfold resolvePort
  split
  next h => exact .inl ⟨rfl, portOfNumber_some.mp h⟩
  next h => exact .inr ⟨rfl, portOfNumber_none.mp h, rfl⟩

theorem resolvePin_zero {par : Params} (hs : par.pinScheme = .zero) (id : BitVec 7) (bus : Bus) :
    let r := resolvePin par id bus
    r.valid = decide (id.toNat < 48) ∧
      (id.toNat < 48 → r.port.index = id.toNat / 8 ∧ r.off.val = id.toNat % 8) := by
  obtain ⟨hv, hd⟩ | ⟨hv, hd, -⟩ := resolvePin_cases par id bus <;> rw [hs] at hd
  · have hpin := decodePin_zero_some hd
    have := Port.index_lt (resolvePin par id bus).port
    exact ⟨by rw [hv, decide_eq_true]; omega, fun _ => hpin⟩
  · have hid := decodePin_zero_none.mp hd
    exact ⟨by rw [hv, decide_eq_false]; omega, fun _ => by omega⟩

theorem resolvePin_legacy {par : Params} (hs : par.pinScheme = .legacy10) (id : BitVec 7) (bus : Bus) :
    let r := resolvePin par id bus
    r.valid = decide (1 ≤ id.toNat / 10 ∧ id.toNat / 10 ≤ 6 ∧ id.toNat % 10 ≤ 7) ∧
      (r.valid = true → r.port.index = id.toNat / 10 - 1 ∧ r.off.val = id.toNat % 10) := by
  obtain ⟨hv, hd⟩ | ⟨hv, hd, -⟩ := resolvePin_cases par id bus <;> rw [hs] at hd
  · obtain ⟨h1, h7, hport, hoff⟩ := decodePin_legacy_some hd
    have := Port.index_lt (resolvePin par id bus).port
    exact ⟨by rw [hv, decide_eq_true]; omega, fun _ => ⟨hport, hoff⟩⟩
  · exact ⟨by rw [hv, decide_eq_false (decodePin_legacy_none.mp hd)], fun h => by rw [hv] at h; cases h⟩

/-! ### The obligations -/

/-- Settles O12: by the scheme, and by whether the identifier or the port field names a port. -/
theorem resolverFunctions : Obligations.ResolverFunctions := by
  refine fun par bus => ⟨fun id => ⟨fun hs => resolvePin_zero hs id bus, fun hs => resolvePin_legacy hs id bus,
    resolvePin_handle par id bus, fun hinvalid => ?fallback⟩, fun q => ⟨resolvePort_handle par q bus, ?port⟩⟩
  case fallback =>
    obtain ⟨hv, -⟩ | ⟨-, -, hport, hoff⟩ := resolvePin_cases par id bus
    · rw [hv] at hinvalid
      cases hinvalid
    · exact ⟨hport, hoff⟩
  case port =>
    obtain ⟨hv, hport⟩ | ⟨hv, hq, hport⟩ := resolvePort_cases par q bus
    · have := Port.index_lt (resolvePort par q bus).port
      have hq : q.toNat ≤ 5 := by omega
      exact ⟨by rw [hv, decide_eq_true hq], by rw [if_pos hq, hport]⟩
    · have hq : ¬q.toNat ≤ 5 := by omega
      exact ⟨by rw [hv, decide_eq_false hq], by rw [if_neg hq, hport]; rfl⟩

/-- Settles O18: the address of a port-relative access is formed so (R132), and under a sound map it does not
wrap. -/
theorem portRelativeIsAbsolute : Obligations.PortRelativeIsAbsolute := by
  intro s q off bus d
  refine ⟨exec_rdr q off bus s, exec_wrr q off bus d s, fun hm => ?_⟩
  have hoff : off.toNat < 0x1000 := off.isLt
  rw [aperture_toNat hm]
  omega

end Sys2Proof.Machine
end

section
/-! PROOF. The resolver: pin identifiers and pins, and the result of RESOLVE (O11, O13). -/

namespace Sys2Proof.Machine

/-! ### Pin identifiers and pins correspond (R131, R167) -/

theorem offOfNumber_eq {k : Nat} {o : Off} (h : o.val = k) : offOfNumber k = o :=
  Fin.ext (by rw [offOfNumber_val (by omega), h])

theorem encodePin_zero_toNat (p : Port) (o : Off) : (encodePin .zero p o).toNat = 8 * p.index + o := by
  have := Port.index_lt p
  rw [encodePin, BitVec.toNat_ofNat, Nat.mod_eq_of_lt]
  omega

theorem encodePin_legacy_toNat (p : Port) (o : Off) :
    (encodePin .legacy10 p o).toNat = 10 * (p.index + 1) + o := by
  have := Port.index_lt p
  rw [encodePin, BitVec.toNat_ofNat, Nat.mod_eq_of_lt]
  omega

theorem decodePin_zero_eq_some {id : BitVec 7} {p : Port} {o : Off} :
    decodePin .zero id = some (p, o) ↔ id.toNat = 8 * p.index + o := by
  constructor
  · intro h
    obtain ⟨hport, hoff⟩ := decodePin_zero_some h
    omega
  · intro h
    have hport : p.index = id.toNat / 8 := by omega
    have hoff : o.val = id.toNat % 8 := by omega
    rw [decodePin, portOfNumber_some.mpr hport, Option.map_some, offOfNumber_eq hoff]

theorem decodePin_legacy_eq_some {id : BitVec 7} {p : Port} {o : Off} :
    decodePin .legacy10 id = some (p, o) ↔ id.toNat = 10 * (p.index + 1) + o := by
  constructor
  · intro h
    obtain ⟨htens, -, hport, hoff⟩ := decodePin_legacy_some h
    omega
  · intro h
    have hport : p.index = id.toNat / 10 - 1 := by omega
    have hoff : o.val = id.toNat % 10 := by omega
    have hid : 1 ≤ id.toNat / 10 ∧ id.toNat % 10 ≤ 7 := by omega
    rw [decodePin, if_pos hid, portOfNumber_some.mpr hport, Option.map_some, offOfNumber_eq hoff]

/-- R167, both directions at once: an identifier names a pin exactly when it is the pin's encoding. -/
theorem decodePin_eq_some_iff {scheme : PinScheme} {id : BitVec 7} {p : Port} {o : Off} :
    decodePin scheme id = some (p, o) ↔ encodePin scheme p o = id := by
  cases scheme with
  | zero => rw [decodePin_zero_eq_some, ← BitVec.toNat_inj, encodePin_zero_toNat, eq_comm]
  | legacy10 => rw [decodePin_legacy_eq_some, ← BitVec.toNat_inj, encodePin_legacy_toNat, eq_comm]

/-- Settles O11: an identifier names a pin exactly when it is the pin's encoding. -/
theorem resolverRoundTrip : Obligations.ResolverRoundTrip :=
  fun _ => ⟨fun _ _ => decodePin_eq_some_iff.mpr rfl, fun _ _ _ => decodePin_eq_some_iff.mp⟩

/-! ### The fields of RESOLVE's `aux` (R165) -/

theorem resolveAux_toNat (bus : Bus) (r : Resolved) :
    (resolveAux bus r).toNat =
      r.valid.toNat * 2 ^ 7 + bus.code * 2 ^ 6 + r.port.index * 2 ^ 3 + r.off.val := by
  have := toNat_lt_two r.valid; have := bus.code_lt; have := Port.index_lt r.port
  rw [resolveAux, BitVec.toNat_ofNat, Nat.mod_eq_of_lt]
  omega

theorem resolveAux_fields (bus : Bus) (r : Resolved) :
    let aux := resolveAux bus r
    field aux 7 1 = r.valid.toNat ∧ field aux 6 1 = bus.code ∧ field aux 3 3 = r.port.index ∧
      field aux 0 3 = r.off.val ∧ field aux 8 24 = 0 := by
  have := toNat_lt_two r.valid; have := bus.code_lt; have := Port.index_lt r.port
  simp only [field_eq, resolveAux_toNat]
  refine ⟨?_, ?_, ?_, ?_, ?_⟩ <;> omega

/-- A field of one bit is that bit. -/
theorem getLsbD_of_field {w : Word} {k : Nat} {b : Bool} (h : field w k 1 = b.toNat) : w.getLsbD k = b := by
  have hbit : w.extractLsb' k 1 = BitVec.ofBool b := extract_eq w k 1 _ (by rw [h, BitVec.toNat_ofBool])
  simpa using congrArg (BitVec.getLsbD · 0) hbit

theorem busCode_eq_toNat (bus : Bus) : bus.code = (bus == .ahb).toNat := by cases bus <;> rfl

/-! ### RESOLVE (R165) -/

theorem resolvePort_off (par : Params) (q : BitVec 3) (bus : Bus) : (resolvePort par q bus).off = 0 := by
  unfold resolvePort
  split <;> rfl

/-- The selector is a pin identifier, or a port field in its low three bits (R126). -/
theorem resolveSelector_eq (par : Params) (kind : SelKind) (sel : BitVec 7) (bus : Bus) :
    resolveSelector par kind sel bus =
      if kind = .pin then resolvePin par sel bus else resolvePort par (sel.extractLsb' 0 3) bus := by
  cases kind with
  | pin => rfl
  | port => rw [resolveSelector, if_neg nofun, BitVec.setWidth_eq_extractLsb' (by decide)]

theorem exec_resolve {s : State} (h : s.seq = .idle) (sel : BitVec 7) (bus : Bus) (kind : SelKind) :
    let r := resolveSelector s.par kind sel bus
    exec (.resolve sel bus kind) s = .next { s with resp := ⟨.ok, 0, r.handle, resolveAux bus r⟩ } := by
  rw [exec, execResolve, accept_idle h, complete_idle h]

/-- Settles O13: `aux` is `resolveAux`, read field by field. -/
theorem resolveResult : Obligations.ResolveResult := by
  intro s sel bus kind h
  rw [← resolveSelector_eq]
  obtain ⟨hvalid, hbus, hport, hoff, hzero⟩ := resolveAux_fields bus (resolveSelector s.par kind sel bus)
  refine ⟨_, exec_resolve h sel bus kind, getLsbD_of_field hvalid,
    getLsbD_of_field (hbus.trans (busCode_eq_toNat bus)), hport, hoff, extract_eq _ _ _ _ hzero, ?_⟩
  rintro rfl
  exact resolvePort_off s.par (sel.setWidth 3) bus

end Sys2Proof.Machine
end

section
/-! PROOF. The lists of the engine commands: what accepting a command loads (O36), and the order of the masked
reconfiguration (O37). -/

namespace Sys2Proof.Machine

/-! ### Accepting an engine command (R182) -/

/-- A command whose list is not empty loads the sequencer and changes nothing else. -/
theorem accept_loadCommand_list {s : State} {cmd : Instr} {ops : List MicroOp} (h : s.seq = .idle)
    (he : expand s.par cmd = ops) (hne : ops ≠ []) :
    accept s (loadCommand cmd s) = .next { s with seq := .busy cmd ops 0 } := by
  obtain ⟨op, rest, rfl⟩ := List.exists_cons_of_ne_nil hne
  rw [accept_idle h, loadCommand, he]

/-- A command whose list is empty completes at once, without data and with its own `aux`. -/
theorem accept_loadCommand_empty {s : State} {cmd : Instr} (h : s.seq = .idle) (he : expand s.par cmd = []) :
    accept s (loadCommand cmd s) = .next { s with resp := ⟨.ok, 0, 0, completionAux s.par cmd⟩ } := by
  rw [accept_idle h, loadCommand, he, complete_idle h]

/-! ### The lists (R183, R222) -/

/-- The list of a CFG, step by step (R183). -/
theorem cfgOps_eq_flatten (p o dir afen afcode pull drive sig trig b) :
    cfgOps p o dir afen afcode pull drive sig trig b = List.flatten
      [[.clkSet p, .waitRdy p], [bitOp (dir == .output) p b .dir o],
        if afen then [.bset p b .afsel o, .nib p b o afcode] else [], [.bset p b (driveReg drive) o],
        (match pullReg pull with | some x => [.bset p b x o] | none => []), [.bset p b (sigReg sig) o],
        trigOps p b o trig] := by
  rw [cfgOps_eq_tail, cfgTail]
  cases afen <;> cases pull <;> simp [pullReg]

theorem expand_arm {par : Params} {pin : BitVec 7} {bus : Bus} (h : (resolvePin par pin bus).valid = true)
    (trig : Trig) :
    expand par (.arm pin trig bus) =
      cfgOps (resolvePin par pin bus).port (resolvePin par pin bus).off .input false 0 .up .ma8 .digital trig bus
        ++ [.armSet (resolvePin par pin bus).port (resolvePin par pin bus).off,
          .irqEn (par.irqLine.get (resolvePin par pin bus).port)] := if_pos h

theorem cfgOps_ne_nil (p o dir afen afcode pull drive sig trig b) :
    cfgOps p o dir afen afcode pull drive sig trig b ≠ [] := by
  rw [cfgOps_eq_tail]
  exact List.cons_ne_nil _ _

/-- Settles O36: a list that is not empty is loaded and an empty one completes; the statement's list is that of
`cfgOps`, compared step by step. -/
theorem engineCommandsLoad : Obligations.EngineCommandsLoad := by
  intro s h list loads
  have hlist : cfgOps = list := by
    funext p o dir afen afcode pull drive sig trig b
    refine (cfgOps_eq_flatten ..).trans (congrArg List.flatten ?_)
    simp only [List.cons.injEq, true_and, and_true]
    refine ⟨?dir, ?drive, ?pull, ?sig, ?trig⟩
    case dir => cases dir <;> rfl
    case drive => cases drive <;> rfl
    case pull => cases pull <;> rfl
    case sig => cases sig <;> rfl
    case trig => cases trig <;> rfl
  clear_value list
  subst hlist
  refine ⟨fun pin dir afen afcode pull drive sig trig bus => ?cfg,
    fun pin trig bus => ⟨fun hv => ?arm, fun hv => ?armInvalid⟩, fun q p hq => ?deinit, fun q hq => ?deinitInvalid,
    fun q => ⟨accept_loadCommand_list h rfl nofun, rfl⟩, fun q => ⟨accept_loadCommand_list h rfl nofun, rfl⟩⟩
  case cfg =>
    exact ⟨accept_loadCommand_list h rfl (cfgOps_ne_nil _ _ _ _ _ _ _ _ _ _), rfl⟩
  case arm =>
    exact ⟨accept_loadCommand_list h (expand_arm hv trig) (by simp), expand_arm hv trig⟩
  case armInvalid =>
    have he : expand s.par (.arm pin trig bus) = [] := if_neg (by rw [hv]; decide)
    have haux : completionAux s.par (.arm pin trig bus) = 0 := by rw [completionAux, hv]; rfl
    exact (accept_loadCommand_empty h he).trans (by rw [haux])
  case deinit =>
    have he : expand s.par (.deinit q) = [.armClr p, .clkClr p] := by simp only [expand, resolvePort, hq, if_true]
    exact ⟨accept_loadCommand_list h he nofun, he⟩
  case deinitInvalid =>
    have hv : (resolvePort s.par q .apb).valid = false := by
      simp only [resolvePort, portOfNumber_none.mpr hq]
    have he : expand s.par (.deinit q) = [] := if_neg (by rw [hv]; decide)
    have haux : completionAux s.par (.deinit q) = 0 := by rw [completionAux, hv]; rfl
    exact (accept_loadCommand_empty h he).trans (by rw [haux])

/-! ### The masked reconfiguration (R190, R192) -/

/-- A micro-operation of step 7: one on IM, IS, IBE or IEV, or the ICR write. -/
def MicroOp.reconfigures : MicroOp → Bool
  | .bset _ _ x _ | .bclr _ _ x _ => x == .im || x == .is || x == .ibe || x == .iev
  | .w1c _ _ _ => true
  | .clkSet _ | .clkClr _ | .waitRdy _ | .nib _ _ _ _ | .armSet _ _ | .armClr _ | .irqEn _ => false

/-- A CFG's list is that of the same CFG without a trigger, and then step 7. -/
theorem cfgOps_eq_append_trigOps (p o dir afen afcode pull drive sig trig b) :
    cfgOps p o dir afen afcode pull drive sig trig b =
      cfgOps p o dir afen afcode pull drive sig .none b ++ trigOps p b o trig := by
  simp only [cfgOps, trigOps, trigBits, List.append_nil]

/-- Steps 1 to 6 have no micro-operation of step 7. -/
theorem not_reconfigures_of_mem {p o dir afen afcode pull drive sig b} :
    ∀ op ∈ cfgOps p o dir afen afcode pull drive sig .none b, op.reconfigures = false := by
  intro op hop
  rw [cfgOps_eq_flatten] at hop
  obtain ⟨part, hpart, hop⟩ := List.mem_flatten.mp hop
  simp only [List.mem_cons, List.not_mem_nil, or_false] at hpart
  rcases hpart with rfl | rfl | rfl | rfl | rfl | rfl | rfl
  case inl => obtain rfl | rfl := List.mem_pair.mp hop <;> rfl
  case inr.inl => cases dir <;> (rw [List.mem_singleton.mp hop]; rfl)
  case inr.inr.inl =>
    cases afen
    · cases hop
    · obtain rfl | rfl := List.mem_pair.mp hop <;> rfl
  case inr.inr.inr.inl => cases drive <;> (rw [List.mem_singleton.mp hop]; rfl)
  case inr.inr.inr.inr.inl =>
    cases pull
    · cases hop
    all_goals (rw [List.mem_singleton.mp hop]; rfl)
  case inr.inr.inr.inr.inr.inl => cases sig <;> (rw [List.mem_singleton.mp hop]; rfl)
  case inr.inr.inr.inr.inr.inr => cases hop

/-- Steps 7b and 7c: the sense registers as the trigger sets them (R190, R191). -/
def senseOps (p : Port) (b : Bus) (o : Off) (t : TrigSetting) : List MicroOp :=
  [bitOp t.is p b .is o, bitOp t.ibe p b .ibe o] ++ t.iev.toList.map fun v => bitOp v p b .iev o

/-- Step 7 of an edge trigger: the ICR write stands between the sense registers and the mask (R190). -/
theorem trigOps_edge {trig : Trig} {t : TrigSetting} (h : trigBits trig = some t) (hi : t.icr = true)
    (p : Port) (b : Bus) (o : Off) :
    trigOps p b o trig =
      [MicroOp.bclr p b .im o] ++ senseOps p b o t ++ [MicroOp.w1c p b o] ++ [MicroOp.bset p b .im o] := by
  simp only [trigOps, h, hi, senseOps, if_true]
  cases t.iev <;> rfl

/-- Step 7 of a level trigger: no ICR write (R190). -/
theorem trigOps_level {trig : Trig} {t : TrigSetting} (h : trigBits trig = some t) (hi : t.icr = false)
    (p : Port) (b : Bus) (o : Off) :
    trigOps p b o trig = [MicroOp.bclr p b .im o] ++ senseOps p b o t ++ [MicroOp.bset p b .im o] := by
  simp only [trigOps, h, hi, senseOps, Bool.false_eq_true, if_false]
  cases t.iev <;> rfl

theorem trigBits_of_edge {trig : Trig} (h : trig = .rising ∨ trig = .falling ∨ trig = .both) :
    ∃ t, trigBits trig = some t ∧ t.icr = true := by
  rcases h with rfl | rfl | rfl <;> exact ⟨_, rfl, rfl⟩

theorem trigBits_of_level {trig : Trig} (h : trig = .high ∨ trig = .low) :
    ∃ t, trigBits trig = some t ∧ t.icr = false := by
  rcases h with rfl | rfl <;> exact ⟨_, rfl, rfl⟩

/-- The micro-operations on the sense registers are on IS, IBE and IEV. -/
theorem mem_senseOps {p : Port} {b : Bus} {o : Off} {t : TrigSetting} {op : MicroOp} (h : op ∈ senseOps p b o t) :
    ∃ v x, (x = .is ∨ x = .ibe ∨ x = .iev) ∧ op = bitOp v p b x o := by
  rcases List.mem_append.mp h with h | h
  · obtain rfl | rfl := List.mem_pair.mp h
    · exact ⟨_, _, .inl rfl, rfl⟩
    · exact ⟨_, _, .inr (.inl rfl), rfl⟩
  · obtain ⟨v, -, rfl⟩ := List.mem_map.mp h
    exact ⟨v, .iev, .inr (.inr rfl), rfl⟩

/-- None of them writes ICR or touches the mask. -/
theorem ne_of_mem_senseOps {p : Port} {b : Bus} {o : Off} {t : TrigSetting} {op : MicroOp}
    (h : op ∈ senseOps p b o t) : op ≠ .w1c p b o ∧ op ≠ .bset p b .im o ∧ op ≠ .bclr p b .im o := by
  obtain ⟨v, x, hx, rfl⟩ := mem_senseOps h
  rcases hx with rfl | rfl | rfl <;> cases v <;> simp [bitOp]

/-- Settles O37: steps 1 to 6 have no micro-operation of step 7, and those of step 7 between the mask's two writes
are the sense registers' and an edge trigger's ICR write. -/
theorem maskedReconfigurationOrder : Obligations.MaskedReconfigurationOrder := by
  intro p o dir afen afcode pull drive sig trig b ops
  have hops : ops = cfgOps p o dir afen afcode pull drive sig .none b ++ trigOps p b o trig :=
    cfgOps_eq_append_trigOps ..
  have hhead : ∀ op : MicroOp, op.reconfigures = true → op ∉ cfgOps p o dir afen afcode pull drive sig .none b :=
    fun op hr hm => by rw [not_reconfigures_of_mem op hm] at hr; cases hr
  clear_value ops
  subst hops
  generalize cfgOps p o dir afen afcode pull drive sig .none b = head at hhead ⊢
  have hw1c := hhead (.w1c p b o) rfl
  have hset := hhead (.bset p b .im o) rfl
  have hclear := hhead (.bclr p b .im o) rfl
  refine ⟨fun htrig => ?edge, fun htrig => ?level, fun htrig => ?none⟩
  case edge =>
    obtain ⟨t, ht, hi⟩ := trigBits_of_edge htrig
    have hsense := fun op => ne_of_mem_senseOps (p := p) (b := b) (o := o) (t := t) (op := op)
    refine ⟨head, senseOps p b o t, [], by simp only [trigOps_edge ht hi, List.append_assoc, List.nil_append], ?_, ?_, ?_⟩
    · simpa [hw1c] using fun h => (hsense _ h).1 rfl
    · simpa [hset] using fun h => (hsense _ h).2.1 rfl
    · simpa [hclear] using fun h => (hsense _ h).2.2 rfl
  case level =>
    obtain ⟨t, ht, hi⟩ := trigBits_of_level htrig
    rw [trigOps_level ht hi]
    refine ⟨?_, head, senseOps p b o t, by simp only [List.append_assoc]⟩
    simpa [hw1c] using fun h => (ne_of_mem_senseOps h).1 rfl
  case none =>
    subst htrig
    rw [show trigOps p b o .none = [] from rfl, List.append_nil]
    refine ⟨hw1c, ?_⟩
    rintro x (rfl | rfl | rfl | rfl) <;> exact ⟨hhead _ rfl, hhead _ rfl⟩

end Sys2Proof.Machine
end

section
/-! PROOF. What the register micro-operations do (O47), and the commands of one micro-operation (O46). -/

namespace Sys2Proof.Machine

/-! ### A single bit written to a register (R181) -/

theorem zext_low (w : Byte) : (zext w).setWidth 8 = w := by
  refine byte_ext fun k => ?_
  rw [low_bit, zext_bit]

theorem zext_putBit (v : Bool) (a : Byte) (o : Off) :
    zext (putBit v a o) = if v then zext a ||| bitWord o else zext a &&& ~~~bitWord o := by
  refine BitVec.eq_of_getLsbD_eq fun k hk => ?_
  have ho : o.val < 32 := by omega
  cases v
  · rw [putBit, if_neg nofun, if_neg nofun, zext_bit, clearBit_getLsbD _ _ _ o.isLt, BitVec.getLsbD_and, zext_bit,
      BitVec.getLsbD_not, bitWord_getLsbD _ _ ho, decide_eq_true hk, Bool.true_and]
  · rw [putBit, if_pos rfl, if_pos rfl, zext_bit, setBit_getLsbD _ _ _ o.isLt, BitVec.getLsbD_or, zext_bit,
      bitWord_getLsbD _ _ ho]

/-- BSET (`v` true) and BCLR (`v` false) write the byte the register reads as, with the bit replaced. -/
theorem runOp_putBit {s : State} {p : Port} {b : Bus} {x : Reg} {old : Byte} {r' : PortRegs} (v : Bool) (o : Off)
    (h : Accessible p b s) (hread : readReg (s.port p) x = zext old)
    (hwrite : writeReg s.par.profile (s.draw .spurious) x (zext (putBit v old o)) (s.port p) = r') :
    runOp (if v then .bset p b x o else .bclr p b x o) s = .done
      { s with
        regs := s.regs.set p r'
        trace := s.trace ++ [.write (regAddr s.par.map p b x) ((putBit v old o).setWidth 32)] } := by
  have hval : zext (putBit v old o) =
      if v then regRead p x s ||| bitWord o else regRead p x s &&& ~~~bitWord o := by
    rw [zext_putBit, regRead, hread]
  have hrun : runOp (if v then .bset p b x o else .bclr p b x o) s = opWrite p b x (zext (putBit v old o)) s := by
    rw [hval]
    cases v <;> rfl
  rw [hrun, opWrite_ready h, ← hwrite]
  rfl

/-! ### What the named bit and its siblings become (R260 to R262, R265) -/

theorem onlyBit_merge (prof : Profile) (r : PortRegs) (v : Bool) (old : Byte) (o : Off) :
    OnlyBit o (if committed prof r o then v else old.getLsbD o) old (merge (commitMask prof r) old (putBit v old o)) := by
  intro k
  rw [merge_bit, commitMask_bit, putBit_bit]
  by_cases h : k = o
  · subst h
    simp only [if_true]
  · simp only [if_neg h, ite_self]

theorem andNot_siblingClear_bit (prof : Profile) (old w : Byte) (k : Off) :
    (old &&& ~~~siblingClear prof w).getLsbD k = (old.getLsbD k && !(decide (prof = .tm4c123) && w.getLsbD k)) := by
  rw [BitVec.getLsbD_and, BitVec.getLsbD_not, siblingClear_bit, decide_eq_true k.isLt, Bool.true_and,
    Bool.and_comm (w.getLsbD k)]
  rfl

/-- Under `TM4C123` a pull register clears in the other one the committed bits that are 1 in the value. -/
theorem andNot_siblingClear_commit_bit (prof : Profile) (r : PortRegs) (old w : Byte) (k : Off) :
    (old &&& ~~~siblingClear prof (w &&& commitMask prof r)).getLsbD k =
      (old.getLsbD k && !(decide (prof = .tm4c123) && w.getLsbD k && r.cr.getLsbD k)) := by
  rw [andNot_siblingClear_bit, BitVec.getLsbD_and, commitMask_bit, Bool.and_assoc]
  cases prof <;> rfl

theorem onlyBit_spurious (v : Bool) (old noise ris : Byte) (o : Off) :
    OnlyBit o (ris.getLsbD o || (old.getLsbD o != v && noise.getLsbD o)) ris
      (spurious (old ^^^ putBit v old o) noise ris) := by
  intro k
  rw [spurious, BitVec.getLsbD_or, BitVec.getLsbD_and, BitVec.getLsbD_xor, putBit_bit]
  by_cases h : k = o
  · subst h
    simp only [if_true]
  · simp only [if_neg h, Bool.xor_self, Bool.false_and, Bool.or_false]

theorem onlyBit_w1c (ris : Byte) (o : Off) : OnlyBit o false ris (ris &&& ~~~(bitWord o).setWidth 8) := by
  intro k
  rw [BitVec.getLsbD_and, BitVec.getLsbD_not, low_bit, bitWord_getLsbD _ _ (by omega), decide_eq_true k.isLt,
    Bool.true_and]
  by_cases h : k = o
  · simp [h]
  · simp [-BitVec.getLsbD_eq_getElem, h, mt Fin.ext h]

/-- Settles O47: each BSET and BCLR is `runOp_putBit`, with the register write of R256 and what its byte is, bit by
bit; NIB and W1C are the writes of PCTL and ICR. -/
theorem microOperationEffects : Obligations.MicroOperationEffects := by
  intro s p b o h r clears clearsCommitted free
  have hclears : ∀ w old, clears w old (old &&& ~~~siblingClear s.par.profile w) :=
    fun w old => andNot_siblingClear_bit _ old w
  have hcommitted : ∀ w old,
      clearsCommitted w old (old &&& ~~~siblingClear s.par.profile (w &&& commitMask s.par.profile r)) :=
    fun w old => andNot_siblingClear_commit_bit _ r old w
  refine ⟨fun v => ?bits, fun c => ?nib, ?w1c⟩
  case nib =>
    exact ⟨nibValue r.pctl o c, fun k => nibValue_field r.pctl o k c, opWrite_ready h .pctl _⟩
  case w1c => exact ⟨_, onlyBit_w1c r.ris o, opWrite_ready h .icr (bitWord o)⟩
  case bits =>
    intro does committedTo drawn
    have hdoes : ∀ {x old r'}, readReg r x = zext old →
        writeReg s.par.profile (s.draw .spurious) x (zext (putBit v old o)) r = r' →
        does x (putBit v old o) r' := fun hread hwrite => runOp_putBit v o h hread hwrite
    have hcommit : ∀ old, committedTo old (merge (commitMask s.par.profile r) old (putBit v old o)) :=
      fun old => onlyBit_merge s.par.profile r v old o
    have hdrawn : ∀ old, drawn old (spurious (old ^^^ putBit v old o) (s.draw .spurious) r.ris) :=
      fun old => onlyBit_spurious v old (s.draw .spurious) r.ris o
    refine ⟨?dir, ?im, ?odr, ?amsel, ?afsel, ?den, ?pur, ?pdr, ?dr2r, ?dr4r, ?dr8r, ?is, ?ibe, ?iev⟩
    case dir | im | odr | amsel => exact ⟨_, onlyBit_putBit v _ o, hdoes rfl (by simp only [writeReg, zext_low])⟩
    case afsel | den =>
      exact ⟨_, _, onlyBit_putBit v _ o, hcommit _, hdoes rfl (by simp only [writeReg, zext_low])⟩
    case pur | pdr =>
      exact ⟨_, _, _, onlyBit_putBit v _ o, hcommit _, hcommitted _ _, hdoes rfl (by simp only [writeReg, zext_low])⟩
    case dr2r | dr4r | dr8r =>
      exact ⟨_, _, _, onlyBit_putBit v _ o, hclears _ _, hclears _ _, hdoes rfl (by simp only [writeReg, zext_low])⟩
    case is | ibe | iev =>
      exact ⟨_, _, onlyBit_putBit v _ o, hdrawn _, hdoes rfl (by simp only [writeReg, zext_low])⟩

/-! ### The commands of one micro-operation (R199, R200) -/

/-- A step of the sequencer at the last micro-operation of its list completes the command (R51, R182). -/
theorem seqRun_last {s u : State} {cmd : Instr} {ops : List MicroOp} {i : Nat} {op : MicroOp}
    (hs : s.seq = .busy cmd ops i) (ho : ops[i]? = some op) (hr : runOp op (beginStep s) = .done u)
    (hl : i + 1 = ops.length) : seqRun 1 s = endOfStep (complete 0 (completionAux u.par cmd) u) := by
  rw [seqRun, seqRun, sequencerStep_done (s := beginStep s) hs ho hr, advance_last hl]

theorem endOfStep_keeps_ports {s u : State} (h : u.regs = s.regs) (q : Port) :
    (endOfStep u).port q = { s.port q with ris := ((endOfStep u).port q).ris } := by
  rw [← erase_eq_iff, erase_endOfStep, State.port, h, State.port]

/-- Settles O46: the one micro-operation sets or clears the gate and is followed by the end of its step. -/
theorem clockCommandsComplete : Obligations.ClockCommandsComplete := by
  intro s q p rcgcAddr
  refine ⟨fun hs => ?clken, fun hs => ?clkdis⟩
  case clken =>
    rw [seqRun_last hs rfl rfl rfl]
    refine ⟨rfl, rfl, fun p' => gateSet_gateOn p p' s, fun p' => ?ready, endOfStep_keeps_ports rfl, rfl, rfl,
      ⟨rfl, rfl, rfl, rfl, rfl, rfl⟩, rfl⟩
    exact (gateSet_isReady p p' (beginStep s)).trans (congrArg _ (Bool.and_comm ..))
  case clkdis =>
    rw [seqRun_last hs rfl rfl rfl]
    exact ⟨rfl, rfl, fun p' => ⟨clearBit_port s.rcgc p p', clearBit_port s.ready p p'⟩, endOfStep_keeps_ports rfl,
      rfl, rfl, ⟨rfl, rfl, rfl, rfl, rfl, rfl⟩, rfl⟩

end Sys2Proof.Machine
end

section
/-! PROOF. The run of a command that configures a pin (R184 to R190, R222): step 1, the micro-operations on the port's
registers, and the last two of an ARM; its trace (O40), and its fault at a disabled aperture (O41). -/

namespace Sys2Proof.Machine

/-! ### The list of a command that configures a pin -/

/-- The list of a CFG is step 1 and its register micro-operations; an ARM adds the slot and the line's enable. -/
theorem expand_configures {par : Params} {cmd : Instr} {p : Port} {o : Off} {trig : Trig} {bus : Bus}
    (h : Configures par cmd p o trig bus) :
    ∃ dir afen afcode pull drive sig post,
      expand par cmd =
        .clkSet p :: .waitRdy p :: (cfgTail p o dir afen afcode pull drive sig trig bus ++ post) ∧
      ((post = [] ∧ ∀ pin, cmd ≠ .arm pin trig bus) ∨ post = [MicroOp.armSet p o, .irqEn (par.irqLine.get p)]) := by
  obtain ⟨pin, rfl, rfl, ⟨dir, afen, afcode, pull, drive, sig, rfl⟩ | ⟨hv, rfl⟩⟩ := h
  · refine ⟨dir, afen, afcode, pull, drive, sig, [], ?_, .inl ⟨rfl, nofun⟩⟩
    rw [List.append_nil]
    exact cfgOps_eq_tail ..
  · refine ⟨.input, false, 0, .up, .ma8, .digital, _, ?_, .inr rfl⟩
    have he : expand par (.arm pin trig bus) = armOps par _ _ trig bus := if_pos hv
    rw [he, armOps, cfgOps_eq_tail, List.cons_append, List.cons_append]

theorem cfgTail_ne_nil {p o dir afen afcode pull drive sig trig b} :
    cfgTail p o dir afen afcode pull drive sig trig b ≠ [] := List.cons_ne_nil _ _

/-! ### The run over a part of the list -/

/-- What a run leaves that starts under way and has performed step 1, from the `i`-th micro-operation on, and the
register micro-operations `mid`. -/
structure PinRun (p : Port) (mid : List MicroOp) (i : Nat) (s t : State) : Prop where
  rcgc : t.rcgc = setBit s.rcgc p.index
  gate : t.gateOn p = true
  ready : t.isReady p = true
  armt : t.armt = s.armt
  en : t.en = s.en
  frame : RunFrame s t
  effect : erase (t.port p) = listEffect s.par.profile mid (erase (s.port p))
  others : ∀ q, q ≠ p → erase (t.port q) = erase (s.port q)
  trace : ∃ values : List Word, values.length = mid.length ∧
    t.trace = s.trace
      ++ (if i = 0 then [Event.write s.par.map.rcgcAddr ((setBit s.rcgc p.index).setWidth 32)] else [])
      ++ List.zipWith Event.write (mid.map (opAddr s.par.map)) values

theorem runFrame_trans {s t u : State} (h : RunFrame s t) (g : RunFrame t u) : RunFrame s u :=
  ⟨g.act.trans h.act, g.pri.trans h.pri, g.stack.trans h.stack, g.par.trans h.par, g.stream.trans h.stream,
    g.xline.trans h.xline⟩

theorem ClockRun.then_regRun {p : Port} {mid : List MicroOp} {i : Nat} {s t u : State} (h : ClockRun p i s t)
    (g : RegRun p mid t u) : PinRun p mid i s u := by
  obtain ⟨values, hlen, htrace⟩ := g.trace
  rw [h.frame.par] at htrace
  refine ⟨g.rcgc.trans h.rcgc, ?gate, ?ready, g.armt.trans h.armt, g.en.trans h.en,
    runFrame_trans h.frame g.frame, ?effect, fun q hq => (g.others q hq).trans (h.ports q), values, hlen, by rw [htrace, h.trace]⟩
  case gate =>
    rw [State.gateOn, g.rcgc]
    exact h.gate
  case ready =>
    rw [State.isReady, g.ready]
    exact h.ready
  case effect =>
    rw [g.effect, h.frame.par, h.ports p]
    rfl

/-- A run under way, over step 1 and the register micro-operations `mid` after it: it comes to the micro-operation
after them, or, where they end the list, to the command's completion. -/
theorem seqRun_pin {p : Port} {b : Bus} {cmd : Instr} {mid post : List MicroOp} {i : Nat} {s : State}
    (hu : Underway cmd p i s) (he : expand s.par cmd = .clkSet p :: .waitRdy p :: (mid ++ post))
    (hmid : ∀ op ∈ mid, RegOp p b op) (hne : mid ≠ []) (ha : b = .ahb → s.par.ahbEnabled.get p = true) :
    let t := seqRun (2 - i + mid.length) s
    PinRun p mid i s t ∧ (post ≠ [] → t.seq = .busy cmd (expand s.par cmd) (2 + mid.length)) ∧
      (post = [] → t.seq = .idle ∧ t.resp = ⟨.ok, 0, 0, completionAux s.par cmd⟩) := by
  obtain ⟨hclock, hseq⟩ := seqRun_underway hu he (by simp [hne])
  have hacc : Accessible p b (seqRun (2 - i) s) :=
    ⟨by rw [hclock.frame.par]; exact ha, hclock.gate, hclock.ready⟩
  obtain ⟨hrun, hmore, hlast⟩ := seqRun_regOps mid [.clkSet p, .waitRdy p] post
    (by rw [hseq, List.append_assoc]; rfl) hmid hacc hne
  rw [← seqRun_add] at hrun hmore hlast
  refine ⟨hclock.then_regRun hrun, fun hp => ?_, fun hp => ?_⟩
  · rw [hmore hp, he, List.append_assoc]
    rfl
  · obtain ⟨hidle, hresp⟩ := hlast hp
    rw [hclock.frame.par] at hresp
    exact ⟨hidle, hresp⟩

/-! ### The last two micro-operations of an ARM (R222) -/

/-- A step of the sequencer at a micro-operation that is not the last of its list (R51). -/
theorem seqRun_more {s u : State} {cmd : Instr} {ops : List MicroOp} {i : Nat} {op : MicroOp}
    (hs : s.seq = .busy cmd ops i) (ho : ops[i]? = some op) (hr : runOp op (beginStep s) = .done u)
    (hl : i + 1 < ops.length) : seqRun 1 s = endOfStep { u with seq := .busy cmd ops (i + 1) } := by
  rw [seqRun, seqRun, sequencerStep_done (s := beginStep s) hs ho hr, advance_more hl]

/-- What ARMSET and IRQEN leave when they end the list of `cmd`. -/
structure RoutingRun (cmd : Instr) (p : Port) (o : Off) (n : Nat) (s t : State) : Prop where
  seq : t.seq = .idle
  resp : t.resp = ⟨.ok, 0, 0, completionAux s.par cmd⟩
  rcgc : t.rcgc = s.rcgc
  ready : t.ready = s.ready
  armt : t.armt = s.armt.set p (some o)
  en : t.en = addLine s.en n
  frame : RunFrame s t
  ports : ∀ q, erase (t.port q) = erase (s.port q)
  trace : t.trace = s.trace ++ [Event.write (setEnaAddr s.par.map n) (bitWord (n % 32))]

theorem seqRun_routing {cmd : Instr} {p : Port} {o : Off} {n : Nat} {pre : List MicroOp} {s : State}
    (hs : s.seq = .busy cmd (pre ++ [MicroOp.armSet p o, .irqEn n]) pre.length) :
    RoutingRun cmd p o n s (seqRun 2 s) := by
  have h1 : seqRun 1 s = endOfStep _ := seqRun_more (op := .armSet p o) hs (by simp) rfl (by simp)
  have hs1 : (seqRun 1 s).seq = .busy cmd (pre ++ [MicroOp.armSet p o, .irqEn n]) (pre.length + 1) := by rw [h1]; rfl
  have h2 : seqRun 2 s = endOfStep _ :=
    (seqRun_add 1 1 s).trans (seqRun_last (op := .irqEn n) hs1 (by simp) rfl (by simp))
  rw [h2, h1]
  refine ⟨rfl, rfl, rfl, rfl, rfl, rfl, ⟨rfl, rfl, rfl, rfl, rfl, rfl⟩, fun q => ?_, rfl⟩
  rw [erase_endOfStep]
  exact erase_endOfStep _ q

/-! ### The trace (O40) -/

/-- The address of a micro-operation's event, none for one that emits nothing (R180, R181). -/
def eventAddr (m : AddressMap) : MicroOp → Option Word
  | .waitRdy _ | .armSet _ _ | .armClr _ => none
  | op => some (opAddr m op)

theorem eventAddr_of_regOp {p : Port} {b : Bus} {op : MicroOp} (h : RegOp p b op) (m : AddressMap) :
    eventAddr m op = some (opAddr m op) := by
  rcases h with ⟨x, o, -, -, rfl | rfl⟩ | ⟨o, c, rfl⟩ | ⟨o, rfl⟩ <;> rfl

theorem filterMap_eventAddr {p : Port} {b : Bus} {mid : List MicroOp} (h : ∀ op ∈ mid, RegOp p b op)
    (m : AddressMap) : mid.filterMap (eventAddr m) = mid.map (opAddr m) := by
  rw [← List.filterMap_eq_map]
  exact List.filterMap_congr fun op hop => eventAddr_of_regOp (h op hop) m

/-- The addresses of the events of a list that starts with step 1, from its `i`-th micro-operation on. -/
theorem filterMap_eventAddr_drop {i : Nat} (hi : i = 0 ∨ i = 1) (m : AddressMap) (p : Port) (rest : List MicroOp) :
    ((MicroOp.clkSet p :: .waitRdy p :: rest).drop i).filterMap (eventAddr m) =
      (if i = 0 then [m.rcgcAddr] else []) ++ rest.filterMap (eventAddr m) := by
  rcases hi with rfl | rfl <;> rfl

theorem zipWith_clock_events (i : Nat) (a gates : Word) (addrs values : List Word) :
    List.zipWith Event.write ((if i = 0 then [a] else []) ++ addrs) ((if i = 0 then [gates] else []) ++ values) =
      (if i = 0 then [Event.write a gates] else []) ++ List.zipWith Event.write addrs values := by
  split <;> rfl

/-- The steps of a run under way that are left, by the parts of the list. -/
theorem length_sub_of_underway {cmd : Instr} {p : Port} {i : Nat} {s : State} (hu : Underway cmd p i s)
    {par : Params} {q : Port} {mid post : List MicroOp}
    (he : expand par cmd = .clkSet q :: .waitRdy q :: (mid ++ post)) :
    (expand par cmd).length - i = 2 - i + mid.length + post.length := by
  have hi : i ≤ 1 := by obtain ⟨-, ⟨rfl, -⟩ | ⟨rfl, -⟩⟩ := hu <;> decide
  rw [he, List.length_cons, List.length_cons, List.length_append]
  omega

/-- The last two steps of an ARM's run, from where its register micro-operations end. -/
theorem seqRun_armTail {cmd : Instr} {p : Port} {o : Off} {n : Nat} {mid : List MicroOp} {s t : State}
    (he : expand s.par cmd = .clkSet p :: .waitRdy p :: (mid ++ [MicroOp.armSet p o, .irqEn n]))
    (hs : t.seq = .busy cmd (expand s.par cmd) (2 + mid.length)) : RoutingRun cmd p o n t (seqRun 2 t) := by
  refine seqRun_routing (pre := .clkSet p :: .waitRdy p :: mid) ?_
  rw [hs, he, Nat.add_comm]
  rfl

/-- Settles O40: the events of step 1, of the register micro-operations (`seqRun_pin`) and of an ARM's last two
(`seqRun_armTail`), put together. -/
theorem cfgTraceFollowsList : Obligations.CfgTraceFollowsList := by
  intro s cmd p o trig bus i hc hu ha setEna addrs
  obtain ⟨dir, afen, afcode, pull, drive, sig, post, he, hpost⟩ := expand_configures hc
  have hi : i = 0 ∨ i = 1 := hu.2.imp And.left And.left
  have haddrs : addrs = (if i = 0 then [s.par.map.rcgcAddr] else []) ++
      (cfgTail p o dir afen afcode pull drive sig trig bus ++ post).filterMap (eventAddr s.par.map) := by
    rw [← filterMap_eventAddr_drop hi, ← he]
    exact congrArg (List.filterMap · _) (funext fun op => by cases op <;> rfl)
  clear_value addrs
  have hmid := cfgTail_regOp p o dir afen afcode pull drive sig trig bus
  have hlen := length_sub_of_underway hu he
  obtain ⟨hrun, hmore, -⟩ := seqRun_pin hu he hmid cfgTail_ne_nil ha
  rw [List.filterMap_append, filterMap_eventAddr hmid] at haddrs
  generalize cfgTail p o dir afen afcode pull drive sig trig bus = mid at *
  obtain ⟨values, hvalues, htrace⟩ := hrun.trace
  rw [List.append_assoc] at htrace
  let gates : List Word := if i = 0 then [(setBit s.rcgc p.index).setWidth 32] else []
  have hhead : ∀ l, i = 0 → (gates ++ l).head? = some ((setBit s.rcgc p.index).setWidth 32) := by
    rintro l rfl
    rfl
  have hgates : gates.length = (if i = 0 then [s.par.map.rcgcAddr] else []).length := by
    simp only [gates]
    split <;> rfl
  rw [hlen, haddrs]
  obtain ⟨rfl, hcfg⟩ | rfl := hpost
  case inl =>
    refine ⟨gates ++ values, ?_, by simp [hgates, hvalues], hhead _, fun pin h => absurd h (hcfg pin)⟩
    rw [List.filterMap_nil, List.append_nil, zipWith_clock_events]
    exact htrace
  case inr =>
    have harm := seqRun_armTail he (hmore (List.cons_ne_nil _ _))
    have harmTrace := harm.trace
    rw [hrun.frame.par, htrace, List.append_assoc, List.append_assoc] at harmTrace
    have haddr : [MicroOp.armSet p o, .irqEn (s.par.irqLine.get p)].filterMap (eventAddr s.par.map) =
      [setEnaAddr s.par.map (s.par.irqLine.get p)] := rfl
    rw [haddr]
    refine ⟨gates ++ (values ++ [bitWord (s.par.irqLine.get p % 32)]), ?_, ?_, hhead _, fun pin _ => ⟨?_, ?_⟩⟩
    · rw [seqRun_add, zipWith_clock_events, List.zipWith_append (by rw [List.length_map, hvalues])]
      exact harmTrace
    · simp [hgates, hvalues]
    · rw [← List.append_assoc, List.getLast?_concat]
      rfl
    · rw [← List.append_assoc, List.getLast?_concat]
      rfl

/-! ### The disabled aperture (O41) -/

/-- BSET and BCLR through a disabled AHB aperture fault at the address of the register they would write (R197). -/
theorem runOp_bitOp_ahbOff {s : State} {p : Port} (h : s.par.ahbEnabled.get p = false) (v : Bool) (x : Reg) (o : Off) :
    runOp (bitOp v p .ahb x o) s = .fault .ahbOff (regAddr s.par.map p .ahb x) := by
  have hcheck : accessFault p .ahb s = some .ahbOff := if_pos ⟨rfl, h⟩
  have hwrite : ∀ d, opWrite p .ahb x d s = .fault .ahbOff (regAddr s.par.map p .ahb x) := fun d => by
    simp only [opWrite, hcheck]
  cases v
  · exact hwrite _
  · exact hwrite _

/-- Settles O41: after step 1 the sequencer stands at the micro-operation on DIR, whose access check fails. -/
theorem cfgFaultsAhbOff : Obligations.CfgFaultsAhbOff := by
  intro s cmd p o trig i hc hu hoff a t
  obtain ⟨dir, afen, afcode, pull, drive, sig, post, he, -⟩ := expand_configures hc
  obtain ⟨hclock, hseq⟩ := seqRun_underway hu he (by simp [cfgTail_ne_nil])
  have ht : t = seqRun 1 (seqRun (2 - i) s) := by
    rw [← seqRun_add]
    obtain ⟨-, ⟨rfl, -⟩ | ⟨rfl, -⟩⟩ := hu <;> rfl
  clear_value t
  generalize seqRun (2 - i) s = m at *
  have hpar : (beginStep m).par = s.par := hclock.frame.par
  have hfault := runOp_bitOp_ahbOff (s := beginStep m) (by rw [hpar]; exact hoff) (dir == .output) .dir o
  rw [hpar] at hfault
  have hrun : t = endOfStep (raiseFault .ahbOff a (beginStep m)) :=
    ht.trans (congrArg endOfStep (sequencerStep_fault (s := beginStep m) hseq rfl hfault))
  rw [hrun]
  refine ⟨rfl, rfl, hclock.gate, fun q => ?ports, hclock.armt, hclock.en, ?frame, ?trace⟩
  case ports =>
    rw [← erase_eq_iff, erase_endOfStep]
    exact hclock.ports q
  case frame =>
    obtain ⟨hact, hpri, hstack, hpar, hstream, hxline⟩ := hclock.frame
    exact ⟨hact, hpri, hstack, hpar, hstream, hxline⟩
  case trace => exact congrArg (· ++ [Event.fault .ahbOff a]) hclock.trace

end Sys2Proof.Machine
end

section
/-! PROOF. What a completed CFG leaves in its port's registers, and that the same CFG leaves nothing more to do (O39,
O43). Each step of the list is one lemma on the bytes it changes. -/

namespace Sys2Proof.Machine

/-! ### A byte in which one bit is replaced (R195) -/

theorem onlyBit_self {o : Off} {v : Bool} {old new : Byte} (h : OnlyBit o v old new) : new.getLsbD o = v := by
  rw [h o, if_pos rfl]

/-- A replaced bit that was there already leaves the byte as it was. -/
theorem eq_of_onlyBit {o : Off} {v : Bool} {old new : Byte} (h : OnlyBit o v old new) (hv : old.getLsbD o = v) :
    new = old := by
  refine byte_ext fun k => ?_
  rw [h k]
  split
  next hk => rw [hk, hv]
  next => rfl

theorem onlyBit_refl (o : Off) (a : Byte) : OnlyBit o (a.getLsbD o) a a := by
  intro k
  split
  next h => rw [h]
  next => rfl

theorem onlyBit_setBit (o : Off) (a : Byte) : OnlyBit o true a (setBit a o) := onlyBit_putBit true a o

/-- A gated write of the bit reaches it where it is committed (R262). -/
theorem onlyBit_merge_setBit (prof : Profile) (r : PortRegs) (old : Byte) (o : Off) :
    OnlyBit o (old.getLsbD o || committed prof r o) old (merge (commitMask prof r) old (setBit old o)) := by
  have h : OnlyBit o (if committed prof r o then true else old.getLsbD o) old
      (merge (commitMask prof r) old (setBit old o)) := onlyBit_merge prof r true old o
  cases hc : committed prof r o
  · rw [hc] at h
    rw [Bool.or_false]
    exact h
  · rw [hc] at h
    rw [Bool.or_true]
    exact h

/-- A write that sets bit `o` of `a` clears in a sibling disjoint from `a` at most that bit: under `TM4C123`, and where
the write's mask `m` has it (R260, R261). -/
theorem onlyBit_siblingClear {prof : Profile} {a old : Byte} (h : prof = .tm4c123 → a &&& old = 0) (m : Byte) (o : Off) :
    OnlyBit o (old.getLsbD o && !(prof == .tm4c123 && m.getLsbD o)) old
      (old &&& ~~~siblingClear prof (setBit a o &&& m)) := by
  intro k
  rw [andNot_siblingClear_bit, BitVec.getLsbD_and, setBit_getLsbD _ _ _ o.isLt]
  by_cases hk : k = o
  · subst hk
    rw [if_pos rfl, decide_eq_true rfl, Bool.or_true, Bool.true_and]
    rfl
  · rw [if_neg hk, decide_eq_false (mt Fin.ext hk), Bool.or_false]
    cases prof with
    | neutral => exact Bool.and_true _
    | tm4c123 =>
      have hd : (a &&& old).getLsbD k = false := by rw [h rfl]; exact BitVec.getLsbD_zero
      rw [BitVec.getLsbD_and] at hd
      cases ha : a.getLsbD k
      · exact Bool.and_true _
      · rw [ha, Bool.true_and] at hd
        rw [hd, Bool.false_and]

/-- Without a mask: the sibling's bit stays under `NEUTRAL` alone (R260). -/
theorem onlyBit_siblingClear_drive {prof : Profile} {a old : Byte} (h : prof = .tm4c123 → a &&& old = 0) (o : Off) :
    OnlyBit o (old.getLsbD o && prof == .neutral) old (old &&& ~~~siblingClear prof (setBit a o)) := by
  have hmask := onlyBit_siblingClear h (BitVec.allOnes 8) o
  rw [BitVec.and_allOnes, BitVec.getLsbD_allOnes, decide_eq_true o.isLt, Bool.and_true] at hmask
  cases prof <;> exact hmask

/-- What `SiblingInv` asks of one port's registers (R260, R261). -/
def SiblingsApart (prof : Profile) (r : PortRegs) : Prop :=
  prof = .tm4c123 → r.dr2r &&& r.dr4r = 0 ∧ r.dr2r &&& r.dr8r = 0 ∧ r.dr4r &&& r.dr8r = 0 ∧ r.pur &&& r.pdr = 0

/-! ### The steps of the list (R187 to R191) -/

/-! The registers of a port with the bytes of one step replaced; as definitions, so that the steps compose without
their records being written into each other. -/

/-- Step 2's byte. -/
def withDir (r : PortRegs) (dir : Byte) : PortRegs := { r with dir := dir }

/-- Step 3's byte and word. -/
def withFunction (r : PortRegs) (afsel : Byte) (pctl : Word) : PortRegs := { r with afsel := afsel, pctl := pctl }

/-- Step 4's bytes. -/
def withDrive (r : PortRegs) (dr2r dr4r dr8r : Byte) : PortRegs := { r with dr2r := dr2r, dr4r := dr4r, dr8r := dr8r }

/-- Step 5's bytes. -/
def withPull (r : PortRegs) (pur pdr odr : Byte) : PortRegs := { r with pur := pur, pdr := pdr, odr := odr }

/-- Step 6's bytes. -/
def withSig (r : PortRegs) (den amsel : Byte) : PortRegs := { r with den := den, amsel := amsel }

/-- Step 7's bytes, but for RIS. -/
def withTrig (r : PortRegs) (im is ibe iev : Byte) : PortRegs := { r with im := im, is := is, ibe := ibe, iev := iev }

/-- Step 3 (R186). -/
theorem listEffect_function_bits (prof : Profile) (r : PortRegs) (afen : Bool) (p : Port) (b : Bus) (o : Off)
    (c : BitVec 4) :
    ∃ afsel pctl,
      listEffect prof (if afen then [.bset p b .afsel o, .nib p b o c] else []) (erase r) =
        erase (withFunction r afsel pctl) ∧
      OnlyBit o (r.afsel.getLsbD o || (afen && committed prof r o)) r.afsel afsel ∧
      ∀ k : Off, pctlField pctl k = if k = o ∧ afen = true then c else pctlField r.pctl k := by
  rw [listEffect_function]
  cases afen with
  | false =>
    refine ⟨_, _, rfl, ?_, fun k => (if_neg fun h => absurd h.2 nofun).symm⟩
    rw [Bool.false_and, Bool.or_false]
    exact onlyBit_refl o _
  | true =>
    refine ⟨_, _, rfl, onlyBit_merge_setBit _ _ _ o, fun k => ?_⟩
    rw [if_pos rfl, nibValue_field]
    simp only [and_true]

/-- Step 4 (R187, R260). -/
theorem listEffect_drive_bits {prof : Profile} {r : PortRegs} (h : SiblingsApart prof r) (d : Drive) (p : Port) (b : Bus)
    (o : Off) :
    ∃ x y z, listEffect prof [.bset p b (driveReg d) o] (erase r) = erase (withDrive r x y z) ∧
      OnlyBit o (d == .ma2 || (r.dr2r.getLsbD o && prof == .neutral)) r.dr2r x ∧
      OnlyBit o (d == .ma4 || (r.dr4r.getLsbD o && prof == .neutral)) r.dr4r y ∧
      OnlyBit o (d == .ma8 || (r.dr8r.getLsbD o && prof == .neutral)) r.dr8r z := by
  rw [listEffect_drive]
  have hcomm : ∀ {a b : Byte}, a &&& b = 0 → b &&& a = 0 := fun h => (BitVec.and_comm ..).trans h
  have h24 := fun ht => (h ht).1
  have h28 := fun ht => (h ht).2.1
  have h48 := fun ht => (h ht).2.2.1
  cases d with
  | ma2 =>
    exact ⟨_, _, _, rfl, onlyBit_setBit o _, onlyBit_siblingClear_drive h24 o, onlyBit_siblingClear_drive h28 o⟩
  | ma4 =>
    exact ⟨_, _, _, rfl, onlyBit_siblingClear_drive (hcomm <| h24 ·) o, onlyBit_setBit o _,
      onlyBit_siblingClear_drive h48 o⟩
  | ma8 =>
    exact ⟨_, _, _, rfl, onlyBit_siblingClear_drive (hcomm <| h28 ·) o, onlyBit_siblingClear_drive (hcomm <| h48 ·) o,
      onlyBit_setBit o _⟩

/-- Step 5 (R188, R261). -/
theorem listEffect_pull_bits {prof : Profile} {r : PortRegs} (h : prof = .tm4c123 → r.pur &&& r.pdr = 0) (x : Pull)
    (p : Port) (b : Bus) (o : Off) :
    ∃ up down od,
      listEffect prof (match pullReg x with | some y => [.bset p b y o] | none => []) (erase r) =
        erase (withPull r up down od) ∧
      OnlyBit o
        (match x with
         | .up => r.pur.getLsbD o || committed prof r o
         | .down => r.pur.getLsbD o && !(prof == .tm4c123 && committed prof r o)
         | .none | .openDrain => r.pur.getLsbD o) r.pur up ∧
      OnlyBit o
        (match x with
         | .down => r.pdr.getLsbD o || committed prof r o
         | .up => r.pdr.getLsbD o && !(prof == .tm4c123 && committed prof r o)
         | .none | .openDrain => r.pdr.getLsbD o) r.pdr down ∧
      OnlyBit o (r.odr.getLsbD o || x == .openDrain) r.odr od := by
  have heffect := listEffect_pull prof x p b o r
  have hodr : OnlyBit o (r.odr.getLsbD o || false) r.odr r.odr := by
    rw [Bool.or_false]
    exact onlyBit_refl o _
  have hclear : ∀ a old : Byte, (prof = .tm4c123 → a &&& old = 0) →
      OnlyBit o (old.getLsbD o && !(prof == .tm4c123 && committed prof r o)) old
        (old &&& ~~~siblingClear prof (setBit a o &&& commitMask prof r)) := by
    intro a old hd
    rw [← commitMask_bit]
    exact onlyBit_siblingClear hd _ o
  cases x with
  | none => exact ⟨_, _, _, heffect, onlyBit_refl o _, onlyBit_refl o _, hodr⟩
  | up => exact ⟨_, _, _, heffect, onlyBit_merge_setBit _ _ _ o, hclear _ _ h, hodr⟩
  | down =>
    exact ⟨_, _, _, heffect, hclear _ _ fun ht => (BitVec.and_comm ..).trans (h ht), onlyBit_merge_setBit _ _ _ o, hodr⟩
  | openDrain =>
    refine ⟨_, _, _, heffect, onlyBit_refl o _, onlyBit_refl o _, ?_⟩
    rw [show (Pull.openDrain == Pull.openDrain) = true from rfl, Bool.or_true]
    exact onlyBit_setBit o _

/-- Step 6 (R189). -/
theorem listEffect_sig_bits (prof : Profile) (r : PortRegs) (x : Sig) (p : Port) (b : Bus) (o : Off) :
    ∃ digital analog, listEffect prof [.bset p b (sigReg x) o] (erase r) = erase (withSig r digital analog) ∧
      OnlyBit o (r.den.getLsbD o || (x == .digital && committed prof r o)) r.den digital ∧
      OnlyBit o (r.amsel.getLsbD o || x == .analog) r.amsel analog := by
  rw [listEffect_sig]
  cases x with
  | digital =>
    refine ⟨_, _, rfl, onlyBit_merge_setBit _ _ _ o, ?_⟩
    rw [show (Sig.digital == Sig.analog) = false from rfl, Bool.or_false]
    exact onlyBit_refl o _
  | analog =>
    refine ⟨_, _, rfl, ?_, ?_⟩
    · rw [show (Sig.analog == Sig.digital) = false from rfl, Bool.false_and, Bool.or_false]
      exact onlyBit_refl o _
    · rw [show (Sig.analog == Sig.analog) = true from rfl, Bool.or_true]
      exact onlyBit_setBit o _

theorem onlyBit_unmask (a : Byte) (o : Off) : OnlyBit o true a (putBit true (putBit false a o) o) := by
  intro k
  rw [putBit_bit, putBit_bit]
  split <;> rfl

/-- Step 7 (R190, R191). -/
theorem listEffect_trig_bits (prof : Profile) (r : PortRegs) (x : Trig) (p : Port) (b : Bus) (o : Off) :
    ∃ im is ibe iev, listEffect prof (trigOps p b o x) (erase r) = erase (withTrig r im is ibe iev) ∧
      OnlyBit o (r.im.getLsbD o || x != .none) r.im im ∧
      OnlyBit o (match x with
        | .none => r.is.getLsbD o | .high | .low => true | .rising | .falling | .both => false) r.is is ∧
      OnlyBit o (match x with
        | .none => r.ibe.getLsbD o | .both => true | .rising | .falling | .high | .low => false) r.ibe ibe ∧
      OnlyBit o (match x with
        | .none | .both => r.iev.getLsbD o | .rising | .high => true | .falling | .low => false) r.iev iev := by
  rw [listEffect_trig]
  have him : OnlyBit o (r.im.getLsbD o || true) r.im (putBit true (putBit false r.im o) o) := by
    rw [Bool.or_true]
    exact onlyBit_unmask _ o
  cases x with
  | none =>
    refine ⟨_, _, _, _, rfl, ?_, onlyBit_refl o _, onlyBit_refl o _, onlyBit_refl o _⟩
    rw [show (Trig.none != Trig.none) = false from rfl, Bool.or_false]
    exact onlyBit_refl o _
  | both => exact ⟨_, _, _, _, rfl, him, onlyBit_putBit _ _ o, onlyBit_putBit _ _ o, onlyBit_refl o _⟩
  | rising | falling | high | low =>
    exact ⟨_, _, _, _, rfl, him, onlyBit_putBit _ _ o, onlyBit_putBit _ _ o, onlyBit_putBit _ _ o⟩

/-! ### The list as a whole (O39) -/

/-- The registers a CFG's register micro-operations leave are those its fields ask for. -/
theorem cfgResult_of_effect {prof : Profile} {p o dir afen afcode pull drive sig trig b} {r r' : PortRegs}
    (h : SiblingsApart prof r)
    (he : erase r' = listEffect prof (cfgTail p o dir afen afcode pull drive sig trig b) (erase r)) :
    CfgResult prof o dir afen afcode pull drive sig trig r r' := by
  have hdir : listEffect prof [bitOp (dir == .output) p b .dir o] (erase r) =
      erase (withDir r (putBit (dir == .output) r.dir o)) := listEffect_dir prof (dir == .output) p b o (erase r)
  generalize hr₂ : withDir r (putBit (dir == .output) r.dir o) = r₂ at hdir
  obtain ⟨afsel, pctl, hfun, hafsel, hpctl⟩ := listEffect_function_bits prof r₂ afen p b o afcode
  generalize hr₃ : withFunction r₂ afsel pctl = r₃ at hfun
  have hapart : SiblingsApart prof r₃ := by subst hr₃ hr₂; exact h
  obtain ⟨dr2r, dr4r, dr8r, hdrive, hdr2r, hdr4r, hdr8r⟩ := listEffect_drive_bits hapart drive p b o
  generalize hr₄ : withDrive r₃ dr2r dr4r dr8r = r₄ at hdrive
  have hpulls : prof = .tm4c123 → r₄.pur &&& r₄.pdr = 0 := by subst hr₄; exact fun ht => (hapart ht).2.2.2
  obtain ⟨pur, pdr, odr, hpull, hpur, hpdr, hodr⟩ := listEffect_pull_bits hpulls pull p b o
  generalize hr₅ : withPull r₄ pur pdr odr = r₅ at hpull
  obtain ⟨den, amsel, hsig, hden, hamsel⟩ := listEffect_sig_bits prof r₅ sig p b o
  generalize hr₆ : withSig r₅ den amsel = r₆ at hsig
  obtain ⟨im, is, ibe, iev, htrig, him, his, hibe, hiev⟩ := listEffect_trig_bits prof r₆ trig p b o
  have heffect : erase r' = erase (withTrig r₆ im is ibe iev) := by
    rw [he, cfgTail, listEffect_append, hdir, listEffect_append, hfun, listEffect_append, hdrive, listEffect_append]
    refine (congrArg (listEffect prof _) hpull).trans ?_
    rw [listEffect_append, hsig, htrig]
  rw [(erase_eq_iff _ _).mp heffect]
  subst hr₆ hr₅ hr₄ hr₃ hr₂
  refine ⟨onlyBit_putBit _ _ o, hafsel, hpctl, hdr2r, hdr4r, hdr8r, hodr, ?pur, ?pdr, hden, hamsel, him, ?is, ?ibe, ?iev,
    rfl, rfl, rfl, rfl, rfl, rfl⟩
  case pur => cases pull <;> exact hpur
  case pdr => cases pull <;> exact hpdr
  case is => cases trig <;> exact his
  case ibe => cases trig <;> exact hibe
  case iev => cases trig <;> exact hiev

/-! ### The run of a CFG -/

/-- A run under way of a CFG completes it, and performs step 1 and its register micro-operations. -/
theorem seqRun_cfg {s : State} {pin dir afen afcode pull drive sig trig bus} {i : Nat} :
    let cmd : Instr := .cfg pin dir afen afcode pull drive sig trig bus
    let pn := resolvePin s.par pin bus
    Underway cmd pn.port i s → (bus = .ahb → s.par.ahbEnabled.get pn.port = true) →
    let t := seqRun ((expand s.par cmd).length - i) s
    PinRun pn.port (cfgTail pn.port pn.off dir afen afcode pull drive sig trig bus) i s t ∧
      t.seq = .idle ∧ t.resp = ⟨.ok, 0, 0, 0⟩ := by
  intro cmd pn hu ha
  have he : expand s.par cmd =
      .clkSet pn.port :: .waitRdy pn.port :: (cfgTail pn.port pn.off dir afen afcode pull drive sig trig bus ++ []) := by
    rw [List.append_nil]
    exact cfgOps_eq_tail ..
  rw [length_sub_of_underway hu he]
  obtain ⟨hrun, -, hlast⟩ := seqRun_pin hu he (cfgTail_regOp _ _ _ _ _ _ _ _ _ _) cfgTail_ne_nil ha
  exact ⟨hrun, hlast rfl⟩

/-! ### Siblings over a run (R260, R261) -/

theorem portInv_opEffect {prof : Profile} {r : PortRegs} (h : PortInv prof r) (op : MicroOp) :
    PortInv prof (opEffect prof op r) := by
  have herase : ∀ {q : PortRegs}, PortInv prof q → PortInv prof (erase q) := fun hq => ⟨hq.unlocked, hq.siblings⟩
  cases op with
  | bset | bclr | nib => exact herase (portInv_writeReg h _ _ _)
  | _ => exact herase h

theorem portInv_listEffect {prof : Profile} {ops : List MicroOp} {r : PortRegs} (h : PortInv prof r) :
    PortInv prof (listEffect prof ops r) := by
  induction ops generalizing r with
  | nil => exact h
  | cons op rest ih => exact ih (portInv_opEffect h op)

theorem siblingsApart_listEffect {prof : Profile} {r : PortRegs} (h : SiblingsApart prof r) (ops : List MicroOp) :
    SiblingsApart prof (listEffect prof ops r) := by
  intro ht
  have hinv : PortInv prof r := ⟨fun hn => absurd (ht.symm.trans hn) nofun, h⟩
  exact (portInv_listEffect hinv).siblings ht

theorem PinRun.siblingInv {p : Port} {mid : List MicroOp} {i : Nat} {s t : State} (h : PinRun p mid i s t)
    (hs : SiblingInv s) : SiblingInv t := by
  intro htm q
  rw [h.frame.par] at htm
  have hport : ∀ q, SiblingsApart s.par.profile (erase (s.port q)) := fun q ht => hs ht q
  have hq : SiblingsApart s.par.profile (erase (t.port q)) := by
    by_cases hqp : q = p
    · subst hqp
      rw [h.effect]
      exact siblingsApart_listEffect (hport q) _
    · rw [h.others q hqp]
      exact hport q
  exact hq htm

/-! ### A CFG performed twice (R201, R202) -/

theorem pctl_ext {v w : Word} (h : ∀ k : Off, pctlField v k = pctlField w k) : v = w := by
  refine BitVec.eq_of_getLsbD_eq fun j hj => ?_
  have hfield := congrArg (fun c : BitVec 4 => c.getLsbD (j % 4)) (h ⟨j / 4, by omega⟩)
  have hj4 : j % 4 < 4 := Nat.mod_lt _ (by decide)
  simp only [pctlField, BitVec.getLsbD_extractLsb', hj4, decide_true, Bool.true_and, Nat.div_add_mod] at hfield
  exact hfield

theorem or_again {x y z b : Bool} (h : b = (x || y)) (hz : z = y) : b = (b || z) := by
  rw [h, hz, Bool.or_assoc, Bool.or_self]

theorem and_again {x y z b : Bool} (h : b = (x && y)) (hz : z = y) : b = (b && z) := by
  rw [h, hz, Bool.and_assoc, Bool.and_self]

theorem or_and_again {d x n b : Bool} (h : b = (d || (x && n))) : b = (d || (b && n)) := by
  subst h
  cases d
  · rw [Bool.false_or, Bool.false_or, Bool.and_assoc, Bool.and_self]
  · rfl

/-- A CFG asks for nothing more of registers that are as the same CFG left them. -/
theorem erase_eq_of_cfgResult_twice {prof : Profile} {o dir afen afcode pull drive sig trig} {r r' r'' : PortRegs}
    (h : CfgResult prof o dir afen afcode pull drive sig trig r r')
    (g : CfgResult prof o dir afen afcode pull drive sig trig r' r'') : erase r'' = erase r' := by
  obtain ⟨hdata, hslr, hlocked, hcr, hadcctl, hdmactl⟩ := g.kept
  have hcommitted : committed prof r' o = committed prof r o := by
    obtain ⟨-, -, -, hcr', -, -⟩ := h.kept
    cases prof
    · exact congrArg (BitVec.getLsbD · o) hcr'
    · rfl
  have hdir := eq_of_onlyBit g.dir (onlyBit_self h.dir)
  have hafsel := eq_of_onlyBit g.afsel (or_again (onlyBit_self h.afsel) (by rw [hcommitted]))
  have hpctl : r''.pctl = r'.pctl := by
    refine pctl_ext fun k => ?_
    rw [g.pctl k]
    split
    next hk => rw [h.pctl k, if_pos hk]
    next => rfl
  have hdr2r := eq_of_onlyBit g.dr2r (or_and_again (onlyBit_self h.dr2r))
  have hdr4r := eq_of_onlyBit g.dr4r (or_and_again (onlyBit_self h.dr4r))
  have hdr8r := eq_of_onlyBit g.dr8r (or_and_again (onlyBit_self h.dr8r))
  have hodr := eq_of_onlyBit g.odr (or_again (onlyBit_self h.odr) rfl)
  have hpur := eq_of_onlyBit g.pur (by
    have hbit := onlyBit_self h.pur
    cases pull with
    | up => exact or_again hbit hcommitted
    | down => exact and_again hbit (by rw [hcommitted])
    | none | openDrain => rfl)
  have hpdr := eq_of_onlyBit g.pdr (by
    have hbit := onlyBit_self h.pdr
    cases pull with
    | up => exact and_again hbit (by rw [hcommitted])
    | down => exact or_again hbit hcommitted
    | none | openDrain => rfl)
  have hden := eq_of_onlyBit g.den (or_again (onlyBit_self h.den) (by rw [hcommitted]))
  have hamsel := eq_of_onlyBit g.amsel (or_again (onlyBit_self h.amsel) rfl)
  have him := eq_of_onlyBit g.im (or_again (onlyBit_self h.im) rfl)
  have his := eq_of_onlyBit g.is (by
    have hbit := onlyBit_self h.is
    cases trig with
    | none => rfl
    | _ => exact hbit)
  have hibe := eq_of_onlyBit g.ibe (by
    have hbit := onlyBit_self h.ibe
    cases trig with
    | none => rfl
    | _ => exact hbit)
  have hiev := eq_of_onlyBit g.iev (by
    have hbit := onlyBit_self h.iev
    cases trig with
    | none | both => rfl
    | _ => exact hbit)
  simp only [erase, hdata, hdir, his, hibe, hiev, him, hafsel, hdr2r, hdr4r, hdr8r, hodr, hpur, hpdr, hslr, hden, hlocked,
    hcr, hamsel, hpctl, hadcctl, hdmactl]

/-! ### The obligations -/

/-- Settles O39: the run of `seqRun_cfg`, with the registers it leaves read by `cfgResult_of_effect`. -/
theorem cfgCompletes : Obligations.CfgCompletes := by
  intro s pin dir afen afcode pull drive sig trig bus i cmd pn hu hs ha t
  obtain ⟨hrun, hidle, hresp⟩ := seqRun_cfg hu ha
  refine ⟨hidle, hresp, ?result, fun q hq => (erase_eq_iff _ _).mp (hrun.others q hq), hrun.rcgc, hrun.ready, hrun.armt,
    hrun.en, hrun.frame⟩
  exact cfgResult_of_effect (fun ht => hs ht pn.port) hrun.effect

/-- Settles O43: the second run starts from the registers of the first (`cfgCompletes`, twice), and what a CFG asks for is
there already. -/
theorem cfgIsIdempotent : Obligations.CfgIsIdempotent := by
  intro s pin dir afen afcode pull drive sig trig bus i cmd p hu hs ha t u
  obtain ⟨hrun, -, -⟩ := seqRun_cfg hu ha
  obtain ⟨-, -, hresult, -⟩ := cfgCompletes s pin dir afen afcode pull drive sig trig bus i hu hs ha
  let s' : State := { t with seq := .busy cmd (expand s.par cmd) 0 }
  have hpar : s'.par = s.par := hrun.frame.par
  have hagain := cfgCompletes s' pin dir afen afcode pull drive sig trig bus 0
  simp only [hpar, Nat.sub_zero] at hagain
  obtain ⟨hidle, -, hresult', hothers, hrcgc, -⟩ := hagain
    ⟨by rw [hpar], .inl ⟨rfl, .inl hrun.ready⟩⟩ (hrun.siblingInv hs) ha
  refine ⟨hidle, fun q => ?_, hrcgc.trans (setBit_of_set hrun.gate)⟩
  by_cases hq : q = p
  · subst hq
    exact (erase_eq_iff _ _).mp (erase_eq_of_cfgResult_twice hresult hresult')
  · exact hothers q hq

end Sys2Proof.Machine
end

section
/-! PROOF. The pin's raw status at the end of a run with a trigger (O42): what the list leaves in the sense registers, a
step that leaves RIS to detection, and the run from the ICR write on. -/

namespace Sys2Proof.Machine

/-! ### The sense registers as a trigger sets them (R190, R191) -/

/-- The pin's bits of IS, IBE and IEV are those the trigger asks for. -/
structure SenseBits (t : TrigSetting) (o : Off) (r : PortRegs) : Prop where
  is : r.is.getLsbD o = t.is
  ibe : r.ibe.getLsbD o = t.ibe
  iev : ∀ v, t.iev = some v → r.iev.getLsbD o = v

theorem senseBits_congr {t : TrigSetting} {o : Off} {r r' : PortRegs} (h : SenseBits t o r) (his : r'.is = r.is)
    (hibe : r'.ibe = r.ibe) (hiev : r'.iev = r.iev) : SenseBits t o r' :=
  ⟨by rw [his]; exact h.is, by rw [hibe]; exact h.ibe, fun v hv => by rw [hiev]; exact h.iev v hv⟩

theorem senseBits_of_erase {t : TrigSetting} {o : Off} {r r' : PortRegs} (he : erase r' = r) (h : SenseBits t o r) :
    SenseBits t o r' := by
  subst he
  exact ⟨h.is, h.ibe, h.iev⟩

/-- An edge trigger's detector: RIS stays or is set by an edge of the kind asked for (R312). -/
theorem detectBit_edge {trig : Trig} {t : TrigSetting} {o : Off} {r : PortRegs} (ht : trigBits trig = some t)
    (hi : t.icr = true) (h : SenseBits t o r) (ris before now : Bool) :
    detectBit (r.is.getLsbD o) (r.ibe.getLsbD o) (r.iev.getLsbD o) ris before now = (ris || edgeOf trig before now) := by
  obtain ⟨his, hibe, hiev⟩ := h
  cases trig <;> cases ht
  case rising => rw [his, hibe, hiev true rfl]; rfl
  case falling => rw [his, hibe, hiev false rfl]; rfl
  case both => rw [his, hibe]; cases before <;> cases now <;> rfl
  all_goals cases hi

/-- A level trigger's detector: RIS is whether the sample is the active level (R313). -/
theorem detectBit_high {t : TrigSetting} {o : Off} {r : PortRegs} (ht : trigBits .high = some t) (h : SenseBits t o r)
    (ris before now : Bool) :
    detectBit (r.is.getLsbD o) (r.ibe.getLsbD o) (r.iev.getLsbD o) ris before now = now := by
  cases ht
  rw [h.is, h.iev true rfl]
  cases now <;> rfl

theorem detectBit_low {t : TrigSetting} {o : Off} {r : PortRegs} (ht : trigBits .low = some t) (h : SenseBits t o r)
    (ris before now : Bool) :
    detectBit (r.is.getLsbD o) (r.ibe.getLsbD o) (r.iev.getLsbD o) ris before now = !now := by
  cases ht
  rw [h.is, h.iev false rfl]
  cases now <;> rfl

/-! ### What the list leaves in them -/

theorem cfgTail_eq_append_trigOps (p o dir afen afcode pull drive sig trig b) :
    cfgTail p o dir afen afcode pull drive sig trig b =
      cfgTail p o dir afen afcode pull drive sig .none b ++ trigOps p b o trig := by
  simp only [cfgTail, trigOps, trigBits, List.append_nil, List.append_assoc]

theorem listEffect_erase (prof : Profile) (ops : List MicroOp) (r : PortRegs) :
    ∃ q, listEffect prof ops (erase r) = erase q := by
  induction ops generalizing r with
  | nil => exact ⟨r, rfl⟩
  | cons op rest ih =>
    have hop : ∃ q, opEffect prof op (erase r) = erase q := by cases op <;> exact ⟨_, rfl⟩
    obtain ⟨q, hq⟩ := hop
    obtain ⟨q', hq'⟩ := ih q
    exact ⟨q', by rw [← hq', ← hq]; rfl⟩

theorem listEffect_senseOps (prof : Profile) (p : Port) (b : Bus) (o : Off) (t : TrigSetting) (r : PortRegs) :
    SenseBits t o (listEffect prof (senseOps p b o t) (erase r)) := by
  obtain ⟨is, ibe, iev, icr⟩ := t
  have hbit : ∀ (v : Bool) (a : Byte), (putBit v a o).getLsbD o = v := fun v a => onlyBit_self (onlyBit_putBit v a o)
  cases iev with
  | none =>
    have he : listEffect prof (senseOps p b o ⟨is, ibe, none, icr⟩) (erase r) =
        erase { r with is := putBit is r.is o, ibe := putBit ibe r.ibe o } := by
      simp only [senseOps, listEffect, Option.toList_none, List.map_nil, List.append_nil, List.foldl_cons,
        List.foldl_nil, opEffect_is, opEffect_ibe]
    rw [he]
    exact ⟨hbit is r.is, hbit ibe r.ibe, nofun⟩
  | some v =>
    have he : listEffect prof (senseOps p b o ⟨is, ibe, some v, icr⟩) (erase r) =
        erase { r with is := putBit is r.is o, ibe := putBit ibe r.ibe o, iev := putBit v r.iev o } := by
      simp only [senseOps, listEffect, Option.toList_some, List.map_cons, List.map_nil, List.cons_append,
        List.nil_append, List.foldl_cons, List.foldl_nil, opEffect_is, opEffect_ibe, opEffect_iev]
    rw [he]
    refine ⟨hbit is r.is, hbit ibe r.ibe, fun w hw => ?_⟩
    cases hw
    exact hbit v r.iev

theorem senseBits_listEffect (prof : Profile) (head : List MicroOp) (p : Port) (b : Bus) (o : Off) (t : TrigSetting)
    (r : PortRegs) : SenseBits t o (listEffect prof (head ++ senseOps p b o t) (erase r)) := by
  obtain ⟨q, hq⟩ := listEffect_erase prof head r
  rw [listEffect_append, hq]
  exact listEffect_senseOps prof p b o t q

/-- The mask's last write leaves the sense registers as they are. -/
theorem senseBits_listEffect_unmask (prof : Profile) (head : List MicroOp) (p : Port) (b : Bus) (o : Off)
    (t : TrigSetting) (r : PortRegs) :
    SenseBits t o (listEffect prof (head ++ senseOps p b o t ++ [MicroOp.bset p b .im o]) (erase r)) := by
  have h := senseBits_listEffect prof head p b o t r
  obtain ⟨q, hq⟩ := listEffect_erase prof (head ++ senseOps p b o t) r
  rw [listEffect_append]
  rw [hq] at h ⊢
  exact ⟨h.is, h.ibe, h.iev⟩

/-! ### RIS over one step of the sequencer -/

/-- The pin's sample after `k` steps of the sequencer (R42). -/
def pinSample (p : Port) (o : Off) (s : State) (k : Nat) : Bool := ((seqRun k s).sampled.get p).getLsbD o

theorem pinSample_add (p : Port) (o : Off) (s : State) (j k : Nat) :
    pinSample p o (seqRun j s) k = pinSample p o s (j + k) := by
  rw [pinSample, pinSample, seqRun_add]

/-- RIS of a ready port's pin at the end of a step, from what the agent left (R312, R313). -/
theorem endOfStep_ris_bit {u : State} {p : Port} (h : u.isReady p = true) (o : Off) :
    ((endOfStep u).port p).ris.getLsbD o =
      detectBit ((u.port p).is.getLsbD o) ((u.port p).ibe.getLsbD o) ((u.port p).iev.getLsbD o)
        ((u.port p).ris.getLsbD o) ((u.sampled.get p).getLsbD o) (((endOfStep u).sampled.get p).getLsbD o) := by
  have hport : ((endOfStep u).port p).ris = detect (u.port p) (u.sampled.get p) (portInput (settle u) p) := by
    rw [endOfStep_port, if_pos h]
  rw [hport, detect_bit, endOfStep_sampled_get, if_pos h]

/-- The state a micro-operation's step ends from: what it did, and the sequencer's progress. -/
theorem seqRun_done {s u : State} {cmd : Instr} {ops : List MicroOp} {i : Nat} {op : MicroOp}
    (hs : s.seq = .busy cmd ops i) (ho : ops[i]? = some op) (hr : runOp op (beginStep s) = .done u) :
    ∃ q r, seqRun 1 s = endOfStep { u with seq := q, resp := r } ∧ (i + 1 < ops.length → q = .busy cmd ops (i + 1)) := by
  obtain ⟨hlt, -⟩ := List.getElem?_eq_some_iff.mp ho
  by_cases hl : i + 1 < ops.length
  · exact ⟨_, _, seqRun_more hs ho hr hl, fun _ => rfl⟩
  · exact ⟨_, _, seqRun_last hs ho hr (by omega), fun h => absurd h hl⟩

/-- What a micro-operation that leaves the port's clock and the pin's detection alone leaves. -/
structure SenseKept (p : Port) (s u : State) : Prop where
  rcgc : u.rcgc = s.rcgc
  ready : u.ready = s.ready
  is : (u.port p).is = (s.port p).is
  ibe : (u.port p).ibe = (s.port p).ibe
  iev : (u.port p).iev = (s.port p).iev

/-- A step at a micro-operation that keeps the sense registers: detection goes on from the RIS it left. -/
theorem seqRun_edge {s u : State} {cmd : Instr} {ops : List MicroOp} {i : Nat} {op : MicroOp} {p : Port} {b : Bus}
    {o : Off} {trig : Trig} {t : TrigSetting} (ht : trigBits trig = some t) (hi : t.icr = true)
    (hs : s.seq = .busy cmd ops i) (ho : ops[i]? = some op) (hr : runOp op (beginStep s) = .done u)
    (hk : SenseKept p (beginStep s) u) (ha : Accessible p b s) (hbits : SenseBits t o (s.port p)) :
    ((seqRun 1 s).port p).ris.getLsbD o =
        ((u.port p).ris.getLsbD o || edgeOf trig (pinSample p o s 0) (pinSample p o s 1)) ∧
      Accessible p b (seqRun 1 s) ∧ SenseBits t o ((seqRun 1 s).port p) ∧
      (i + 1 < ops.length → (seqRun 1 s).seq = .busy cmd ops (i + 1)) := by
  obtain ⟨q, r, hrun, hseq⟩ := seqRun_done hs ho hr
  have hframe := runOp_frame hr
  have hubits : SenseBits t o (u.port p) := senseBits_congr hbits hk.is hk.ibe hk.iev
  have hgate : u.gateOn p = true := by rw [State.gateOn, hk.rcgc]; exact ha.2.1
  have hready : u.isReady p = true := by rw [State.isReady, hk.ready]; exact ha.2.2
  have hris := (endOfStep_ris_bit (u := { u with seq := q, resp := r }) hready o).trans
    (detectBit_edge ht hi hubits _ _ _)
  rw [← hrun] at hris
  refine ⟨?ris, ⟨?ahb, ?gate, ?ready⟩, ?bits, fun hl => ?seq⟩
  case ris =>
    rw [hris]
    show (_ || edgeOf trig ((u.sampled.get p).getLsbD o) _) = _
    rw [hframe.sampled]
    rfl
  case ahb =>
    rw [hrun]
    show b = .ahb → u.par.ahbEnabled.get p = true
    rw [hframe.par]
    exact ha.1
  case gate => rw [hrun]; exact hgate
  case ready => rw [hrun]; exact hready
  case bits =>
    rw [hrun, endOfStep_port]
    exact ⟨hubits.is, hubits.ibe, hubits.iev⟩
  case seq => rw [hrun, ← hseq hl]; rfl

/-! ### The run from the ICR write on -/

/-- A micro-operation that leaves the pins' detection and their status alone. -/
def StatusQuiet (p : Port) (b : Bus) (op : MicroOp) : Prop :=
  ∀ s, Accessible p b s → ∃ u, runOp op s = .done u ∧ SenseKept p s u ∧ (u.port p).ris = (s.port p).ris

theorem emit_regWrite_port (e : Event) (p : Port) (x : Reg) (v : Word) (s : State) :
    (emit e (regWrite p x v s)).port p = writeReg s.par.profile (s.draw .spurious) x v (s.port p) := port_setPort s p _

theorem statusQuiet_unmask (p : Port) (b : Bus) (o : Off) : StatusQuiet p b (.bset p b .im o) := by
  intro s ha
  refine ⟨_, opWrite_ready ha .im _, ⟨rfl, rfl, ?_, ?_, ?_⟩, ?_⟩
  all_goals
    rw [emit_regWrite_port]
    rfl

theorem statusQuiet_armSet (p : Port) (b : Bus) (o : Off) : StatusQuiet p b (.armSet p o) :=
  fun _ _ => ⟨_, rfl, ⟨rfl, rfl, rfl, rfl, rfl⟩, rfl⟩

theorem statusQuiet_irqEn (p : Port) (b : Bus) (n : Nat) : StatusQuiet p b (.irqEn n) :=
  fun _ _ => ⟨_, rfl, ⟨rfl, rfl, rfl, rfl, rfl⟩, rfl⟩

/-- The ICR write clears the pin's RIS and leaves its detection alone (R181). -/
theorem runOp_w1c_status {p : Port} {b : Bus} {s : State} (ha : Accessible p b s) (o : Off) :
    ∃ u, runOp (.w1c p b o) s = .done u ∧ SenseKept p s u ∧ (u.port p).ris.getLsbD o = false := by
  refine ⟨_, opWrite_ready ha .icr _, ⟨rfl, rfl, ?is, ?ibe, ?iev⟩, ?ris⟩
  case is | ibe | iev =>
    rw [emit_regWrite_port]
    rfl
  case ris =>
    rw [emit_regWrite_port]
    exact onlyBit_self (onlyBit_w1c (s.port p).ris o)

/-- Over micro-operations to the end of the list that leave the status alone, RIS is set by an edge alone. -/
theorem seqRun_quiet {p : Port} {b : Bus} {o : Off} {cmd : Instr} {trig : Trig} {t : TrigSetting}
    (ht : trigBits trig = some t) (hi : t.icr = true) (mid : List MicroOp) :
    ∀ {s : State} (pre : List MicroOp), s.seq = .busy cmd (pre ++ mid) pre.length →
      (∀ op ∈ mid, StatusQuiet p b op) → Accessible p b s → SenseBits t o (s.port p) →
      (((seqRun mid.length s).port p).ris.getLsbD o = true ↔ (s.port p).ris.getLsbD o = true ∨
        ∃ j < mid.length, edgeOf trig (pinSample p o s j) (pinSample p o s (j + 1)) = true) := by
  induction mid with
  | nil =>
    intro s pre _ _ _ _
    simp [-BitVec.getLsbD_eq_getElem, seqRun]
  | cons op rest ih =>
    intro s pre hs hquiet ha hbits
    obtain ⟨u, hr, hk, hris⟩ := hquiet op (List.mem_cons_self ..) (beginStep s) ha
    obtain ⟨hris', ha', hbits', hseq⟩ := seqRun_edge ht hi hs (by simp) hr hk ha hbits
    have hrest : ((seqRun rest.length (seqRun 1 s)).port p).ris.getLsbD o = true ↔
        ((seqRun 1 s).port p).ris.getLsbD o = true ∨ ∃ j < rest.length,
          edgeOf trig (pinSample p o (seqRun 1 s) j) (pinSample p o (seqRun 1 s) (j + 1)) = true := by
      cases rest with
      | nil => simp [-BitVec.getLsbD_eq_getElem, seqRun]
      | cons op' rest' =>
        refine ih (pre ++ [op]) ?_ (fun op hop => hquiet op (List.mem_cons_of_mem _ hop)) ha' hbits'
        rw [hseq (by simp), List.length_append, List.append_assoc]
        rfl
    rw [List.length_cons, Nat.add_comm, seqRun_add, hrest, Nat.add_comm, Nat.exists_lt_succ_left, hris', hris, Bool.or_eq_true,
      or_assoc]
    simp only [pinSample_add, Nat.add_comm 1]
    rfl

/-- From the ICR write to the end of the list, RIS is whether an edge was sampled, that step's own sample counted
(R193). -/
theorem seqRun_from_w1c {p : Port} {b : Bus} {o : Off} {cmd : Instr} {trig : Trig} {t : TrigSetting}
    (ht : trigBits trig = some t) (hi : t.icr = true) {s : State} {pre rest : List MicroOp}
    (hs : s.seq = .busy cmd (pre ++ MicroOp.w1c p b o :: rest) pre.length) (hrest : rest ≠ [])
    (hquiet : ∀ op ∈ rest, StatusQuiet p b op) (ha : Accessible p b s) (hbits : SenseBits t o (s.port p)) :
    ((seqRun (rest.length + 1) s).port p).ris.getLsbD o = true ↔
      ∃ j < rest.length + 1, edgeOf trig (pinSample p o s j) (pinSample p o s (j + 1)) = true := by
  obtain ⟨u, hr, hk, hclear⟩ := runOp_w1c_status (s := beginStep s) ha o
  obtain ⟨hris, ha', hbits', hseq⟩ := seqRun_edge ht hi hs (by simp) hr hk ha hbits
  have hrun := seqRun_quiet ht hi rest (pre ++ [MicroOp.w1c p b o])
    (by rw [hseq (by simpa using List.length_pos_iff.mpr hrest), List.length_append, List.append_assoc]; rfl)
    hquiet ha' hbits'
  rw [Nat.add_comm, seqRun_add, hrun, Nat.add_comm, Nat.exists_lt_succ_left, hris, hclear, Bool.false_or]
  simp only [pinSample_add, Nat.add_comm 1]

/-! ### The two kinds of trigger -/

/-- The whole run of a list with an ICR write: RIS is whether an edge was sampled at or after that micro-operation's
own end of step (R193). -/
theorem ris_iff_edge_after_w1c {p : Port} {b : Bus} {o : Off} {cmd : Instr} {trig : Trig} {t : TrigSetting} {i : Nat}
    {s : State} {mid rest : List MicroOp} (ht : trigBits trig = some t) (hicr : t.icr = true)
    (hu : Underway cmd p i s) (he : expand s.par cmd = .clkSet p :: .waitRdy p :: (mid ++ MicroOp.w1c p b o :: rest))
    (hmid : ∀ op ∈ mid, RegOp p b op) (hne : mid ≠ []) (ha : b = .ahb → s.par.ahbEnabled.get p = true)
    (hbits : SenseBits t o (listEffect s.par.profile mid (erase (s.port p)))) (hrest : rest ≠ [])
    (hquiet : ∀ op ∈ rest, StatusQuiet p b op) :
    ((seqRun ((expand s.par cmd).length - i) s).port p).ris.getLsbD o = true ↔
      ∃ j, mid.length + 2 ≤ i + j ∧ i + j < (expand s.par cmd).length ∧
        edgeOf trig (pinSample p o s j) (pinSample p o s (j + 1)) = true := by
  have hi : i ≤ 1 := by obtain ⟨-, ⟨rfl, -⟩ | ⟨rfl, -⟩⟩ := hu <;> decide
  have hlen : (expand s.par cmd).length = mid.length + 2 + (rest.length + 1) := by
    rw [he]
    simp only [List.length_cons, List.length_append]
    omega
  obtain ⟨hrun, hmore, -⟩ := seqRun_pin hu he hmid hne ha
  have hacc : Accessible p b (seqRun (2 - i + mid.length) s) :=
    ⟨by rw [hrun.frame.par]; exact ha, hrun.gate, hrun.ready⟩
  have hseq : (seqRun (2 - i + mid.length) s).seq =
      .busy cmd ((MicroOp.clkSet p :: .waitRdy p :: mid) ++ MicroOp.w1c p b o :: rest) (mid.length + 2) := by
    rw [hmore (List.cons_ne_nil _ _), he, Nat.add_comm]
    rfl
  rw [length_sub_of_underway hu he, seqRun_add, List.length_cons,
    seqRun_from_w1c ht hicr hseq hrest hquiet hacc (senseBits_of_erase hrun.effect hbits)]
  simp only [pinSample_add]
  constructor
  · rintro ⟨j, hj, hedge⟩
    exact ⟨2 - i + mid.length + j, by omega, by omega, hedge⟩
  · rintro ⟨j, hw, hj, hedge⟩
    obtain ⟨k, rfl⟩ := Nat.exists_eq_add_of_le (show 2 - i + mid.length ≤ j by omega)
    exact ⟨k, by omega, hedge⟩

/-- The whole run of a command that configures a pin leaves what its register micro-operations do, and the port ready. -/
theorem seqRun_configures {p : Port} {b : Bus} {o : Off} {n : Nat} {cmd : Instr} {i : Nat} {s : State}
    {mid post : List MicroOp} (hu : Underway cmd p i s)
    (he : expand s.par cmd = .clkSet p :: .waitRdy p :: (mid ++ post)) (hmid : ∀ op ∈ mid, RegOp p b op) (hne : mid ≠ [])
    (ha : b = .ahb → s.par.ahbEnabled.get p = true) (hpost : post = [] ∨ post = [MicroOp.armSet p o, .irqEn n]) :
    let t := seqRun ((expand s.par cmd).length - i) s
    erase (t.port p) = listEffect s.par.profile mid (erase (s.port p)) ∧ t.isReady p = true := by
  obtain ⟨hrun, hmore, -⟩ := seqRun_pin hu he hmid hne ha
  rw [length_sub_of_underway hu he]
  rcases hpost with rfl | rfl
  · exact ⟨hrun.effect, hrun.ready⟩
  · have harm := seqRun_armTail he (hmore (List.cons_ne_nil _ _))
    rw [← seqRun_add] at harm
    refine ⟨(harm.ports p).trans hrun.effect, ?_⟩
    rw [State.isReady, List.length_cons, List.length_singleton, harm.ready]
    exact hrun.ready

/-- RIS of a port that is ready after a step is that step's detection (R312, R313). -/
theorem ris_of_last_step {p : Port} {s : State} {k : Nat} (hk : 0 < k) (h : (seqRun k s).isReady p = true) (o : Off) :
    ∃ ris before, ((seqRun k s).port p).ris.getLsbD o =
      detectBit (((seqRun k s).port p).is.getLsbD o) (((seqRun k s).port p).ibe.getLsbD o)
        (((seqRun k s).port p).iev.getLsbD o) ris before (pinSample p o s k) := by
  obtain ⟨n, rfl⟩ := Nat.exists_eq_succ_of_ne_zero hk.ne'
  have hrun : seqRun (n + 1) s = endOfStep (sequencerStep (beginStep (seqRun n s))) := seqRun_add n 1 s
  generalize sequencerStep (beginStep (seqRun n s)) = u at hrun
  rw [Nat.succ_eq_add_one, hrun] at h
  rw [Nat.succ_eq_add_one, pinSample, hrun]
  have his : ((endOfStep u).port p).is = (u.port p).is := by rw [endOfStep_port]
  have hibe : ((endOfStep u).port p).ibe = (u.port p).ibe := by rw [endOfStep_port]
  have hiev : ((endOfStep u).port p).iev = (u.port p).iev := by rw [endOfStep_port]
  rw [his, hibe, hiev]
  exact ⟨_, _, endOfStep_ris_bit (u := u) h o⟩

/-! ### The obligation -/

/-- The run of a command with a level trigger: the sense bits are the trigger's, and RIS is the last step's detection. -/
theorem senseBits_ris_of_level {p : Port} {b : Bus} {o : Off} {n : Nat} {cmd : Instr} {trig : Trig} {set : TrigSetting}
    {i : Nat} {s : State} {head post : List MicroOp} (ht : trigBits trig = some set) (hicr : set.icr = false)
    (hu : Underway cmd p i s) (he : expand s.par cmd = .clkSet p :: .waitRdy p :: (head ++ trigOps p b o trig ++ post))
    (hmid : ∀ op ∈ head ++ trigOps p b o trig, RegOp p b op) (ha : b = .ahb → s.par.ahbEnabled.get p = true)
    (hpost : post = [] ∨ post = [MicroOp.armSet p o, .irqEn n]) :
    let t := seqRun ((expand s.par cmd).length - i) s
    SenseBits set o (t.port p) ∧ ∃ ris before, (t.port p).ris.getLsbD o =
      detectBit ((t.port p).is.getLsbD o) ((t.port p).ibe.getLsbD o) ((t.port p).iev.getLsbD o) ris before
        (pinSample p o s ((expand s.par cmd).length - i)) := by
  have hsplit : head ++ trigOps p b o trig = head ++ [MicroOp.bclr p b .im o] ++ senseOps p b o set ++ [MicroOp.bset p b .im o] := by
    rw [trigOps_level ht hicr]
    simp only [List.append_assoc]
  have hne : head ++ trigOps p b o trig ≠ [] := by rw [hsplit]; simp
  have hpos := List.length_pos_iff.mpr hne
  have hlen := length_sub_of_underway hu he
  obtain ⟨heffect, hready⟩ := seqRun_configures hu he hmid hne ha hpost
  rw [hsplit] at heffect
  exact ⟨senseBits_of_erase heffect (senseBits_listEffect_unmask ..), ris_of_last_step (by omega) hready o⟩

/-- The run of a command with an edge trigger: the list has the ICR write, and RIS is whether an edge was sampled from
that micro-operation's own end of step on. -/
theorem w1c_ris_of_edge {p : Port} {b : Bus} {o : Off} {n : Nat} {cmd : Instr} {trig : Trig} {set : TrigSetting}
    {i : Nat} {s : State} {head post : List MicroOp} (ht : trigBits trig = some set) (hicr : set.icr = true)
    (hu : Underway cmd p i s) (he : expand s.par cmd = .clkSet p :: .waitRdy p :: (head ++ trigOps p b o trig ++ post))
    (hmid : ∀ op ∈ head ++ trigOps p b o trig, RegOp p b op) (ha : b = .ahb → s.par.ahbEnabled.get p = true)
    (hpost : post = [] ∨ post = [MicroOp.armSet p o, .irqEn n]) :
    ∃ w, (expand s.par cmd)[w]? = some (.w1c p b o) ∧
      (((seqRun ((expand s.par cmd).length - i) s).port p).ris.getLsbD o = true ↔
        ∃ j, w ≤ i + j ∧ i + j < (expand s.par cmd).length ∧
          edgeOf trig (pinSample p o s j) (pinSample p o s (j + 1)) = true) := by
  have hquiet : ∀ op ∈ MicroOp.bset p b .im o :: post, StatusQuiet p b op := by
    refine List.forall_mem_cons.mpr ⟨statusQuiet_unmask p b o, ?_⟩
    rcases hpost with rfl | rfl
    · exact List.forall_mem_nil _
    · exact List.forall_mem_cons.mpr ⟨statusQuiet_armSet p b o, List.forall_mem_cons.mpr ⟨statusQuiet_irqEn p b n, List.forall_mem_nil _⟩⟩
  have hsplit : head ++ trigOps p b o trig =
      (head ++ [MicroOp.bclr p b .im o] ++ senseOps p b o set) ++ [MicroOp.w1c p b o, .bset p b .im o] := by
    rw [trigOps_edge ht hicr]
    simp only [List.append_assoc, List.cons_append, List.nil_append]
  have hbits := senseBits_listEffect s.par.profile (head ++ [MicroOp.bclr p b .im o]) p b o set (s.port p)
  have hne : head ++ [MicroOp.bclr p b .im o] ++ senseOps p b o set ≠ [] := by simp
  generalize head ++ [MicroOp.bclr p b .im o] ++ senseOps p b o set = mid at hsplit hbits hne
  rw [hsplit] at hmid
  rw [hsplit, List.append_assoc] at he
  refine ⟨mid.length + 2, ?_, ris_iff_edge_after_w1c ht hicr hu he
    (fun op hop => hmid op (List.mem_append_left _ hop)) hne ha hbits (List.cons_ne_nil _ _) hquiet⟩
  rw [he]
  simp

/-- Settles O42: an edge trigger's RIS is that of the run from the ICR write on (`w1c_ris_of_edge`); a level trigger's is
the last sample's detection, with the sense bits the list leaves (`senseBits_ris_of_level`). -/
theorem rawStatusAfterTrigger : Obligations.RawStatusAfterTrigger := by
  intro s cmd p o trig bus i hc hu ha ops t sampleAt ris
  obtain ⟨dir, afen, afcode, pull, drive, sig, post, he, hpost⟩ := expand_configures hc
  replace hpost : post = [] ∨ post = [.armSet p o, .irqEn (s.par.irqLine.get p)] := hpost.imp_left And.left
  have hmid := cfgTail_regOp p o dir afen afcode pull drive sig trig bus
  rw [cfgTail_eq_append_trigOps] at he hmid
  refine ⟨fun htrig => ?edge, fun htrig => ?high, fun htrig => ?low⟩
  case edge =>
    obtain ⟨set, ht, hicr⟩ := trigBits_of_edge htrig
    exact w1c_ris_of_edge ht hicr hu he hmid ha hpost
  case high =>
    subst htrig
    obtain ⟨hbits, _, _, hris⟩ := senseBits_ris_of_level (set := ⟨true, false, some true, false⟩) rfl rfl hu he hmid ha hpost
    rw [detectBit_high rfl hbits] at hris
    exact hris
  case low =>
    subst htrig
    obtain ⟨hbits, _, _, hris⟩ := senseBits_ris_of_level (set := ⟨true, false, some false, false⟩) rfl rfl hu he hmid ha hpost
    rw [detectBit_low rfl hbits] at hris
    exact hris

end Sys2Proof.Machine
end

section
/-! PROOF. The commands that route a port's interrupt: the run of an ARM (O44), and that of a DEINIT (O45). -/

namespace Sys2Proof.Machine

/-! ### ARM (R221 to R225) -/

/-- The aux an ARM of a valid pin completes with is the valid bit (R182). -/
theorem completionAux_arm {par : Params} {pin : BitVec 7} {bus : Bus} (h : (resolvePin par pin bus).valid = true)
    (trig : Trig) : completionAux par (.arm pin trig bus) = 1 := by
  rw [completionAux, h]
  rfl

/-- A run under way of an ARM of a valid pin performs step 1 and its register micro-operations, up to a state from which
ARMSET and IRQEN complete it. -/
theorem seqRun_arm {s : State} {pin : BitVec 7} {trig : Trig} {bus : Bus} {i : Nat} :
    let cmd : Instr := .arm pin trig bus
    let pn := resolvePin s.par pin bus
    Underway cmd pn.port i s → pn.valid = true → (bus = .ahb → s.par.ahbEnabled.get pn.port = true) →
    ∃ m, PinRun pn.port (cfgTail pn.port pn.off .input false 0 .up .ma8 .digital trig bus) i s m ∧
      RoutingRun cmd pn.port pn.off (s.par.irqLine.get pn.port) m (seqRun ((expand s.par cmd).length - i) s) := by
  intro cmd pn hu hv ha
  have he : expand s.par cmd = .clkSet pn.port :: .waitRdy pn.port ::
      (cfgTail pn.port pn.off .input false 0 .up .ma8 .digital trig bus ++
        [.armSet pn.port pn.off, .irqEn (s.par.irqLine.get pn.port)]) := by
    rw [expand_arm hv, cfgOps_eq_tail]
    rfl
  obtain ⟨hrun, hmore, -⟩ := seqRun_pin hu he (cfgTail_regOp _ _ _ _ _ _ _ _ _ _) cfgTail_ne_nil ha
  have harm := seqRun_armTail he (hmore (List.cons_ne_nil _ _))
  rw [← seqRun_add] at harm
  rw [length_sub_of_underway hu he]
  exact ⟨_, hrun, harm⟩

/-- Settles O44: the registers are those of the same pin's CFG (`cfgResult_of_effect`), since ARMSET and IRQEN change none;
these two give the slot, the enabled line and the completion. -/
theorem armCompletes : Obligations.ArmCompletes := by
  intro s pin trig bus i cmd pn hu hv hs ha t
  obtain ⟨m, hpin, hroute⟩ := seqRun_arm hu hv ha
  refine ⟨hroute.seq, ?resp, ?result, fun q hq => ?others, hroute.rcgc.trans hpin.rcgc, ?ready, ?slot, fun n => ?line,
    runFrame_trans hpin.frame hroute.frame⟩
  case resp =>
    rw [hroute.resp, hpin.frame.par, completionAux_arm hv]
  case result =>
    exact cfgResult_of_effect (fun ht => hs ht pn.port) ((hroute.ports pn.port).trans hpin.effect)
  case others =>
    exact (erase_eq_iff _ _).mp ((hroute.ports q).trans (hpin.others q hq))
  case ready =>
    rw [State.isReady, hroute.ready]
    exact hpin.ready
  case slot => rw [hroute.armt, hpin.armt]
  case line => rw [hroute.en, addLine_testBit, hpin.en, Bool.beq_eq_decide_eq]

/-! ### DEINIT (R226, R227) -/

theorem resolvePort_of_some {par : Params} {q : BitVec 3} {p : Port} (h : portOfNumber q.toNat = some p) (bus : Bus) :
    (resolvePort par q bus).valid = true ∧ (resolvePort par q bus).port = p := by
  rw [resolvePort, h]
  exact ⟨rfl, rfl⟩

theorem expand_deinit {par : Params} {q : BitVec 3} {p : Port} (h : portOfNumber q.toNat = some p) :
    expand par (.deinit q) = [.armClr p, .clkClr p] := by
  obtain ⟨hvalid, hport⟩ := resolvePort_of_some (par := par) h .apb
  rw [expand, hport]
  exact if_pos hvalid

/-- The aux a DEINIT of a valid port completes with is the valid bit (R182). -/
theorem completionAux_deinit {par : Params} {q : BitVec 3} {p : Port} (h : portOfNumber q.toNat = some p) :
    completionAux par (.deinit q) = 1 := by
  obtain ⟨hvalid, -⟩ := resolvePort_of_some (par := par) h .apb
  rw [completionAux, hvalid]
  rfl

/-- Settles O45: the list is ARMCLR and CLKCLR (`expand_deinit`), each with its end of step; the second completes the
command. -/
theorem deinitCompletes : Obligations.DeinitCompletes := by
  intro s q p hq hs t
  rw [expand_deinit hq] at hs
  have hfirst : seqRun 1 s = endOfStep _ := seqRun_more (op := .armClr p) hs rfl rfl Nat.one_lt_two
  have hseq : (seqRun 1 s).seq = .busy (.deinit q) [.armClr p, .clkClr p] 1 := by rw [hfirst]; rfl
  have ht : t = endOfStep _ := (seqRun_add 1 1 s).trans (seqRun_last (op := .clkClr p) hseq rfl rfl rfl)
  rw [hfirst] at ht
  have hgate : ∀ p', t.gateOn p' = (s.gateOn p' && !decide (p' = p)) := by
    rw [ht]
    exact clearBit_port s.rcgc p
  have hready : ∀ p', t.isReady p' = (s.isReady p' && !decide (p' = p)) := by
    rw [ht]
    exact clearBit_port s.ready p
  refine ⟨?idle, ?resp, ?slot, by simp [hgate], by simp [hready], fun p' hp' => by simp [hgate, hready, hp'],
    fun p' => ?ports, ?enables, ?frame, ?trace⟩
  case resp =>
    rw [ht]
    exact congrArg (Resp.mk .ok 0 0) (completionAux_deinit hq)
  case ports =>
    rw [← erase_eq_iff, ht, erase_endOfStep]
    exact erase_endOfStep _ p'
  case frame =>
    rw [ht]
    exact ⟨rfl, rfl, rfl, rfl, rfl, rfl⟩
  case idle | slot | enables | trace =>
    rw [ht]
    rfl

end Sys2Proof.Machine
end

section
/-! PROOF. What a write leaves in each register of a port (O28 to O32). -/

namespace Sys2Proof.Machine

/-! ### The values written (R256, R260 to R265) -/

theorem low_byte (v : Word) : v.extractLsb' 0 8 = (v.setWidth 8 : Byte) :=
  (BitVec.setWidth_eq_extractLsb' (by decide)).symm

/-- `LockWrite` by its two questions, the profile and the key (R263). -/
theorem lockWrite_eq (prof : Profile) (v : Word) (locked : Bool) :
    lockWrite prof v locked = if prof = .neutral then locked else if v = unlockKey then false else true := by
  cases prof with
  | neutral => rfl
  | tm4c123 =>
    rw [lockWrite, if_neg nofun]
    split
    next h => rw [h, bne_self_eq_false]
    next h => exact bne_iff_ne.mpr h

/-- CR is plain storage while its lock does not hold it (R262). -/
theorem writeReg_cr (prof : Profile) (noise : Byte) (v : Word) (r : PortRegs) :
    writeReg prof noise .cr v r =
      if prof = .neutral ∨ r.locked = false then { r with cr := v.setWidth 8 } else r := by
  cases prof <;> cases h : r.locked <;> simp [writeReg, h]

theorem spurious_bit (old v8 noise ris : Byte) (o : Off) :
    (spurious (old ^^^ v8) noise ris).getLsbD o =
      (ris.getLsbD o || (old.getLsbD o != v8.getLsbD o && noise.getLsbD o)) := by
  rw [spurious, BitVec.getLsbD_or, BitVec.getLsbD_and, BitVec.getLsbD_xor]

/-- A write-1-to-clear, bit by bit (R264). -/
theorem andNot_low_bit (ris : Byte) (v : Word) (o : Off) :
    (ris &&& ~~~(v.setWidth 8 : Byte)).getLsbD o = (ris.getLsbD o && !v.getLsbD o) := by
  rw [BitVec.getLsbD_and, BitVec.getLsbD_not, low_bit, decide_eq_true o.isLt, Bool.true_and]

/-- The sibling of a drive register keeps a bit but where the write sets it under `TM4C123` (R260). -/
theorem sibling_low_bit (prof : Profile) (old : Byte) (v : Word) (o : Off) :
    (old &&& ~~~siblingClear prof (v.setWidth 8)).getLsbD o =
      if prof = .tm4c123 ∧ v.getLsbD o = true then false else old.getLsbD o := by
  rw [andNot_siblingClear_bit, low_bit]
  by_cases hp : prof = .tm4c123 <;> cases v.getLsbD o <;> simp [hp]

/-- The sibling of a pull register keeps a bit but where the write sets a committed one under `TM4C123` (R261). -/
theorem sibling_commit_low_bit (prof : Profile) (r : PortRegs) (old : Byte) (v : Word) (o : Off) :
    (old &&& ~~~siblingClear prof (v.setWidth 8 &&& commitMask prof r)).getLsbD o =
      (old.getLsbD o && !(decide (prof = .tm4c123) && v.getLsbD o && r.cr.getLsbD o)) := by
  rw [andNot_siblingClear_commit_bit, low_bit]

theorem committed_iff {prof : Profile} {r : PortRegs} {o : Off} :
    committed prof r o = true ↔ prof = .neutral ∨ r.cr.getLsbD o = true := by
  cases prof with
  | neutral => exact ⟨fun _ => .inl rfl, fun _ => rfl⟩
  | tm4c123 => exact ⟨.inr, fun h => h.resolve_left nofun⟩

/-- A gated register takes the bits of the value that are committed (R262). -/
theorem merge_commit_low_bit (prof : Profile) (r : PortRegs) (old : Byte) (v : Word) (o : Off) :
    (merge (commitMask prof r) old (v.setWidth 8)).getLsbD o =
      if prof = .neutral ∨ r.cr.getLsbD o = true then v.getLsbD o else old.getLsbD o := by
  simp only [merge_bit, commitMask_bit, low_bit, committed_iff]

theorem regWrite_port (p : Port) (x : Reg) (v : Word) (s : State) :
    (regWrite p x v s).port p = writeReg s.par.profile (s.draw .spurious) x v (s.port p) :=
  port_setPort s p _

/-! ### A level status at the end of a step (R264, R313) -/

/-- A present, enabled pin of a ready port in level mode has its status set when the level its step ends at is the
active one, whatever the status was. -/
theorem endOfStep_ris_of_level {u : State} {p : Port} {o : Off} (hready : u.isReady p = true)
    (his : (u.port p).is.getLsbD o = true) (hden : (u.port p).den.getLsbD o = true)
    (hpresent : (u.par.pinPresent.get p).getLsbD o = true)
    (hlevel : ((endOfStep u).level.get p).getLsbD o = (u.port p).iev.getLsbD o) :
    ((endOfStep u).port p).ris.getLsbD o = true := by
  have hinput : ((endOfStep u).sampled.get p).getLsbD o = (u.port p).iev.getLsbD o := by
    rw [endOfStep_sampled_get, if_pos hready, portInput_settle_bit, hden, hpresent, Bool.and_self, if_pos rfl, hlevel]
  rw [endOfStep_ris_bit hready, hinput, his, detectBit, if_pos rfl, beq_self_eq_true]

/-! ### The obligations -/

/-- Settles O28: the plain registers store the low byte, PCTL the value, and LOCK what `lockWrite` gives. -/
theorem plainAndLockWrites : Obligations.PlainAndLockWrites := by
  intro s p v
  rw [low_byte, show (0x4C4F434B : Word) = unlockKey from rfl, ← lockWrite_eq]
  exact ⟨rfl, rfl, rfl, rfl, rfl, rfl, rfl, rfl, rfl⟩

/-- Settles O29: the written register by `low_bit`, each sibling by `siblingClear`. -/
theorem siblingClearing : Obligations.SiblingClearing := by
  intro s p v r keep clears
  have hkeep := fun old o => sibling_low_bit s.par.profile old v o
  have hclears := fun old o => sibling_commit_low_bit s.par.profile r old v o
  refine ⟨?dr2r, ?dr4r, ?dr8r, ?pur, ?pdr⟩
  case dr2r | dr4r | dr8r =>
    exact ⟨_, _, _, rfl, fun o => ⟨low_bit v o, hkeep _ o, hkeep _ o⟩⟩
  case pur => exact ⟨_, _, rfl, hclears r.pdr⟩
  case pdr => exact ⟨_, _, rfl, hclears r.pur⟩

/-- Settles O30: the four gated registers by their commit mask, CR by its lock. -/
theorem commitGating : Obligations.CommitGating := by
  intro s p v r
  refine ⟨fun o => ?gated, ?cr, ?afsel, ?den⟩
  case gated =>
    have hgated := fun old => merge_commit_low_bit s.par.profile r old v o
    simp only [regWrite_port]
    exact ⟨hgated r.afsel, hgated r.den, hgated r.pur, hgated r.pdr⟩
  case cr =>
    rw [low_byte, regWrite, writeReg_cr]
    exact apply_ite (s.setPort p) _ _ _
  case afsel | den =>
    rw [regWrite_port]
    rfl

/-- Settles O31: the write clears as `andNot_low_bit` says and leaves the sense registers, so that the level the
step ends at sets the bit again. -/
theorem icrClears : Obligations.IcrClears := by
  intro s p v
  refine ⟨⟨_, rfl, andNot_low_bit (s.port p).ris v⟩, fun o hready his hden hpresent hlevel => ?_⟩
  have hport : (regWrite p .icr v s).port p = { s.port p with ris := (s.port p).ris &&& ~~~v.setWidth 8 } :=
    regWrite_port p .icr v s
  exact endOfStep_ris_of_level hready (by rw [hport]; exact his) (by rw [hport]; exact hden) hpresent
    (by rw [hport]; exact hlevel)

/-- Settles O32: the status of a changed sense bit is drawn as `spurious` says. -/
theorem senseWritesMaySetStatus : Obligations.SenseWritesMaySetStatus := by
  intro s p v r v8 free
  have hv8 : v8 = v.setWidth 8 := low_byte v
  have hdrawn := fun old o => spurious_bit old v8 (s.draw .spurious) r.ris o
  refine ⟨⟨_, ?_, hdrawn r.is⟩, ⟨_, ?_, hdrawn r.ibe⟩, ⟨_, ?_, hdrawn r.iev⟩⟩ <;>
    (rw [hv8]; rfl)

end Sys2Proof.Machine
end

section
/-! PROOF. The port-relative commands on a port's registers and on its DATA window (O15 to O17). -/

namespace Sys2Proof.Machine

/-! ### The access check before a read or a write (R85, R96, R255) -/

/-- A target in the window of port `p` seen through aperture `b`, where the access check comes first (R255). -/
inductive InAperture (p : Port) (b : Bus) : Target → Prop where
  | data (m : Byte) : InAperture p b (.data p b m)
  | reg (x : Reg) : InAperture p b (.reg p b x)

theorem busRead_accessFault {p : Port} {b : Bus} {t : Target} {s : State} {c : Status} (ht : InAperture p b t)
    (hc : accessFault p b s = some c) : busRead t s = .error c := by
  cases ht <;> simp only [busRead, hc]

theorem busWrite_accessFault {p : Port} {b : Bus} {t : Target} {s : State} {c : Status} (ht : InAperture p b t)
    (hc : accessFault p b s = some c) (d : Word) : busWrite t d s = .error c := by
  cases ht <;> simp only [busWrite, hc]

/-- The three faults in the order `Check` tries them (R255). -/
theorem elim_accessFault {α : Sort _} (p : Port) (b : Bus) (s : State) (ok : α) (fault : Status → α) :
    (accessFault p b s).elim ok fault =
      if b = .ahb ∧ s.par.ahbEnabled.get p = false then fault .ahbOff
      else if s.gateOn p = false then fault .gated
      else if s.isReady p = false then fault .notReady
      else ok := by
  rw [accessFault]
  split_ifs <;> rfl

/-- A read in a port's window, from the idle sequencer: the fault of the access check, or what the bus answers an
accessible port. -/
theorem exec_rda_aperture {s : State} {p : Port} {b : Bus} {t : Target} {a v : Word} (h : s.seq = .idle)
    (ha : decodeAddr s.par a = t) (ht : InAperture p b t) (hok : Accessible p b s → busRead t s = .ok v) :
    exec (.rda a) s = .next ((accessFault p b s).elim
      { s with resp := ⟨.ok, 0, v, 0⟩, trace := s.trace ++ [.read a v] }
      fun c => { s with resp := ⟨c, a, 0, 0⟩, trace := s.trace ++ [.fault c a] }) := by
  subst ha
  cases hc : accessFault p b s with
  | none => exact exec_rda_ok h (hok ((accessFault_none p b s).mp hc))
  | some c => exact exec_rda_error h (busRead_accessFault ht hc)

/-- A write in a port's window, likewise. -/
theorem exec_wra_aperture {s u : State} {p : Port} {b : Bus} {t : Target} {a d : Word} (h : s.seq = .idle)
    (ha : decodeAddr s.par a = t) (ht : InAperture p b t) (hok : Accessible p b s → busWrite t d s = .ok u) :
    exec (.wra a d) s = .next ((accessFault p b s).elim
      { u with resp := ⟨.ok, 0, 0, 0⟩, trace := s.trace ++ [.write a d] }
      fun c => { s with resp := ⟨c, a, 0, 0⟩, trace := s.trace ++ [.fault c a] }) := by
  subst ha
  cases hc : accessFault p b s with
  | none => exact exec_wra_ok h (hok ((accessFault_none p b s).mp hc))
  | some c => exact exec_wra_error h (busWrite_accessFault ht hc d)

/-- RDR of a listed register, from the idle sequencer (R251). -/
theorem exec_rdr_reg {s : State} (h : s.seq = .idle) (hm : MapSound s.par) (q : BitVec 3) (b : Bus) (x : Reg) :
    let p := (resolvePort s.par q b).port
    let a := regAddr s.par.map p b x
    exec (.rdr q (regOffset s.par.map x) b) s = .next ((accessFault p b s).elim
      { s with resp := ⟨.ok, 0, regRead p x s, 0⟩, trace := s.trace ++ [.read a (regRead p x s)] }
      fun c => { s with resp := ⟨c, a, 0, 0⟩, trace := s.trace ++ [.fault c a] }) :=
  (exec_rdr ..).trans (exec_rda_aperture h (decodeAddr_regAddr hm _ b x) (.reg x) fun ha => busRead_reg ha x)

/-- WRR to a listed register, from the idle sequencer (R252). -/
theorem exec_wrr_reg {s : State} (h : s.seq = .idle) (hm : MapSound s.par) (q : BitVec 3) (b : Bus) (x : Reg)
    (d : Word) :
    let p := (resolvePort s.par q b).port
    let a := regAddr s.par.map p b x
    exec (.wrr q (regOffset s.par.map x) b d) s = .next ((accessFault p b s).elim
      { regWrite p x d s with resp := ⟨.ok, 0, 0, 0⟩, trace := s.trace ++ [.write a d] }
      fun c => { s with resp := ⟨c, a, 0, 0⟩, trace := s.trace ++ [.fault c a] }) :=
  (exec_wrr ..).trans (exec_wra_aperture h (decodeAddr_regAddr hm _ b x) (.reg x) fun ha => busWrite_reg ha x d)

/-! ### The DATA window, bit by bit (R257) -/

theorem decodeAddr_data {par : Params} (hm : MapSound par) (p : Port) (b : Bus) {off : BitVec 12}
    (hal : off.extractLsb' 0 2 = 0) (hoff : off.toNat ≤ 0x3FC) :
    decodeAddr par (apertureBase par.map p b + off.setWidth 32) = .data p b (off.extractLsb' 2 8) := by
  rw [decodeAddr_aperture hm p b off hal, portTarget_data _ p b off hoff]

/-- The mask of a DATA access stands in bits 9:2 of the offset. -/
theorem dataMask_bit (off : BitVec 12) (i : Off) : (off.extractLsb' 2 8).getLsbD i = off.getLsbD (i + 2) := by
  rw [BitVec.getLsbD_extractLsb', decide_eq_true i.isLt, Bool.true_and, Nat.add_comm]

theorem dataRead_bit (p : Port) (m : Byte) (s : State) (i : Off) :
    (dataRead p m s).getLsbD i =
      (m.getLsbD i &&
        (if (s.port p).den.getLsbD i = false then false
        else if (s.port p).afsel.getLsbD i = true then (s.draw .dataRead).getLsbD i
        else if (s.port p).dir.getLsbD i = true then (s.port p).data.getLsbD i
        else (s.level.get p).getLsbD i)) := by
  rw [dataRead, byteOf_bit, dataBit]
  cases (s.port p).den.getLsbD i <;> rfl

/-! ### The obligations -/

/-- Settles O15: the access check's faults in order, and `regRead` register by register. -/
theorem rdrReadsRegister : Obligations.RdrReadsRegister := by
  intro s q x bus h hm p off a r v
  have hv : regRead p x s = v := by
    cases x with
    | lock => exact (by decide : ∀ l, zext (BitVec.ofBool l) = if l then 1 else 0) r.locked
    | _ => rfl
  rw [exec_rdr_reg h hm q bus x, elim_accessFault, hv]
  rfl

/-- Settles O16: the access check's faults in order, and `regWrite`, which replaces the port's registers alone. -/
theorem wrrWritesRegister : Obligations.WrrWritesRegister := by
  intro s q x bus d h hm p off a
  rw [exec_wrr_reg h hm q bus x d, elim_accessFault]
  rfl

/-- Settles O17: the access check's faults in order; on an accessible port the mask is bits 9:2 of the offset, and
the value and the latch are given bit by bit. -/
theorem dataWindow : Obligations.DataWindow := by
  intro s q off bus d h hm hoff hal p r a faults
  have ha : decodeAddr s.par a = .data p bus (off.extractLsb' 2 8) := decodeAddr_data hm p bus hal hoff
  have hread := (exec_rdr q off bus s).trans (exec_rda_aperture h ha (.data _) fun hacc => busRead_data hacc _)
  have hwrite := (exec_wrr q off bus d s).trans (exec_wra_aperture h ha (.data _) fun hacc => busWrite_data hacc _ d)
  rw [← elim_accessFault p bus s _ faults]
  cases hc : accessFault p bus s with
  | some c =>
    rw [hc] at hread hwrite
    exact ⟨hread, hwrite⟩
  | none =>
    rw [hc] at hread hwrite
    refine ⟨⟨_, hread, fun i => ?bit, fun k hk => ?high⟩,
      merge (off.extractLsb' 2 8) r.data (d.setWidth 8), hwrite, fun i => ?latch⟩
    case bit =>
      rw [zext_bit, dataRead_bit, dataMask_bit]
      rfl
    case high =>
      rw [zext_bit]
      exact BitVec.getLsbD_of_ge _ k hk
    case latch => rw [merge_bit, dataMask_bit, low_bit]

end Sys2Proof.Machine
end

section
/-! PROOF. The words of the interrupt controller and of the system control, the read-only words, and the commands
NOP and RDARM (O14, O24 to O27, O33). -/

namespace Sys2Proof.Machine

/-! ### Words that are not in a port's window meet no access check (R268 to R271) -/

theorem exec_rda_nv {s : State} (h : s.seq = .idle) (hm : MapSound s.par) {kind : NvKind} {k : Nat}
    (hk : 4 * k < kind.length s.par.nIrq) :
    exec (.rda (nvAddr s.par.map kind k)) s = .next { s with
      resp := ⟨.ok, 0, nvRead kind k s, 0⟩
      trace := s.trace ++ [.read (nvAddr s.par.map kind k) (nvRead kind k s)] } :=
  exec_rda_ok h (by rw [decodeAddr_nv hm kind k hk]; rfl)

theorem exec_wra_nv {s : State} (h : s.seq = .idle) (hm : MapSound s.par) {kind : NvKind} {k : Nat}
    (hk : 4 * k < kind.length s.par.nIrq) (d : Word) :
    exec (.wra (nvAddr s.par.map kind k) d) s = .next { nvWrite kind k d s with
      resp := ⟨.ok, 0, 0, 0⟩, trace := s.trace ++ [.write (nvAddr s.par.map kind k) d] } :=
  exec_wra_ok h (by rw [decodeAddr_nv hm kind k hk]; rfl)

/-- The ready word is read-only (R259). -/
theorem exec_wra_pr {s : State} (h : s.seq = .idle) (hm : MapSound s.par) (d : Word) :
    exec (.wra s.par.map.prAddr d) s =
      .next { s with resp := ⟨.ok, 0, 0, 0⟩, trace := s.trace ++ [.write s.par.map.prAddr d] } :=
  exec_wra_ok h (by rw [decodeAddr_pr hm]; rfl)

/-! ### Words and lines (R269 to R271) -/

theorem word_in_lines {kind : NvKind} (hkind : kind ≠ .pri) {k nIrq : Nat} (hk : k < nIrq / 32) :
    4 * k < kind.length nIrq := by
  have hlen : kind.length nIrq = 4 * (nIrq / 32) := by
    cases kind with
    | pri => exact absurd rfl hkind
    | _ => rfl
  omega

theorem word_in_priorities {j nIrq : Nat} (hj : j < nIrq / 4) : 4 * j < NvKind.pri.length nIrq := by
  have hlen : NvKind.pri.length nIrq = nIrq := rfl
  omega

/-- A word below `N_IRQ/32` names only lines that exist (R270). -/
theorem lineMask_bit_of_lt {par : Params} {k : Nat} (hk : k < par.nIrq / 32) (d : Word) (n : Nat) :
    (lineMask par k d).testBit n = (n / 32 == k && d.getLsbD (n % 32)) := by
  rw [lineMask_bit]
  by_cases hn : n / 32 = k
  · have hlt : n < par.nIrq := by omega
    rw [decide_eq_true hlt, Bool.true_and]
  · rw [beq_false_of_ne hn, Bool.false_and, Bool.and_false]

theorem zext_high {w : Nat} (v : BitVec w) (len : Nat) : (zext v).extractLsb' w len = 0 := by
  refine BitVec.eq_of_getLsbD_eq fun i _ => ?_
  rw [BitVec.getLsbD_extractLsb', zext, BitVec.getLsbD_setWidth, BitVec.getLsbD_of_ge v _ (Nat.le_add_right w i)]
  simp

/-! ### Registers a write leaves as they are (R259) -/

/-- A write to RIS or MIS of an accessible port succeeds and changes no register. -/
theorem exec_wrr_readOnly {s : State} (h : s.seq = .idle) (hm : MapSound s.par) {q : BitVec 3} {b : Bus}
    (hacc : Accessible (resolvePort s.par q b).port b s) {x : Reg} (hx : x = .ris ∨ x = .mis) (d : Word) :
    exec (.wrr q (regOffset s.par.map x) b d) s = .next { s with
      resp := ⟨.ok, 0, 0, 0⟩
      trace := s.trace ++ [.write (regAddr s.par.map (resolvePort s.par q b).port b x) d] } := by
  have hkept : regWrite (resolvePort s.par q b).port x d s = s :=
    regWrite_eq_self (by rcases hx with rfl | rfl <;> rfl)
  rw [exec_wrr_reg h hm, accessFault_ready hacc, hkept]
  rfl

/-! ### NOP and RDARM (R250, R229) -/

theorem exec_nop {s : State} (h : s.seq = .idle) : exec .nop s = .next { s with resp := ⟨.ok, 0, 0, 0⟩ } := by
  rw [exec, execNop, accept_idle h, complete_idle h]

theorem exec_rdarm {s : State} (h : s.seq = .idle) (q : BitVec 3) :
    let r := resolvePort s.par q .apb
    exec (.rdarm q) s = .next { s with resp := ⟨.ok, 0, armedSlot r s, zext (BitVec.ofBool r.valid)⟩ } := by
  rw [exec, execRdarm, accept_idle h, complete_idle h]

theorem armedSlot_invalid {r : Resolved} (hv : r.valid = false) (s : State) : armedSlot r s = 0 := by
  rw [armedSlot, hv]

theorem armedSlot_valid {r : Resolved} (hv : r.valid = true) (s : State) :
    armedSlot r s = (s.armt.get r.port).elim 0 fun o => BitVec.ofNat 32 (8 + o.val) := by
  rw [armedSlot, hv]
  cases s.armt.get r.port with
  | none => rfl
  | some o => exact (by decide : ∀ o : Off, (0x8 ||| BitVec.ofNat 32 o.val : Word) = BitVec.ofNat 32 (8 + o.val)) o

/-! ### The obligations -/

/-- Settles O24: the lines' words by `lineWord_bit`, a byte of a priority word by `nvRead_pri_byte`. -/
theorem controllerWordReads : Obligations.ControllerWordReads := by
  intro s h hm reads
  refine ⟨fun k hk kind hkind => ⟨nvRead kind k s, exec_rda_nv h hm (word_in_lines hkind hk), fun b hb => ?lines⟩,
    fun j hj => ⟨nvRead .pri j s, exec_rda_nv (kind := .pri) h hm (word_in_priorities hj), nvRead_pri_byte s j⟩⟩
  cases kind with
  | setEna | clrEna => exact lineWord_bit s.en k b hb
  | setPend | clrPend => exact lineWord_bit s.pend k b hb
  | active => exact lineWord_bit s.act k b hb
  | pri => exact absurd rfl hkind

/-- Settles O25: a set write adds the lines of `lineMask`, a clear write removes them, and a write to ACTIVE does
neither. -/
theorem controllerWordWrites : Obligations.ControllerWordWrites := by
  intro s d k h hm hk named at_ done
  have hwrite := fun kind hkind => exec_wra_nv (kind := kind) h hm (word_in_lines hkind hk) d
  have hset : ∀ (v : LineBits) (n : Nat), (v ||| lineMask s.par k d).testBit n = (v.testBit n || named n) := by
    intro v n
    rw [Nat.testBit_or, lineMask_bit_of_lt hk]
  have hclear : ∀ (v : LineBits) (n : Nat),
      (removeLines v (lineMask s.par k d)).testBit n = (v.testBit n && !named n) := by
    intro v n
    rw [removeLines_testBit, lineMask_bit_of_lt hk]
  exact ⟨⟨_, hwrite .setEna nofun, hset s.en⟩, ⟨_, hwrite .clrEna nofun, hclear s.en⟩,
    ⟨_, hwrite .setPend nofun, hset s.pend⟩, ⟨_, hwrite .clrPend nofun, hclear s.pend⟩, hwrite .active nofun⟩

/-- Settles O26: the priorities after the write are `priWrite`, line by line. -/
theorem priorityWrites : Obligations.PriorityWrites := by
  intro s d j h hm hr hj a
  have hwrite := exec_wra_nv (kind := .pri) h hm (word_in_priorities hj) d
  refine ⟨priWrite j d s, hwrite, priWrite_length j d s, fun n hn => ?_⟩
  rw [priWrite_get j d s hn]
  refine ⟨fun hword i => ?_, fun hword => if_neg hword⟩
  rw [if_pos hword, priOfByte_bit hr, Nat.add_sub_assoc hr.prioBits.2]

/-- Settles O27: the gate word by `rcgcWrite_bits`; a read is the six bits, zero-extended. -/
theorem clockWords : Obligations.ClockWords := by
  intro s d h hm rcgcAddr prAddr
  have hwrite : exec (.wra rcgcAddr d) s = .next _ := exec_wra_ok h (by rw [decodeAddr_rcgc hm]; rfl)
  have hgates : exec (.rda rcgcAddr) s = .next _ := exec_rda_ok h (by rw [decodeAddr_rcgc hm]; rfl)
  have hready : exec (.rda prAddr) s = .next _ := exec_rda_ok h (by rw [decodeAddr_pr hm]; rfl)
  exact ⟨⟨_, hwrite, rfl, rcgcWrite_bits d s⟩, exec_wra_pr h hm d,
    ⟨_, hgates, zext_extract s.rcgc (by decide), zext_high s.rcgc 26⟩,
    ⟨_, hready, zext_extract s.ready (by decide), zext_high s.ready 26⟩⟩

/-- Settles O33: the bus performs each of these writes as no change. -/
theorem readOnlyWrites : Obligations.ReadOnlyWrites := by
  intro s d h hm done
  refine ⟨fun q bus hacc => ?_, exec_wra_pr h hm d,
    fun k hk => exec_wra_nv h hm (word_in_lines (kind := .active) nofun hk) d⟩
  refine ⟨exec_wrr_readOnly h hm hacc (.inl rfl) d, exec_wrr_readOnly h hm hacc (.inr rfl) d, ?_⟩
  rw [exec_rdr_reg h hm q bus .icr, accessFault_ready hacc]
  rfl

/-- Settles O14: by whether the port field names a port, and by the port's slot. -/
theorem nopAndRdarmResults : Obligations.NopAndRdarmResults := by
  intro s q h
  refine ⟨exec_nop h, fun hq => ?invalid, fun p hq => ?valid⟩
  case invalid =>
    obtain ⟨-, hport⟩ | ⟨hv, -⟩ := resolvePort_cases s.par q .apb
    · have := Port.index_lt (resolvePort s.par q .apb).port
      omega
    · rw [exec_rdarm h, armedSlot_invalid hv, hv]
      rfl
  case valid =>
    obtain ⟨hv, hport⟩ := resolvePort_of_some (par := s.par) (portOfNumber_some.mpr hq.symm) .apb
    rw [exec_rdarm h, armedSlot_valid hv, hv, hport]
    exact ⟨fun hs => by rw [hs]; rfl, fun o hs => by rw [hs]; rfl⟩

end Sys2Proof.Machine
end

section
/-! PROOF. No step stops the block, and the status an access reports (O10, O21). -/

namespace Sys2Proof.Machine

/-! ### Every turn has a next state (R301, R302) -/

/-- An idle sequencer accepts every command: each meaning is an acceptance (R104). -/
theorem exec_idle_next {s : State} (h : s.seq = .idle) (i : Instr) : ∃ t, exec i s = .next t := by
  have haccept : ∃ t, exec i s = accept s t := by cases i <;> exact ⟨_, rfl⟩
  obtain ⟨t, ht⟩ := haccept
  exact ⟨t, ht.trans (accept_idle h t)⟩

theorem portStep_next (s : State) : ∃ t, portStep s = .next t := by
  by_cases h : s.seq = .idle
  · cases hd : decodeStream s.stream with
    | waiting => exact ⟨_, portStep_waiting h hd⟩
    | illegal w why rest => exact ⟨_, portStep_illegal h hd⟩
    | command i rest =>
      rw [portStep_command h hd]
      exact exec_idle_next (s := { s with stream := rest }) h i
  · exact ⟨_, portStep_busy h⟩

/-! ### The fault an address meets (R253 to R255, R300) -/

/-- The fault an access to a decoded address raises, for reads and writes alike; none when it is performed. -/
def targetFault (s : State) : Target → Option Status
  | .fault c => some c
  | .data p b _ | .reg p b _ => accessFault p b s
  | .sysRcgc | .sysReady | .nv _ _ => none

/-- `targetFault` is the fault of the bus. -/
theorem bus_of_targetFault_some {s : State} {t : Target} {c : Status} (h : targetFault s t = some c) (d : Word) :
    busRead t s = .error c ∧ busWrite t d s = .error c := by
  cases t with
  | fault c' => cases h; exact ⟨rfl, rfl⟩
  | data p b m => exact ⟨busRead_accessFault (.data m) h, busWrite_accessFault (.data m) h d⟩
  | reg p b x => exact ⟨busRead_accessFault (.reg x) h, busWrite_accessFault (.reg x) h d⟩
  | sysRcgc | sysReady | nv => cases h

theorem bus_of_targetFault_none {s : State} {t : Target} (h : targetFault s t = none) (d : Word) :
    (∃ v, busRead t s = .ok v) ∧ ∃ u, busWrite t d s = .ok u := by
  cases t with
  | fault c => cases h
  | data p b m =>
    have hacc := (accessFault_none p b s).mp h
    exact ⟨⟨_, busRead_data hacc m⟩, _, busWrite_data hacc m d⟩
  | reg p b x =>
    have hacc := (accessFault_none p b s).mp h
    exact ⟨⟨_, busRead_reg hacc x⟩, _, busWrite_reg hacc x d⟩
  | sysRcgc | sysReady | nv => exact ⟨⟨_, rfl⟩, _, rfl⟩

/-- What RESP says after an access from the idle sequencer, by the fault its address meets (R52). -/
theorem exec_access_resp {s : State} (h : s.seq = .idle) (a d : Word) :
    ∃ t u, exec (.rda a) s = .next t ∧ exec (.wra a d) s = .next u ∧
      let f := targetFault s (decodeAddr s.par a)
      t.resp.statusBits = f.elim 0 Status.code ∧ u.resp.statusBits = f.elim 0 Status.code ∧
        t.resp.addr = f.elim 0 (fun _ => a) ∧ u.resp.addr = f.elim 0 (fun _ => a) := by
  cases hf : targetFault s (decodeAddr s.par a) with
  | none =>
    obtain ⟨⟨v, hv⟩, u, hu⟩ := bus_of_targetFault_none hf d
    exact ⟨_, _, exec_rda_ok h hv, exec_wra_ok h hu, rfl, rfl, rfl, rfl⟩
  | some c =>
    obtain ⟨hr, hw⟩ := bus_of_targetFault_some hf d
    exact ⟨_, _, exec_rda_error h hr, exec_wra_error h hw, rfl, rfl, rfl, rfl⟩

theorem portTarget_fault {m : AddressMap} {p : Port} {b : Bus} {off : Nat} {c : Status}
    (h : portTarget m p b off = .fault c) : c = .unmapped := by
  unfold portTarget at h
  split at h
  next => cases h
  next =>
    split at h <;> cases h
    rfl

/-- An aligned address faults only with UNMAPPED (R87). -/
theorem decodeAddr_fault_of_aligned {par : Params} {a : Word} {c : Status} (hal : a.extractLsb' 0 2 = 0)
    (h : decodeAddr par a = .fault c) : c = .unmapped := by
  rw [decodeAddr, if_neg (by rw [hal]; decide)] at h
  split at h
  next => exact portTarget_fault h
  next =>
    split_ifs at h
    split at h <;> cases h
    rfl

theorem decodeAddr_ne_fault_ok (par : Params) (a : Word) : decodeAddr par a ≠ .fault .ok := by
  intro h
  by_cases hal : a.extractLsb' 0 2 = 0
  · cases decodeAddr_fault_of_aligned hal h
  · rw [decodeAddr_misaligned hal] at h
    cases h

theorem accessFault_ne_ok (p : Port) (b : Bus) (s : State) : accessFault p b s ≠ some .ok := by
  unfold accessFault
  split_ifs <;> nofun

/-- No access raises OK as a fault. -/
theorem targetFault_ne_ok (s : State) (a : Word) : targetFault s (decodeAddr s.par a) ≠ some .ok := by
  cases ht : decodeAddr s.par a with
  | fault c =>
    rintro ⟨⟩
    exact decodeAddr_ne_fault_ok s.par a ht
  | data p b m => exact accessFault_ne_ok p b s
  | reg p b x => exact accessFault_ne_ok p b s
  | sysRcgc | sysReady | nv => nofun

/-- Only OK has the code 0x0 (R300). -/
theorem code_eq_zero {c : Status} : c.code = 0 ↔ c = .ok := by cases c <;> decide

/-! ### The obligations -/

/-- Settles O10: a reset turn, the command port's turn, and every other agent's turn each have a next state. -/
theorem stepNeverStops : Obligations.StepNeverStops := by
  intro s
  by_cases hreset : nextTurn s = .reset
  · exact ⟨_, step_eq_resetBlock hreset⟩
  · by_cases hport : nextTurn s = .port
    · obtain ⟨u, hu⟩ := portStep_next (beginStep s)
      exact ⟨endOfStep u, by rw [step_eq hport, runTurn, hu, finish]⟩
    · exact ⟨_, step_eq_agentEffect rfl hport hreset⟩

/-- Settles O21: the code the statement asks for is that of the access's `targetFault`, and 0x0 without one. -/
theorem statusCodes : Obligations.StatusCodes := by
  refine ⟨⟨rfl, rfl, rfl, rfl, rfl, rfl, rfl⟩, fun c => by cases c <;> rfl, by decide, fun s a d h => ?_⟩
  intro port code
  have hport : ∀ p b, port p b = (accessFault p b s).elim 0 Status.code :=
    fun p b => (elim_accessFault p b s 0 Status.code).symm
  have hcode : code = (targetFault s (decodeAddr s.par a)).elim 0 Status.code := by
    by_cases hal : a.extractLsb' 0 2 = 0
    · rw [show code = _ from if_neg (not_not.mpr hal)]
      cases ht : decodeAddr s.par a with
      | fault c => rw [decodeAddr_fault_of_aligned hal ht]; rfl
      | data p b m => exact hport p b
      | reg p b x => exact hport p b
      | sysRcgc | sysReady | nv => rfl
    · rw [show code = _ from if_pos hal, decodeAddr_misaligned hal]
      rfl
  have haddr : (if code = 0 then 0 else a) = (targetFault s (decodeAddr s.par a)).elim 0 (fun _ => a) := by
    rw [hcode]
    cases hf : targetFault s (decodeAddr s.par a) with
    | none => rfl
    | some c => exact if_neg fun hc => targetFault_ne_ok s a (by rw [hf, code_eq_zero.mp hc])
  rw [haddr, hcode]
  exact exec_access_resp h a d

end Sys2Proof.Machine
end

section
/-! PROOF. What ends every step: the pad constraints, sampling, detection and the pending update (O48 to O52). -/

namespace Sys2Proof.Machine

/-! ### One pin (R310, R312) -/

/-- Edge mode: a set status stays, and the change asked for sets it (R312). -/
theorem detectBit_edgeMode (ibe iev ris before now : Bool) :
    detectBit false ibe iev ris before now =
      (ris || if ibe = true then before != now else if iev = true then !before && now else before && !now) := by
  have hchange : (before != now) = (!before && now || before && !now) := by
    cases before <;> cases now <;> rfl
  rw [hchange]
  rfl

/-- A pin that drives nothing, and an open-drain output that latches 1, keeps its level (R310). -/
theorem padBit_of_free {present dir den afsel odr data : Bool} (level : Bool)
    (h : ¬(present = true ∧ dir = true ∧ den = true ∧ afsel = false) ∨ (odr = true ∧ data = true)) :
    padBit present dir den afsel odr data level = level := by
  obtain hfree | ⟨rfl, rfl⟩ := h
  · exact if_neg (by simpa only [Bool.and_eq_true, Bool.not_eq_true', and_assoc] using hfree)
  · exact ite_self level

theorem endOfStep_level_bit (s : State) (p : Port) (o : Off) :
    ((endOfStep s).level.get p).getLsbD o =
      padBit ((s.par.pinPresent.get p).getLsbD o) ((s.port p).dir.getLsbD o) ((s.port p).den.getLsbD o)
        ((s.port p).afsel.getLsbD o) ((s.port p).odr.getLsbD o) ((s.port p).data.getLsbD o)
        ((s.level.get p).getLsbD o) := by
  rw [endOfStep_level, padLevel, byteOf_bit]

/-! ### One line (R305, R306) -/

/-- A line that ports drive does not see the external lines. -/
theorem lineLevels_of_port {s : State} {n : Nat} (hn : n < s.par.nIrq) (h : ∃ p, s.par.irqLine.get p = n) :
    (lineLevels s).testBit n = (portLinesAsserted s).testBit n := by
  rw [lineLevels_bit, decide_eq_true hn, (portLineMask_bit s.par n).mpr h]
  simp

/-- A line that no port drives is the external one. -/
theorem lineLevels_of_external {s : State} {n : Nat} (hn : n < s.par.nIrq) (h : ∀ p, s.par.irqLine.get p ≠ n) :
    (lineLevels s).testBit n = s.xline.testBit n := by
  have hasserted : (portLinesAsserted s).testBit n = false :=
    Bool.eq_false_iff.mpr fun ha => have ⟨p, hp, _⟩ := (portLinesAsserted_bit s n).mp ha; h p hp
  have hmask : (portLineMask s.par).testBit n = false :=
    Bool.eq_false_iff.mpr fun hm => have ⟨p, hp⟩ := (portLineMask_bit s.par n).mp hm; h p hp
  rw [lineLevels_bit, decide_eq_true hn, hasserted, hmask]
  simp

/-! ### The obligations -/

/-- Settles O48: `detectBit` in edge mode, between the sample before the step and the one at its end. -/
theorem edgeDetection : Obligations.EdgeDetection := by
  intro s p o hready his before now event
  rw [endOfStep_ris_bit hready, his]
  exact detectBit_edgeMode ..

/-- Settles O49: `detectBit` in level mode does not look at the status it had, at IBE or at the sample before. -/
theorem levelDetection : Obligations.LevelDetection := by
  intro s p o hready his
  rw [endOfStep_ris_bit hready, his]
  exact if_pos rfl

/-- Settles O50: by whether the port is ready. -/
theorem sampling : Obligations.Sampling := by
  refine fun s p => ⟨fun hready => ⟨?registers, ?sample⟩, fun hready o => ?ready, ?frame⟩
  case registers => rw [endOfStep_port, hready]; rfl
  case sample => rw [endOfStep_sampled_get, hready]; rfl
  case ready =>
    rw [endOfStep_sampled_get, if_pos hready, portInput_settle_bit]
    simp only [Bool.and_eq_true]
    rfl
  case frame => rw [endOfStep_port]

/-- Settles O51: the level at the end of a step is `padBit`, in each of its three cases. -/
theorem padConstraints : Obligations.PadConstraints := by
  intro s p o r level driven
  have hlevel : level = padBit .. := endOfStep_level_bit s p o
  refine ⟨fun ⟨hpresent, hdir, hden, hafsel⟩ hodr => ?pushPull,
    fun ⟨hpresent, hdir, hden, hafsel⟩ hodr hdata => ?openDrain, fun hfree => ?free⟩
  case pushPull => rw [hlevel, hpresent, hdir, hden, hafsel, hodr]; rfl
  case openDrain => rw [hlevel, hpresent, hdir, hden, hafsel, hodr, hdata]; rfl
  case free => exact hlevel.trans (padBit_of_free _ hfree)

/-- Settles O52: by whether a port drives the line, and the pending update bit by bit. -/
theorem pendingUpdate : Obligations.PendingUpdate := by
  refine fun s n hn => ⟨fun h => ?port, lineLevels_of_external hn, endOfStep_pend_testBit s n⟩
  rw [lineLevels_of_port hn h]
  exact portLinesAsserted_bit s n

end Sys2Proof.Machine
end

section
/-! PROOF. The arbiter, and the core's acknowledge and end of interrupt (O53 to O55). -/

namespace Sys2Proof.Machine

/-! ### The deliverable lines (R317) -/

/-- Where only existing lines have bits and priorities fit their width, a line is deliverable when it is enabled,
pending and more urgent than every active line: `N_IRQ` and the value `RP` has with no line active bound nothing. -/
theorem deliverable_iff {s : State} (h : LineInv s) (n : Nat) :
    deliverable s n = true ↔ s.en.testBit n = true ∧ s.pend.testBit n = true ∧
      ∀ m, s.act.testBit m = true → s.priority n < s.priority m := by
  have hprio : s.priority n < 2 ^ s.par.prioBits := priAt_lt h n
  obtain ⟨-, -, hact, -⟩ := h
  have hexists := (lines_lt_iff s.act s.par.nIrq).mp hact
  rw [deliverable, Bool.and_eq_true, Bool.and_eq_true, decide_eq_true_eq, lt_runningPriority, and_assoc]
  refine and_congr_right fun _ => and_congr_right fun _ => ⟨fun hrp m hm => ?_, fun hall => ?_⟩
  · exact hrp.2 m (hexists m hm) hm
  · exact ⟨hprio, fun m _ hm => hall m hm⟩

/-- A deliverable line is one of the controller's lines, since it is pending. -/
theorem lt_nIrq_of_deliverable {s : State} (h : LineInv s) {n : Nat} (hd : deliverable s n = true) :
    n < s.par.nIrq := by
  obtain ⟨-, hp, -⟩ := (deliverable_iff h n).mp hd
  obtain ⟨-, hpend, -⟩ := h
  exact (lines_lt_iff s.pend s.par.nIrq).mp hpend n hp

/-! ### The core's two turns (R320, R321) -/

theorem acknowledge_some {s : State} {n : Nat} (h : s.seq = .idle) (ha : arbiter s = some n) :
    acknowledge s = emit (.ack n)
      { s with pend := removeLines s.pend (addLine 0 n), act := addLine s.act n, stack := n :: s.stack } := by
  rw [acknowledge, h]
  simp only [ha]

theorem acknowledge_none {s : State} (ha : arbiter s = none) : acknowledge s = s := by
  obtain e | ⟨n, -, hn, -⟩ := acknowledge_cases s
  · exact e
  · rw [ha] at hn
    cases hn

theorem endOfInterrupt_cons {s : State} {n : Nat} {rest : List Nat} (h : s.seq = .idle) (hs : s.stack = n :: rest) :
    endOfInterrupt s = emit (.eoi n) { s with act := removeLines s.act (addLine 0 n), stack := rest } := by
  rw [endOfInterrupt, h]
  simp only [hs]

theorem addLine_testBit_beq (v : LineBits) (n m : Nat) :
    (addLine v n).testBit m = (v.testBit m || m == n) := by
  rw [addLine_testBit, beq_eq_decide]

theorem removeLine_testBit (v : LineBits) (n m : Nat) :
    (removeLines v (addLine 0 n)).testBit m = (v.testBit m && m != n) := by
  rw [removeLines_testBit, addLine_zero_testBit, bne, beq_eq_decide]

/-! ### The obligations -/

/-- Settles O53: the arbiter's choice among the deliverable lines, which are the candidates. -/
theorem arbiterChoosesMostUrgent : Obligations.ArbiterChoosesMostUrgent := by
  intro s h candidate
  refine ⟨fun n ha => ?some, fun ha n hc => ?none⟩
  case some =>
    obtain ⟨-, hd, hfirst⟩ := arbiter_some ha
    refine ⟨(deliverable_iff h n).mp hd, fun m hc => ?_⟩
    have hm : deliverable s m = true := (deliverable_iff h m).mpr hc
    exact hfirst m (lt_nIrq_of_deliverable h hm) hm
  case none =>
    have hd : deliverable s n = true := (deliverable_iff h n).mpr hc
    exact Bool.eq_false_iff.mp (arbiter_none ha (lt_nIrq_of_deliverable h hd)) hd

/-- Settles O54: the line taken leaves the pending bits and joins the active ones. -/
theorem acknowledgeEffect : Obligations.AcknowledgeEffect := by
  refine fun s => ⟨fun n h ha => ⟨_, _, acknowledge_some h ha, fun m => ⟨?pend, ?act⟩⟩, acknowledge_none,
    acknowledge_busy⟩
  case pend => exact removeLine_testBit s.pend n m
  case act => exact addLine_testBit_beq s.act n m

/-- Settles O55: the line that ends is not active when the pending update of its step looks at it. -/
theorem endOfInterruptEffect : Obligations.EndOfInterruptEffect := by
  intro s n rest h hs
  have he := endOfInterrupt_cons h hs
  refine ⟨⟨_, he, removeLine_testBit s.act n⟩, fun hline => ?_⟩
  have hact : (endOfInterrupt s).act.testBit n = false := by
    rw [he, emit_act, removeLine_testBit, bne_self_eq_false, Bool.and_false]
  rw [endOfStep_pend_testBit, hline, hact]
  exact Bool.or_true _

end Sys2Proof.Machine
end
